-- ==== Sys2Proof/Word.lean ====
section
/-! DEFINITION. Words, bytes and the index lists of the microprograms' bit loops (spec/00_scope.md R9). -/

namespace Sys2Proof

/-- A host register or a command word: 32 bits (R21, R80). -/
abbrev Word := BitVec 32

/-- A 16-bit value: `RESULT.VALUE`, `DATA` and the shift register `s.r` (R23, R32, R81). -/
abbrev Half := BitVec 16

/-- A byte: the operand of the byte commands, and one cell of host memory (R63, R86). -/
abbrev Byte := BitVec 8

/-- The indexes of `for i = n-1 downto 0` (R127). -/
def downFrom : Nat → List Nat
  | 0 => []
  | n + 1 => n :: downFrom n

/-- The indexes of `for i = 0 to n-1` (R127). -/
def upTo (n : Nat) : List Nat := List.range n

end Sys2Proof
end

