-- ==== Sys2Proof/Syntax.lean ====
section
/-! DEFINITION. The commands of the block, one constructor per row of spec/opcode_table.json
(spec/30_encoding.md R83, R89). -/

namespace Sys2Proof

/-- A command with its operands (R83). Operands that the encoding gives a fixed width have that width as their
type; the one check left is `WellFormed` (`SPI.WRITEN`'s value against the configured width, R86, R87). -/
inductive Instr where
  /-- `I2C.INIT` (R151). -/
  | i2cInit
  /-- `I2C.START` (R152). -/
  | i2cStart
  /-- `I2C.STOP` (R153). -/
  | i2cStop
  /-- `I2C.RESTART` (R154). -/
  | i2cRestart
  /-- `I2C.WRITE b` (R156). -/
  | i2cWrite (b : Byte)
  /-- `I2C.READ ack|nack`: `true` sends ACK, the bit `A` (R84, R157). -/
  | i2cRead (ack : Bool)
  /-- `SPI.INIT` (R203). -/
  | spiInit
  /-- `SPI.SETMODE m` (R204). -/
  | spiSetMode (m : BitVec 2)
  /-- `SPI.GETMODE` (R205). -/
  | spiGetMode
  /-- `SPI.WRITEB b` (R207). -/
  | spiWriteB (b : Byte)
  /-- `SPI.WRITEN v` (R208). -/
  | spiWriteN (v : Half)
  /-- `SPI.READB` (R209). -/
  | spiReadB
  /-- `SPI.READN` (R210). -/
  | spiReadN
  /-- `SPI.XMIT b` (R211). -/
  | spiXmit (b : Byte)
  /-- `UART.INIT` (R251). -/
  | uartInit
  /-- `UART.WRITE b` (R252). -/
  | uartWrite (b : Byte)
  /-- `UART.READ` (R254). -/
  | uartRead
  deriving DecidableEq, Repr

end Sys2Proof
end

