-- ==== Sys2Proof/Machine/Types.lean ====
section
/-! DEFINITION. The small types the machine is made of: units, lines and pins, pin events, micro-operations, fault
codes, and the host program's accesses and composite commands. -/

namespace Sys2Proof.Machine

/-- The three peer units (R1, R82). -/
inductive SerialUnit where
  | i2c | spi | uart
  deriving DecidableEq, Repr

/-- The seven logical lines (R11, R35). -/
inductive Line where
  | scl | sda | sck | mosi | miso | tx | rx
  deriving DecidableEq, Repr

/-- The unit that owns a line (R35, R37). -/
def Line.unit : Line → SerialUnit
  | .scl => .i2c
  | .sda => .i2c
  | .sck => .spi
  | .mosi => .spi
  | .miso => .spi
  | .tx => .uart
  | .rx => .uart

/-- The open-drain lines: the operands of `μLOW` (R115). -/
inductive OpenDrainLine where
  | scl | sda
  deriving DecidableEq, Repr

/-- The push-pull lines: the operands of `μOUT` (R116). -/
inductive PushPullLine where
  | sck | mosi | tx
  deriving DecidableEq, Repr

/-- The lines read by `μSAMPLE` (R117). -/
inductive SampledLine where
  | sda | miso | rx
  deriving DecidableEq, Repr

/-- The lines polled by `μWAIT` (R118). -/
inductive WaitedLine where
  | scl | rx
  deriving DecidableEq, Repr

def OpenDrainLine.line : OpenDrainLine → Line
  | .scl => .scl
  | .sda => .sda

def PushPullLine.line : PushPullLine → Line
  | .sck => .sck
  | .mosi => .mosi
  | .tx => .tx

def SampledLine.line : SampledLine → Line
  | .sda => .sda
  | .miso => .miso
  | .rx => .rx

def WaitedLine.line : WaitedLine → Line
  | .scl => .scl
  | .rx => .rx

/-- The direction of a line: `IN` or `OUT` (R35). -/
inductive Dir where
  | input | output
  deriving DecidableEq, Repr

/-- One line's pin state (R35). `latch = none` is the spec's `⊥`: never written. -/
structure Pin where
  dir : Dir
  latch : Option Bool
  deriving DecidableEq, Repr

/-- A line after reset: an input whose latch is `⊥` (R40). -/
def Pin.reset : Pin := { dir := .input, latch := none }

/-- The level the block drives onto a line (R36). -/
inductive Level where
  | low | high | undriven
  deriving DecidableEq, Repr

/-- The delay classes (R124). -/
inductive DelayClass where
  /-- `D_I2C`, the I2C unit's delay. -/
  | i2c
  /-- `D_BIT`, one UART bit period. -/
  | bit
  /-- `D_BIT15`, one and a half UART bit periods. -/
  | bit15
  deriving DecidableEq, Repr

/-- A pin event of the history `H` (R12). -/
inductive Event where
  /-- `Dir(l, IN)`. -/
  | dirIn (l : Line)
  /-- `Low(l)`. -/
  | low (l : Line)
  /-- `Drive(l, v)`. -/
  | drive (l : Line) (v : Bool)
  /-- `Sample(l, v)`. -/
  | sample (l : Line) (v : Bool)
  /-- `Poll(l, v)`. -/
  | poll (l : Line) (v : Bool)
  /-- `Delay(c)`. -/
  | delay (c : DelayClass)
  deriving DecidableEq, Repr

/-- The bus-environment oracle `Env(l, H)` (R6, R121): a bit that may depend on the line and on the history so far. -/
abbrev Oracle := Line → List Event → Bool

/-- Where a sampled bit goes (R156, R157, R206, R254). -/
inductive SampleDest where
  /-- `s.a <- μSAMPLE(SDA)`. -/
  | ackBit
  /-- `s.r[i] <- μSAMPLE(l)`, with `i` the loop index `s.i`. -/
  | shiftBit
  deriving DecidableEq, Repr

/-- A value that `μDONE` writes to `RESULT.VALUE` (R23, R122). -/
inductive ResultSource where
  /-- `zext_16(~s.a)` (R156). -/
  | ackReceived
  /-- `zext_16(s.r[n-1:0])` (R157, R209, R210, R211, R254). -/
  | shiftLow (n : Nat)
  /-- `zext_16(x[SPICFG.MODE])` (R205). -/
  | spiMode
  deriving DecidableEq, Repr

/-- One register update listed in a `μDONE` (R122). -/
inductive DoneUpdate where
  /-- `RESULT.VALUE <- …`. -/
  | result (v : ResultSource)
  /-- `STATUS.ACK <- ~s.a` (R26, R156). -/
  | ack
  /-- `STATUS.<unit>_INIT <- 1` (R28). -/
  | init (u : SerialUnit)
  deriving DecidableEq, Repr

/-- The micro-operations: exactly these eight (R126). The operand types are the operand sets of R114 to R120. -/
inductive MicroOp where
  /-- `μIN(l)` (R114). -/
  | input (l : Line)
  /-- `μLOW(l)` (R115). -/
  | low (l : OpenDrainLine)
  /-- `μOUT(l, v)` (R116). -/
  | out (l : PushPullLine) (v : Bool)
  /-- `μSAMPLE(l)` with the destination of its value (R117). -/
  | sample (l : SampledLine) (dest : SampleDest)
  /-- `μWAIT(l, v)` (R118). -/
  | wait (l : WaitedLine) (v : Bool)
  /-- `μDELAY(c)` (R119). -/
  | delay (c : DelayClass)
  /-- `μSETMODE(m)` (R120). -/
  | setMode (m : BitVec 2)
  /-- `μDONE(...)` (R122). -/
  | done (updates : List DoneUpdate)
  deriving DecidableEq, Repr

/-- The pure computation of a microprogram: it takes no step of its own (R123). -/
inductive Assign where
  /-- `s.i <- i`: a loop takes its next index. -/
  | setIndex (i : Nat)
  /-- `s.r <- 0`. -/
  | clearShift
  deriving DecidableEq, Repr

/-- One step of a microprogram's text: a micro-operation and the pure computation that "happens together with the
micro-operation that follows it" (R123). -/
structure MicroStep where
  pre : List Assign
  op : MicroOp
  deriving DecidableEq, Repr

/-- The codes of `STATUS.FCODE` (R321). Codes 5 to 15 are never produced and have no constructor: DEDUCED, safe
(notes/assumptions/19.md). -/
inductive FaultCode where
  | none | illegalCommand | cmdWhileBusy | notInitialised | badRegister
  deriving DecidableEq, Repr

/-- The 4-bit code of a fault (R321). -/
def FaultCode.code : FaultCode → BitVec 4
  | .none => 0
  | .illegalCommand => 1
  | .cmdWhileBusy => 2
  | .notInitialised => 3
  | .badRegister => 4

/-- The SPI bus configuration, the fields of `SPICFG` (R29). -/
structure SpiCfg where
  mode : BitVec 2
  idle : Bool
  sample : Bool
  prop : Bool
  valid : Bool
  deriving DecidableEq, Repr

/-- `SPICFG` after reset: every field 0, the mode unset (R40). -/
def SpiCfg.reset : SpiCfg := { mode := 0, idle := false, sample := false, prop := false, valid := false }

/-- How `UART.READ` detects the start bit (R7, R253). -/
inductive StartDetect where
  | level | edge
  deriving DecidableEq, Repr

/-- The host's memory byte order (R7, R291). -/
inductive ByteOrder where
  | little | big
  deriving DecidableEq, Repr

/-- The value kinds of the multi-byte composite commands (R292). -/
inductive Kind where
  | u16 | u24 | u32 | f32
  deriving DecidableEq, Repr

/-- The size of a value kind in bytes (R292). -/
def Kind.size : Kind → Nat
  | .u16 => 2
  | .u24 => 3
  | .u32 => 4
  | .f32 => 4

/-- A value operand of a composite command (R292): `f32` is carried as its 32-bit pattern (R302). -/
inductive Value where
  | u16 (v : BitVec 16)
  | u24 (v : BitVec 24)
  | u32 (v : BitVec 32)
  | f32 (v : BitVec 32)
  deriving DecidableEq, Repr

def Value.kind : Value → Kind
  | .u16 _ => .u16
  | .u24 _ => .u24
  | .u32 _ => .u32
  | .f32 _ => .f32

/-- The value as an unsigned 32-bit pattern. -/
def Value.bits : Value → Word
  | .u16 v => v.setWidth 32
  | .u24 v => v.setWidth 32
  | .u32 v => v
  | .f32 v => v

/-- Where a multi-byte write takes its bytes: a value operand, or the host-memory image at an address (R291). -/
inductive WriteSource where
  | value (v : Value)
  | memory (k : Kind) (a : Nat)
  deriving DecidableEq, Repr

/-- Where a multi-byte read puts its bytes: the value is handed to the host program, or the bytes go to host
memory by `MemWrite` (R291, R294). -/
inductive ReadDest where
  | value
  | memory (a : Nat)
  deriving DecidableEq, Repr

/-- The composite commands, pseudo-instructions of the host (R94, R290 to R301). -/
inductive Composite where
  /-- `i2c.write16/24/32/f32 v` (R293). -/
  | i2cWrite (src : WriteSource)
  /-- `i2c.read16/24/32/f32 ack|nack` (R294). -/
  | i2cRead (k : Kind) (ackLast : Bool) (dest : ReadDest)
  /-- `spi.write16/24/32/f32 v` (R295). -/
  | spiWrite (src : WriteSource)
  /-- `spi.read16/24/32/f32` (R296). -/
  | spiRead (k : Kind) (dest : ReadDest)
  /-- `uart.write16/24/32/f32 v` (R297). -/
  | uartWrite (src : WriteSource)
  /-- `uart.read16/24/32/f32` (R298). -/
  | uartRead (k : Kind) (dest : ReadDest)
  /-- `uart.puts a` (R299). -/
  | puts (a : Nat)
  /-- `uart.writeline a` (R300). -/
  | writeLine (a : Nat)
  /-- `uart.gets a, cap, n` (R301). -/
  | gets (a cap n : Nat)
  deriving DecidableEq, Repr

/-- What a composite command hands back when it ends (R293 to R301). -/
inductive Delivery where
  /-- Nothing. -/
  | nothing
  /-- The list of acknowledges of an I2C multi-byte write (R293). -/
  | acks
  /-- The value of a multi-byte read (R294, R296, R298). -/
  | value (k : Kind)
  deriving DecidableEq, Repr

/-- One access of the host program, or the assertion of the reset input. The last five are the host-side steps a
composite command expands into (R290). -/
inductive HostOp where
  /-- Write a register (R112, R113). -/
  | write (reg : Nat) (w : Word)
  /-- Read a register (R113). -/
  | read (reg : Nat)
  /-- `wait`: read `STATUS` until `BUSY = 0` (R93). -/
  | wait
  /-- The reset input is asserted (R360). -/
  | assertReset
  /-- Begin a composite command (R290). -/
  | composite (c : Composite)
  /-- Read one byte of host memory and send it with the unit's byte-write command (R291). -/
  | sendFrom (u : SerialUnit) (a : Nat)
  /-- The loop of `puts`: read the byte at `a`; stop at NUL, else send it and go on at `a + 1` (R299). -/
  | putsFrom (a : Nat)
  /-- Read `RESULT` and keep its `VALUE` for the composite's result (R293, R294). -/
  | collect
  /-- `MemWrite(a, 1, x[RESULT.VALUE][7:0])` (R291, R301). -/
  | store (a : Nat)
  /-- The end of a composite command: deliver its result (R290). -/
  | deliver (d : Delivery)
  deriving DecidableEq, Repr

/-- A pending host access. `after` says how many sequencer steps go before it while a command is running: a host
access may fall between any two steps (R65, R125). `within` says where it falls while a composite command is running:
`some k` puts it inside the composite, after `k` more of its accesses, for other accesses "may fall between its
commands" (R290); `none` leaves it until the composite has ended. -/
structure HostAccess where
  after : Nat
  within : Option Nat
  op : HostOp
  deriving DecidableEq, Repr

/-- What the host program has received, in order: a register read's value, or a composite command's result. -/
inductive HostValue where
  | reg (n : Nat) (w : Word)
  | acks (l : List Bool)
  | value (k : Kind) (v : Word)
  deriving DecidableEq, Repr

/-- Known answers of the bus environment: entry number k of a line's list answers the k-th read of that line in
`H`. Where a list has no entry, the oracle `Config.env` answers; four empty lists leave every answer open. -/
structure BusScript where
  scl : List Bool
  sda : List Bool
  miso : List Bool
  rx : List Bool
  deriving DecidableEq, Repr

end Sys2Proof.Machine
end

