-- ==== Sys2Proof/Config.lean ====
section
/-! DEFINITION. The implementation parameters of spec/00_scope.md R7, the condition R8 puts on them, and the one free
value of the model: the bus-environment oracle of R121. -/

namespace Sys2Proof

/-- `PIN_MAP`: the physical pin of each logical line (R7). A pin is a number: DESIGN CHOICE (notes/assumptions/20.md). -/
structure PinMap where
  scl : Nat
  sda : Nat
  sck : Nat
  mosi : Nat
  miso : Nat
  tx : Nat
  rx : Nat
  deriving DecidableEq, Repr

def PinMap.pins (m : PinMap) : List Nat := [m.scl, m.sda, m.sck, m.mosi, m.miso, m.tx, m.rx]

/-- No physical pin is assigned to two logical lines (R8). -/
def PinMap.injective (m : PinMap) : Bool := decide m.pins.Nodup

/-- The parameters of R7. They are configuration, fixed for a run; times are in seconds. `T_BIT` is derived
(`Config.tBit`). Which numbers hold them is the model's: `F_CLK`, a "positive real", and the durations are rationals,
`REG_BASE` and `HOST_ADDR_WIDTH` naturals. DESIGN CHOICE, unsafe for claims about durations (notes/assumptions/20.md). -/
structure Config where
  /-- `PIN_MAP`. -/
  pinMap : PinMap
  /-- `F_CLK`, in Hz: "positive real" in R7, a rational here. DESIGN CHOICE (notes/assumptions/20.md). -/
  fClk : Rat
  /-- `T_I2C`. -/
  tI2c : Rat
  /-- `BAUD`. -/
  baud : Nat
  /-- `SPI_WIDTH`. -/
  spiWidth : Nat
  /-- `SPI_INIT_MODE`. -/
  spiInitMode : Nat
  /-- `SPI_READ_FILL`. -/
  spiReadFill : Bool
  /-- `UART_START_DETECT`. -/
  uartStartDetect : Machine.StartDetect
  /-- `T_STEP`. -/
  tStep : Rat
  /-- `T_STEP_MAX`. -/
  tStepMax : Rat
  /-- `REG_BASE`: no rule of the block reads it (R67). -/
  regBase : Nat
  /-- `HOST_BYTE_ORDER`. -/
  hostByteOrder : Machine.ByteOrder
  /-- `HOST_ADDR_WIDTH`. -/
  hostAddrWidth : Nat
  deriving DecidableEq, Repr

/-- The parameters lie in the domains of R7's table. DEDUCED, safe (notes/assumptions/13.md). -/
def Config.inDomain (c : Config) : Bool :=
  decide (0 < c.fClk) && decide (0 ≤ c.tI2c) && decide (0 < c.baud) && decide (0 ≤ c.tStep) &&
    decide (c.tStep ≤ c.tStepMax)

/-- The configuration is valid: R8's three conditions, on parameters that lie in R7's domains. -/
def Config.valid (c : Config) : Bool :=
  decide (1 ≤ c.spiWidth) && decide (c.spiWidth ≤ 16) && decide (c.spiInitMode ≤ 3) && c.pinMap.injective &&
    c.inDomain

/-- `T_BIT = 1/BAUD` (R7). -/
def Config.tBit (c : Config) : Rat := 1 / (c.baud : Rat)

/-- The configuration that `State.reset` holds. The spec leaves these parameters OPEN (D44 to D53) but for
`UART_START_DETECT = LEVEL` and `HOST_BYTE_ORDER = LITTLE`. DESIGN CHOICE (notes/assumptions/3.md), unsafe: the
width is the one spec/opcode_table.json's mask for `SPI.WRITEN` is written for. -/
def Config.initial : Config where
  pinMap := { scl := 0, sda := 1, sck := 2, mosi := 3, miso := 4, tx := 5, rx := 6 }
  fClk := 1
  tI2c := 1
  baud := 1
  spiWidth := 16
  spiInitMode := 0
  spiReadFill := true
  uartStartDetect := .level
  tStep := 0
  tStepMax := 1
  regBase := 0
  hostByteOrder := .little
  hostAddrWidth := 32

/-- The bus-environment oracle `Env(l, H)` "under no other law" (R121): a free value, with no body. Safe. -/
opaque Config.env : Machine.Oracle

end Sys2Proof
end

