-- ==== Sys2Proof/WellFormed.lean ====
section
/-! DEFINITION. Which commands have an encoding: the operand-width condition of spec/30_encoding.md R86 and R87 that
the operand types do not already carry. -/

namespace Sys2Proof

/-- `DATA[15:W] = 0` for the width `W` (R87): no bit at or above `W` is set. -/
def fitsWidth (width : Nat) (v : Half) : Bool := decide (v >>> width = 0)

/-- A command is well-formed under the configured `SPI_WIDTH` (R86, R87). -/
def wellFormed (spiWidth : Nat) (i : Instr) : Bool :=
  match i with
  | .i2cInit => true
  | .i2cStart => true
  | .i2cStop => true
  | .i2cRestart => true
  | .i2cWrite _ => true
  | .i2cRead _ => true
  | .spiInit => true
  | .spiSetMode _ => true
  | .spiGetMode => true
  | .spiWriteB _ => true
  | .spiWriteN v => fitsWidth spiWidth v
  | .spiReadB => true
  | .spiReadN => true
  | .spiXmit _ => true
  | .uartInit => true
  | .uartWrite _ => true
  | .uartRead => true

end Sys2Proof
end

