-- ==== Sys2Proof/Decode.lean ====
section
/-! DEFINITION. Decoding and encoding of the 32-bit command word (spec/30_encoding.md R80 to R92). -/

namespace Sys2Proof

/-- The 17 rows of the `OP` table (R83), without operands. -/
inductive Opcode where
  | i2cInit | i2cStart | i2cStop | i2cRestart | i2cWrite | i2cRead
  | spiInit | spiSetMode | spiGetMode | spiWriteB | spiWriteN | spiReadB | spiReadN | spiXmit
  | uartInit | uartWrite | uartRead
  deriving DecidableEq, Repr

/-- Why a word is `ILLEGAL` (R90). All of them raise the one fault `ILLEGAL_COMMAND`. -/
inductive Illegal where
  /-- Bits [24:18] are not 0. -/
  | reservedBits
  /-- `UNIT = 0b11`, or an `OP` the unit does not have. -/
  | reservedCommand
  /-- `A` is 1 in a command other than `I2C.READ`. -/
  | strayA
  /-- `M` is not 0 in a command other than `SPI.SETMODE`. -/
  | strayM
  /-- A bit of `DATA` at or above the operand width is 1. -/
  | dataAboveWidth
  deriving DecidableEq, Repr

namespace Field

/-- `UNIT = w[31:30]` (R81). -/
def unit (w : Word) : BitVec 2 := w.extractLsb' 30 2
/-- `OP = w[29:26]` (R81). -/
def op (w : Word) : BitVec 4 := w.extractLsb' 26 4
/-- `A = w[25]` (R81). -/
def a (w : Word) : Bool := w.getLsbD 25
/-- The reserved bits `w[24:18]` (R81). -/
def reserved (w : Word) : BitVec 7 := w.extractLsb' 18 7
/-- `M = w[17:16]` (R81). -/
def m (w : Word) : BitVec 2 := w.extractLsb' 16 2
/-- `DATA = w[15:0]` (R81). -/
def data (w : Word) : Half := w.extractLsb' 0 16

end Field

/-- `TABLE(unit, op)` (R83, R88): reserved rows give none. -/
def opTable (unit : BitVec 2) (op : BitVec 4) : Option Opcode :=
  match unit.toNat, op.toNat with
  | 0, 0 => some .i2cInit
  | 0, 1 => some .i2cStart
  | 0, 2 => some .i2cStop
  | 0, 3 => some .i2cRestart
  | 0, 4 => some .i2cWrite
  | 0, 5 => some .i2cRead
  | 1, 0 => some .spiInit
  | 1, 1 => some .spiSetMode
  | 1, 2 => some .spiGetMode
  | 1, 3 => some .spiWriteB
  | 1, 4 => some .spiWriteN
  | 1, 5 => some .spiReadB
  | 1, 6 => some .spiReadN
  | 1, 7 => some .spiXmit
  | 2, 0 => some .uartInit
  | 2, 1 => some .uartWrite
  | 2, 2 => some .uartRead
  | _, _ => none

/-- The operand width `W` of a command (R86). -/
def Opcode.width (spiWidth : Nat) : Opcode → Nat
  | .i2cWrite => 8
  | .spiWriteB => 8
  | .spiXmit => 8
  | .uartWrite => 8
  | .spiWriteN => spiWidth
  | .i2cInit => 0
  | .i2cStart => 0
  | .i2cStop => 0
  | .i2cRestart => 0
  | .i2cRead => 0
  | .spiInit => 0
  | .spiSetMode => 0
  | .spiGetMode => 0
  | .spiReadB => 0
  | .spiReadN => 0
  | .uartInit => 0
  | .uartRead => 0

/-- The command with its operands (R84, R85, R86). -/
def Opcode.withOperands (c : Opcode) (a : Bool) (m : BitVec 2) (d : Half) : Instr :=
  match c with
  | .i2cInit => .i2cInit
  | .i2cStart => .i2cStart
  | .i2cStop => .i2cStop
  | .i2cRestart => .i2cRestart
  | .i2cWrite => .i2cWrite (d.setWidth 8)
  | .i2cRead => .i2cRead a
  | .spiInit => .spiInit
  | .spiSetMode => .spiSetMode m
  | .spiGetMode => .spiGetMode
  | .spiWriteB => .spiWriteB (d.setWidth 8)
  | .spiWriteN => .spiWriteN d
  | .spiReadB => .spiReadB
  | .spiReadN => .spiReadN
  | .spiXmit => .spiXmit (d.setWidth 8)
  | .uartInit => .uartInit
  | .uartWrite => .uartWrite (d.setWidth 8)
  | .uartRead => .uartRead

/-- `decode(w)` (R88): total, its tests in the order of the rule's pseudocode. -/
def decode (spiWidth : Nat) (w : Word) : Except Illegal Instr :=
  if Field.reserved w ≠ 0 then .error .reservedBits
  else
    match opTable (Field.unit w) (Field.op w) with
    | none => .error .reservedCommand
    | some c =>
      if Field.a w = true ∧ c ≠ .i2cRead then .error .strayA
      else if Field.m w ≠ 0 ∧ c ≠ .spiSetMode then .error .strayM
      else if fitsWidth (c.width spiWidth) (Field.data w) = false then .error .dataAboveWidth
      else .ok (c.withOperands (Field.a w) (Field.m w) (Field.data w))

/-- The command word with the given fields (R81). -/
def commandWord (unit : BitVec 2) (op : BitVec 4) (a : Bool) (m : BitVec 2) (data : Half) : Word :=
  unit ++ op ++ BitVec.ofBool a ++ 0#7 ++ m ++ data

/-- The word of a command (R83 to R86). -/
def encode (i : Instr) : Word :=
  match i with
  | .i2cInit => commandWord 0 0 false 0 0
  | .i2cStart => commandWord 0 1 false 0 0
  | .i2cStop => commandWord 0 2 false 0 0
  | .i2cRestart => commandWord 0 3 false 0 0
  | .i2cWrite b => commandWord 0 4 false 0 (b.setWidth 16)
  | .i2cRead ack => commandWord 0 5 ack 0 0
  | .spiInit => commandWord 1 0 false 0 0
  | .spiSetMode m => commandWord 1 1 false m 0
  | .spiGetMode => commandWord 1 2 false 0 0
  | .spiWriteB b => commandWord 1 3 false 0 (b.setWidth 16)
  | .spiWriteN v => commandWord 1 4 false 0 v
  | .spiReadB => commandWord 1 5 false 0 0
  | .spiReadN => commandWord 1 6 false 0 0
  | .spiXmit b => commandWord 1 7 false 0 (b.setWidth 16)
  | .uartInit => commandWord 2 0 false 0 0
  | .uartWrite b => commandWord 2 1 false 0 (b.setWidth 16)
  | .uartRead => commandWord 2 2 false 0 0

/-- The row of the `OP` table a command belongs to (R83). -/
def opcodeOf (i : Instr) : Opcode :=
  match i with
  | .i2cInit => .i2cInit
  | .i2cStart => .i2cStart
  | .i2cStop => .i2cStop
  | .i2cRestart => .i2cRestart
  | .i2cWrite _ => .i2cWrite
  | .i2cRead _ => .i2cRead
  | .spiInit => .spiInit
  | .spiSetMode _ => .spiSetMode
  | .spiGetMode => .spiGetMode
  | .spiWriteB _ => .spiWriteB
  | .spiWriteN _ => .spiWriteN
  | .spiReadB => .spiReadB
  | .spiReadN => .spiReadN
  | .spiXmit _ => .spiXmit
  | .uartInit => .uartInit
  | .uartWrite _ => .uartWrite
  | .uartRead => .uartRead

/-- One row of the opcode map (R89). -/
structure OpcodeRow where
  code : Opcode
  matchBits : Word
  mask : Word
  deriving DecidableEq, Repr

/-- The opcode map of R89 (spec/opcode_table.json). -/
def opcodeRows : List OpcodeRow :=
  [⟨.i2cInit, 0x00000000, 0xFFFFFFFF⟩, ⟨.i2cStart, 0x04000000, 0xFFFFFFFF⟩, ⟨.i2cStop, 0x08000000, 0xFFFFFFFF⟩,
    ⟨.i2cRestart, 0x0C000000, 0xFFFFFFFF⟩, ⟨.i2cWrite, 0x10000000, 0xFFFFFF00⟩, ⟨.i2cRead, 0x14000000, 0xFDFFFFFF⟩] ++
  [⟨.spiInit, 0x40000000, 0xFFFFFFFF⟩, ⟨.spiSetMode, 0x44000000, 0xFFFCFFFF⟩, ⟨.spiGetMode, 0x48000000, 0xFFFFFFFF⟩,
    ⟨.spiWriteB, 0x4C000000, 0xFFFFFF00⟩, ⟨.spiWriteN, 0x50000000, 0xFFFF0000⟩, ⟨.spiReadB, 0x54000000, 0xFFFFFFFF⟩,
    ⟨.spiReadN, 0x58000000, 0xFFFFFFFF⟩, ⟨.spiXmit, 0x5C000000, 0xFFFFFF00⟩] ++
  [⟨.uartInit, 0x80000000, 0xFFFFFFFF⟩, ⟨.uartWrite, 0x84000000, 0xFFFFFF00⟩, ⟨.uartRead, 0x88000000, 0xFFFFFFFF⟩]

/-- `(w & mask) == match` (R89). -/
def OpcodeRow.matchesWord (row : OpcodeRow) (w : Word) : Bool := decide (w &&& row.mask = row.matchBits)

/-- The 32-bit word whose bits the opcode table numbers 0 to 31: a command is one word, so there is no second word
and no byte order to settle (R64, R80, R92). -/
def tableWord (nbits w : Nat) : Word := BitVec.ofNat 32 (w % 2 ^ nbits)

/-- The command the decoder reads from the table's word, under the `SPI_WIDTH` of `State.reset`'s configuration;
none where it refuses, or where the word is longer than a command word. -/
def decodeTableWord (nbits w : Nat) : Option Instr :=
  if nbits ≤ 32 then (decode Config.initial.spiWidth (tableWord nbits w)).toOption else none

end Sys2Proof
end

