-- ==== Sys2Proof/Machine/State.lean ====
section
/-! DEFINITION. The state of the machine (spec/10_state.md), the reasons a step can stop, and the state after reset. -/

namespace Sys2Proof.Machine

/-- The pin state: one `Pin` per logical line (R35). -/
structure Pins where
  scl : Pin
  sda : Pin
  sck : Pin
  mosi : Pin
  miso : Pin
  tx : Pin
  rx : Pin
  deriving DecidableEq, Repr

/-- Host memory (R60, R63): bytes by address, addresses strictly rising. An unlisted address has no value
(notes/assumptions/7.md). -/
abbrev Memory := List Host.Cell

/-- The reasons a step stops with a fault of the model. The block's own faults (R321) are no stop: they are the
state of `STATUS`. -/
inductive Fault where
  /-- Raised by a composite command whose result is read, stored or delivered once a fault has been recorded in it: "the
  composite's result is unspecified: a model faults it" (R290). Safe. -/
  | compositeAfterFault
  /-- Raised by a read of a host-memory byte that nothing has written: the spec gives host memory no contents. Safe. -/
  | hostMemoryUnwritten (a : Nat)
  /-- Raised by a composite command whose address operand has more than `HOST_ADDR_WIDTH` bits: no such address exists
  (R60). Safe. -/
  | hostAddressOutOfSpace (a : Nat)
  deriving DecidableEq, Repr

/-- The reasons a step is refused. -/
inductive Refusal where
  /-- Raised by an arm of `exec` whose instruction has no meaning yet: no arm is such. Safe. -/
  | notModelled (mnemonic : String)
  /-- Raised by `step` when the configuration is not valid: "no run exists from it" (R8). Safe. -/
  | invalidConfiguration
  /-- Raised by `step` when the host's program holds a `uart.gets` with `n > cap`: "the model refuses the program"
  (R301), before it runs (spec/93_implementation_defined.md I19). Safe. -/
  | getsOverCapacity
  deriving DecidableEq, Repr

/-- The state of SWPROTO (R20), and beside it what a run needs of the agents around the block (R6): the host
program, its memory and what it has received, and the known answers of the bus. -/
structure State where
  /-- The implementation parameters (R7): fixed for a run; no step changes them. -/
  cfg : Config
  /-- `RESULT.VALUE` (R23). -/
  value : Half
  /-- `STATUS.BUSY` (R25). -/
  busy : Bool
  /-- `STATUS.ACK` (R26). -/
  ack : Bool
  /-- `STATUS.FAULT` (R27). -/
  fault : Bool
  /-- `STATUS.FCODE` (R27, R321). -/
  fcode : FaultCode
  /-- `STATUS.I2C_INIT` (R28). -/
  i2cInit : Bool
  /-- `STATUS.SPI_INIT` (R28). -/
  spiInit : Bool
  /-- `STATUS.UART_INIT` (R28). -/
  uartInit : Bool
  /-- The fields of `SPICFG` (R29). -/
  spi : SpiCfg
  /-- `pc` (R31): the running microprogram's text from its next micro-operation to its `μDONE`; the empty list is
  `NONE` (notes/assumptions/4.md). -/
  pc : List MicroStep
  /-- `s.cmd` (R32). -/
  cmd : Option Word
  /-- `s.i` (R32). -/
  i : Nat
  /-- `s.r` (R32). -/
  r : Half
  /-- `s.a` (R32). -/
  a : Bool
  /-- `s.v` (R32). -/
  v : Bool
  /-- `dir` and `latch` of the seven lines (R35). -/
  pins : Pins
  /-- The pin-event history `H`, oldest event first (R12, R38). -/
  hist : List Event
  /-- The model's own: the known answers of the bus environment (notes/assumptions/5.md). -/
  bus : BusScript
  /-- The model's own: the host program still to run, next access first (R6). -/
  host : List HostAccess
  /-- The model's own: the accesses that the running composite command has still to do, next first (R290). -/
  composing : List HostOp
  /-- The model's own: the reset input has cleared a fault recorded since the running composite command began, or still
  recorded when it began (R290). -/
  spoiled : Bool
  /-- Host memory (R60, R63). -/
  mem : Memory
  /-- The model's own: the `RESULT.VALUE`s the running composite command has collected (R290). -/
  collected : List Half
  /-- The model's own: what the host program has received, oldest first. -/
  received : List HostValue
  deriving DecidableEq, Repr

/-- The block right after reset (R40), for a configuration. `s.i`, `s.r`, `s.a` and `s.v` are unspecified there:
DESIGN CHOICE 0 (notes/assumptions/2.md). The host program is empty: a program comes from outside
(notes/assumptions/6.md). -/
def State.resetOf (c : Config) : State where
  cfg := c
  value := 0
  busy := false
  ack := false
  fault := false
  fcode := .none
  i2cInit := false
  spiInit := false
  uartInit := false
  spi := SpiCfg.reset
  pc := []
  cmd := none
  i := 0
  r := 0
  a := false
  v := false
  pins := { scl := Pin.reset, sda := Pin.reset, sck := Pin.reset, mosi := Pin.reset, miso := Pin.reset,
            tx := Pin.reset, rx := Pin.reset }
  hist := []
  bus := { scl := [], sda := [], miso := [], rx := [] }
  host := []
  composing := []
  spoiled := false
  mem := []
  collected := []
  received := []

/-- The machine right after reset (R40, R361). -/
def State.reset : State := State.resetOf Config.initial

end Sys2Proof.Machine
end

