-- ==== Sys2Proof/Machine/Operands.lean ====
section
/-! DEFINITION. Operand forms: the bits of the shift register, the SPI mode table, and the bytes of multi-byte
values (spec/42_spi.md R200, spec/44_composite.md R291, R292). -/

namespace Sys2Proof.Machine

/-- The unit of a command (R82). -/
def unitOf (i : Instr) : SerialUnit :=
  match i with
  | .i2cInit => .i2c
  | .i2cStart => .i2c
  | .i2cStop => .i2c
  | .i2cRestart => .i2c
  | .i2cWrite _ => .i2c
  | .i2cRead _ => .i2c
  | .spiInit => .spi
  | .spiSetMode _ => .spi
  | .spiGetMode => .spi
  | .spiWriteB _ => .spi
  | .spiWriteN _ => .spi
  | .spiReadB => .spi
  | .spiReadN => .spi
  | .spiXmit _ => .spi
  | .uartInit => .uart
  | .uartWrite _ => .uart
  | .uartRead => .uart

/-- The command is its unit's `INIT` (R28, R112). -/
def isInit (i : Instr) : Bool :=
  match i with
  | .i2cInit => true
  | .i2cStart => false
  | .i2cStop => false
  | .i2cRestart => false
  | .i2cWrite _ => false
  | .i2cRead _ => false
  | .spiInit => true
  | .spiSetMode _ => false
  | .spiGetMode => false
  | .spiWriteB _ => false
  | .spiWriteN _ => false
  | .spiReadB => false
  | .spiReadN => false
  | .spiXmit _ => false
  | .uartInit => true
  | .uartWrite _ => false
  | .uartRead => false

/-- `v[i] <- b`. -/
def setBit (v : Half) (i : Nat) (b : Bool) : Half :=
  if b then v ||| (1#16 <<< i) else v &&& ~~~(1#16 <<< i)

/-- `zext_16(v[n-1:0])`. -/
def lowBits (n : Nat) (v : Half) : Half := v &&& BitVec.ofNat 16 (2 ^ n - 1)

/-- The n-bit value with every bit equal to `b`: `F8` and `F_N` (R209, R210). -/
def fill (n : Nat) (b : Bool) : Half := if b then BitVec.ofNat 16 (2 ^ n - 1) else 0

/-- `CPOL = m[1]` (R200). -/
def cpol (m : BitVec 2) : Bool := m.getLsbD 1
/-- `CPHA = m[0]` (R200). -/
def cpha (m : BitVec 2) : Bool := m.getLsbD 0
/-- `IDLE(m)` (R200). -/
def idleLevel (m : BitVec 2) : Bool := cpol m
/-- `S(m)`, the sampling edge as the level it ends at (R200, R201). -/
def sampleLevel (m : BitVec 2) : Bool := !(cpol m ^^ cpha m)
/-- `P(m)`, the propagation edge as the level it ends at (R200, R201). -/
def propLevel (m : BitVec 2) : Bool := cpol m ^^ cpha m

/-- What `μSETMODE(m)` writes to `SPICFG` (R120). -/
def modeCfg (m : BitVec 2) : SpiCfg where
  mode := m
  idle := idleLevel m
  sample := sampleLevel m
  prop := propLevel m
  valid := true

/-- `SPI_INIT_MODE` as a mode (R203). -/
def initMode (c : Config) : BitVec 2 := BitVec.ofNat 2 c.spiInitMode

/-- Byte j of a value: `v[8j+7:8j]` (R292). -/
def byteAt (v : Word) (j : Nat) : Byte := v.extractLsb' (8 * j) 8

/-- The k bytes of a value in the order they are sent: least-significant first under `LITTLE`, most-significant
first under `BIG` (R291, R292). -/
def valueBytes (order : ByteOrder) (k : Nat) (v : Word) : List Byte :=
  match order with
  | .little => (upTo k).map (byteAt v)
  | .big => (downFrom k).map (byteAt v)

/-- `byte_{k-1} ++ … ++ byte_0` (R294). -/
def joinLittle : List Byte → Word
  | [] => 0
  | b :: rest => (joinLittle rest <<< 8) ||| b.setWidth 32

/-- The value whose bytes were received in the given order (R291, R294). `BIG`: DEDUCED, unsafe
(notes/assumptions/18.md). -/
def joinBytes (order : ByteOrder) (bytes : List Byte) : Word :=
  match order with
  | .little => joinLittle bytes
  | .big => joinLittle bytes.reverse

end Sys2Proof.Machine
end

