-- ==== Sys2Proof/Machine/Flags.lean ====
section
/-! DEFINITION. The host-visible words of `RESULT`, `STATUS` and `SPICFG` (spec/10_state.md R23, R24, R29) and the flag
values that commands compute. -/

namespace Sys2Proof.Machine

/-- `RESULT` as the host reads it (R23). -/
def State.resultWord (s : State) : Word := s.value.setWidth 32

/-- `STATUS` as the host reads it (R24): bits [31:11] and bit [3] read 0. -/
def State.statusWord (s : State) : Word :=
  0#21 ++ BitVec.ofBool s.uartInit ++ BitVec.ofBool s.spiInit ++ BitVec.ofBool s.i2cInit ++ s.fcode.code ++ 0#1 ++
    BitVec.ofBool s.fault ++ BitVec.ofBool s.ack ++ BitVec.ofBool s.busy

/-- `SPICFG` as the host reads it (R29): while `VALID = 0`, fields [4:0] read 0. -/
def State.spicfgWord (s : State) : Word :=
  if s.spi.valid then
    0#26 ++ 1#1 ++ BitVec.ofBool s.spi.prop ++ BitVec.ofBool s.spi.sample ++ BitVec.ofBool s.spi.idle ++ s.spi.mode
  else 0

/-- `ackReceived = ~s.a` (R26, R161): the line low is an acknowledge. -/
def State.ackReceived (s : State) : Bool := !s.a

/-- The value a `μDONE` writes to `RESULT.VALUE` (R122). -/
def State.resultOf (s : State) : ResultSource → Half
  | .ackReceived => (BitVec.ofBool s.ackReceived).setWidth 16
  | .shiftLow n => lowBits n s.r
  | .spiMode => s.spi.mode.setWidth 16

/-- `STATUS.<unit>_INIT` (R28). -/
def State.initFlag (s : State) : SerialUnit → Bool
  | .i2c => s.i2cInit
  | .spi => s.spiInit
  | .uart => s.uartInit

/-- `STATUS.<unit>_INIT <- 1` (R28). -/
def State.setInitFlag (s : State) : SerialUnit → State
  | .i2c => { s with i2cInit := true }
  | .spi => { s with spiInit := true }
  | .uart => { s with uartInit := true }

end Sys2Proof.Machine
end

