-- ==== Sys2Proof/Machine/Ops.lean ====
section
/-! DEFINITION. The named operations: pins and history, raising a fault (the one exception mechanism of the block,
spec/60_exceptions.md R320 to R329), reset, issuing a command (spec/40_sequencer.md R112), and host memory. -/

namespace Sys2Proof.Machine

/-- The pin of a line (R35). -/
def Pins.get (p : Pins) : Line → Pin
  | .scl => p.scl
  | .sda => p.sda
  | .sck => p.sck
  | .mosi => p.mosi
  | .miso => p.miso
  | .tx => p.tx
  | .rx => p.rx

/-- The pin state with one line's pin replaced. -/
def Pins.set (p : Pins) (l : Line) (x : Pin) : Pins :=
  match l with
  | .scl => { p with scl := x }
  | .sda => { p with sda := x }
  | .sck => { p with sck := x }
  | .mosi => { p with mosi := x }
  | .miso => { p with miso := x }
  | .tx => { p with tx := x }
  | .rx => { p with rx := x }

/-- The level the block drives onto a line (R36). A driven line's latch is never `⊥` in a run
(`State.PinsLegal`); `⊥` is no level, so it drives none: DESIGN CHOICE, safe (notes/assumptions/17.md). -/
def Pin.drives (p : Pin) : Level :=
  match p.dir, p.latch with
  | .input, _ => .undriven
  | .output, some false => .low
  | .output, some true => .high
  | .output, none => .undriven

/-- `Emit(e)` (R12). -/
def State.emit (s : State) (e : Event) : State := { s with hist := s.hist ++ [e] }

/-- One line's pin is replaced. -/
def State.setPin (s : State) (l : Line) (x : Pin) : State := { s with pins := s.pins.set l x }

/-- The direction of a line (R35). -/
def State.dir (s : State) (l : Line) : Dir := (s.pins.get l).dir

/-- The output latch of a line (R35). -/
def State.latch (s : State) (l : Line) : Option Bool := (s.pins.get l).latch

/-- `raise Fault(code)` (R322): the first fault's code is kept; nothing else changes. There is no handler and no
return: only reset clears it (R320, R329). -/
def raiseFault (code : FaultCode) (s : State) : State :=
  if s.fault then s else { s with fault := true, fcode := code }

/-- The reset input (R360): the block takes its reset values in one step. The configuration, the bus environment
and the host's own state are not the block's: DESIGN CHOICE, unsafe (notes/assumptions/8.md). A running composite command
does not forget the fault that is cleared (R290). -/
def assertReset (s : State) : State :=
  { State.resetOf s.cfg with
    bus := s.bus, host := s.host, composing := s.composing,
    spoiled := s.spoiled || (s.fault && !s.composing.isEmpty), mem := s.mem, collected := s.collected,
    received := s.received }

/-- The accepting branch of `HostWriteCMD` (R112; DEDUCED, notes/assumptions/1.md): `s.cmd`, `STATUS.BUSY` and `pc` are set, and no pin event is
emitted. -/
def accept (i : Instr) (text : List MicroStep) (s : State) : State :=
  { s with cmd := some (encode i), busy := true, pc := text }

/-- Issue a decoded command whose microprogram is `text`: the tests of `HostWriteCMD` in their order (R112, R327). -/
def issue (i : Instr) (text : List MicroStep) (s : State) : Host.Outcome State Fault Refusal :=
  if s.fault then .next s
  else if s.busy then .next (raiseFault .cmdWhileBusy s)
  else if isInit i || s.initFlag (unitOf i) then .next (accept i text s)
  else .next (raiseFault .notInitialised s)

/-- Issue a word that decodes to `ILLEGAL` (R112, R323, R327). -/
def issueIllegal (s : State) : Host.Outcome State Fault Refusal :=
  if s.fault then .next s
  else if s.busy then .next (raiseFault .cmdWhileBusy s)
  else .next (raiseFault .illegalCommand s)

/-- The canonical form of host memory: addresses strictly rising. -/
def Memory.wf : Memory → Bool
  | [] => true
  | [_] => true
  | c :: d :: rest => decide (c.1 < d.1) && Memory.wf (d :: rest)

/-- The byte at an address; none where nothing has been written. -/
def Memory.read : Memory → Nat → Option Byte
  | [], _ => none
  | c :: rest, a => if c.1 = a then some c.2 else Memory.read rest a

/-- `MemWrite(a, 1, b)` on the list, keeping the addresses rising. -/
def Memory.write : Memory → Nat → Byte → Memory
  | [], a, b => [(a, b)]
  | c :: rest, a, b =>
    if a < c.1 then (a, b) :: c :: rest
    else if a = c.1 then (a, b) :: rest
    else c :: Memory.write rest a b

/-- The address exists: it has `HOST_ADDR_WIDTH` bits (R60). DEDUCED, safe (notes/assumptions/15.md). -/
def hostAddressExists (c : Config) (a : Nat) : Bool := decide (a < 2 ^ c.hostAddrWidth)

/-- The address `a + j`: an address has `HOST_ADDR_WIDTH` bits (R60), so it wraps. DESIGN CHOICE, unsafe
(notes/assumptions/15.md). An operand `a` that is no address stays none. -/
def hostAddress (c : Config) (a j : Nat) : Nat :=
  if hostAddressExists c a then (a + j) % 2 ^ c.hostAddrWidth else a

/-- `MemRead(a, 1)` (R10), handing the byte to `k`. -/
def memRead (a : Nat) (s : State) (k : Byte → Host.Outcome State Fault Refusal) : Host.Outcome State Fault Refusal :=
  if hostAddressExists s.cfg a then
    match s.mem.read a with
    | some b => k b
    | none => .fault (.hostMemoryUnwritten a)
  else .fault (.hostAddressOutOfSpace a)

/-- `MemWrite(a, 1, b)` (R10). -/
def memWrite (a : Nat) (b : Byte) (s : State) : Host.Outcome State Fault Refusal :=
  if hostAddressExists s.cfg a then .next { s with mem := s.mem.write a b }
  else .fault (.hostAddressOutOfSpace a)

end Sys2Proof.Machine
end

