-- ==== Sys2Proof/Machine/Sequencer.lean ====
section
/-! DEFINITION. The sequencer: how a line read is answered, the effect of each micro-operation, and one sequencer
step (spec/40_sequencer.md R110, R114 to R123). -/

namespace Sys2Proof.Machine

/-- The event is a read of the line. -/
def Event.isReadOf (l : Line) : Event → Bool
  | .sample l' _ => decide (l' = l)
  | .poll l' _ => decide (l' = l)
  | .dirIn _ => false
  | .low _ => false
  | .drive _ _ => false
  | .delay _ => false

/-- How many times a line has been read in a history. -/
def readsOf (l : Line) (h : List Event) : Nat := h.countP (Event.isReadOf l)

/-- The known answers for a line's reads. -/
def BusScript.answers (b : BusScript) : Line → List Bool
  | .scl => b.scl
  | .sda => b.sda
  | .miso => b.miso
  | .rx => b.rx
  | .sck => []
  | .mosi => []
  | .tx => []

/-- The oracle a run's bus environment is (R121): the known answers, and beyond them the free value `Config.env`. -/
def BusScript.oracle (b : BusScript) : Oracle := fun l h =>
  match (b.answers l)[readsOf l h]? with
  | some v => v
  | none => Config.env l h

/-- `ReadLine(l)` (R121): a line of the I2C unit that the block drives low reads 0; every other read is the
oracle's. -/
def readLine (env : Oracle) (l : Line) (s : State) : Bool :=
  match l with
  | .scl => if s.dir .scl = .output then false else env .scl s.hist
  | .sda => if s.dir .sda = .output then false else env .sda s.hist
  | .miso => env .miso s.hist
  | .rx => env .rx s.hist
  | .sck => env .sck s.hist
  | .mosi => env .mosi s.hist
  | .tx => env .tx s.hist

/-- A pure computation (R123). -/
def assign (s : State) : Assign → State
  | .setIndex n => { s with i := n }
  | .clearShift => { s with r := 0 }

/-- The pure computations that happen together with a micro-operation (R123). -/
def assignAll (as : List Assign) (s : State) : State := as.foldl assign s

/-- The sampled bit goes to its destination, in the sample's own step: DESIGN CHOICE, safe (notes/assumptions/11.md). -/
def storeSample (dest : SampleDest) (v : Bool) (s : State) : State :=
  match dest with
  | .ackBit => { s with a := v }
  | .shiftBit => { s with r := setBit s.r s.i v }

/-- One register update of a `μDONE` (R122). -/
def doneUpdate (s : State) : DoneUpdate → State
  | .result src => { s with value := s.resultOf src }
  | .ack => { s with ack := s.ackReceived }
  | .init u => s.setInitFlag u

/-- `μIN(l)` (R114): the direction becomes `IN`; the latch is unchanged. -/
def microInput (l : Line) (s : State) : State :=
  (s.setPin l { dir := .input, latch := s.latch l }).emit (.dirIn l)

/-- `μLOW(l)` (R115). -/
def microLow (l : OpenDrainLine) (s : State) : State :=
  (s.setPin l.line { dir := .output, latch := some false }).emit (.low l.line)

/-- `μOUT(l, v)` (R116). -/
def microOut (l : PushPullLine) (v : Bool) (s : State) : State :=
  (s.setPin l.line { dir := .output, latch := some v }).emit (.drive l.line v)

/-- `μSAMPLE(l)` (R117), its value going to the destination the microprogram names. -/
def microSample (env : Oracle) (l : SampledLine) (dest : SampleDest) (s : State) : State :=
  let v := readLine env l.line s
  (storeSample dest v { s with v := v }).emit (.sample l.line v)

/-- One poll of `μWAIT(l, v)` that reads `u` (R118), `pc` apart. -/
def microPoll (l : WaitedLine) (u : Bool) (s : State) : State :=
  { s with v := u }.emit (.poll l.line u)

/-- `μDELAY(c)` (R119). -/
def microDelay (c : DelayClass) (s : State) : State := s.emit (.delay c)

/-- `μSETMODE(m)` (R120). -/
def microSetMode (m : BitVec 2) (s : State) : State := { s with spi := modeCfg m }

/-- `μDONE(...)` (R122): the updates, then `BUSY`, `pc` and `s.cmd`. -/
def microDone (updates : List DoneUpdate) (s : State) : State :=
  { updates.foldl doneUpdate s with busy := false, pc := [], cmd := none }

/-- Perform a micro-operation whose successor in the text is `rest`, and move `pc` (R123): a `μWAIT` poll that did
not match leaves `pc` where it is. -/
def perform (env : Oracle) (op : MicroOp) (rest : List MicroStep) (s : State) : State :=
  match op with
  | .input l => { microInput l s with pc := rest }
  | .low l => { microLow l s with pc := rest }
  | .out l v => { microOut l v s with pc := rest }
  | .sample l dest => { microSample env l dest s with pc := rest }
  | .wait l v =>
    let u := readLine env l.line s
    if u = v then { microPoll l u s with pc := rest } else microPoll l u s
  | .delay c => { microDelay c s with pc := rest }
  | .setMode m => { microSetMode m s with pc := rest }
  | .done updates => microDone updates s

/-- One step of the sequencer (R110): the micro-operation at `pc`, with the pure computation before it. With
`pc = NONE` the sequencer has no step. -/
def seqStep (env : Oracle) (s : State) : State :=
  match s.pc with
  | [] => s
  | m :: rest => perform env m.op rest (assignAll m.pre s)

/-- `n` sequencer steps, with no host access between them. -/
def seqRun (env : Oracle) : Nat → State → State
  | 0, s => s
  | n + 1, s => seqRun env n (seqStep env s)

/-- A micro-operation with no computation before it. -/
def plain (op : MicroOp) : MicroStep := { pre := [], op := op }

/-- Computation attached to the micro-operation that follows it (R123). -/
def before (as : List Assign) : List MicroStep → List MicroStep
  | [] => []
  | m :: rest => { m with pre := as ++ m.pre } :: rest

/-- A bit loop over the given indexes (R127): `s.i` takes the index with the iteration's first micro-operation. -/
def forBits (indexes : List Nat) (body : Nat → List MicroStep) : List MicroStep :=
  indexes.flatMap fun i => before [.setIndex i] (body i)

end Sys2Proof.Machine
end

