-- ==== Sys2Proof/Machine/I2c.lean ====
section
/-! DEFINITION. The I2C unit: microprograms and meanings of its commands (spec/41_i2c.md R150 to R157). -/

namespace Sys2Proof.Machine

/-- `SETSDA(b)` (R150): release for 1, drive low for 0. -/
def setSda (b : Bool) : MicroStep := if b then plain (.input .sda) else plain (.low .sda)

/-- `PULSE` (R155): the acknowledge-slot clock pulse. -/
def pulseText : List MicroStep :=
  [plain (.input .scl), plain (.wait .scl true), plain (.delay .i2c), plain (.low .scl)]

/-- `I2C.INIT` (R151). -/
def i2cInitText : List MicroStep :=
  [plain (.input .scl), plain (.input .sda), plain (.done [.init .i2c])]

/-- `I2C.START` (R152). -/
def i2cStartText : List MicroStep :=
  [plain (.input .sda), plain (.delay .i2c), plain (.input .scl), plain (.delay .i2c),
    plain (.low .sda), plain (.delay .i2c), plain (.low .scl), plain (.delay .i2c), plain (.done [])]

/-- `I2C.STOP` (R153). -/
def i2cStopText : List MicroStep :=
  [plain (.low .sda), plain (.delay .i2c), plain (.input .scl), plain (.delay .i2c),
    plain (.input .sda), plain (.delay .i2c), plain (.done [])]

/-- `I2C.RESTART` (R154). -/
def i2cRestartText : List MicroStep :=
  [plain (.input .sda), plain (.delay .i2c), plain (.input .scl), plain (.delay .i2c),
    plain (.low .sda), plain (.delay .i2c), plain (.done [])]

/-- One data bit of `I2C.WRITE` (R156). -/
def i2cWriteBit (b : Byte) (i : Nat) : List MicroStep :=
  [plain (.low .scl), plain (.delay .i2c), setSda (b.getLsbD i), plain (.input .scl),
    plain (.wait .scl true), plain (.delay .i2c)]

/-- `I2C.WRITE b` (R156): the ACK is sampled before the acknowledge pulse (R161). -/
def i2cWriteText (b : Byte) : List MicroStep :=
  forBits (downFrom 8) (i2cWriteBit b) ++
    [plain (.low .scl), plain (.input .sda), plain (.sample .sda .ackBit)] ++ pulseText ++
    [plain (.done [.result .ackReceived, .ack])]

/-- One data bit of `I2C.READ` (R157). -/
def i2cReadBit (_i : Nat) : List MicroStep :=
  [plain (.low .scl), plain (.delay .i2c), plain (.input .scl), plain (.wait .scl true),
    plain (.delay .i2c), plain (.sample .sda .shiftBit)]

/-- `I2C.READ ack|nack` (R157): ACK drives SDA low in the acknowledge slot, NACK releases it. -/
def i2cReadText (ack : Bool) : List MicroStep :=
  before [.clearShift] (forBits (downFrom 8) i2cReadBit) ++
    [plain (.low .scl), setSda (!ack), plain (.delay .i2c)] ++ pulseText ++
    [plain (.input .sda), plain (.done [.result (.shiftLow 8)])]

/-- `I2C.INIT` (R151). -/
def execI2cInit (s : State) : Host.Outcome State Fault Refusal := issue .i2cInit i2cInitText s

/-- `I2C.START` (R152). -/
def execI2cStart (s : State) : Host.Outcome State Fault Refusal := issue .i2cStart i2cStartText s

/-- `I2C.STOP` (R153). -/
def execI2cStop (s : State) : Host.Outcome State Fault Refusal := issue .i2cStop i2cStopText s

/-- `I2C.RESTART` (R154). -/
def execI2cRestart (s : State) : Host.Outcome State Fault Refusal := issue .i2cRestart i2cRestartText s

/-- `I2C.WRITE b` (R156). -/
def execI2cWrite (b : Byte) (s : State) : Host.Outcome State Fault Refusal :=
  issue (.i2cWrite b) (i2cWriteText b) s

/-- `I2C.READ ack|nack` (R157). -/
def execI2cRead (ack : Bool) (s : State) : Host.Outcome State Fault Refusal :=
  issue (.i2cRead ack) (i2cReadText ack) s

end Sys2Proof.Machine
end

