-- ==== Sys2Proof/Machine/Spi.lean ====
section
/-! DEFINITION. The SPI unit: microprograms and meanings of its commands (spec/42_spi.md R200 to R211). -/

namespace Sys2Proof.Machine

/-- One bit of `SHIFT` (R206): MOSI, the sampling edge, the sample, and the propagation edge but after the last bit. -/
def shiftBitText (c : SpiCfg) (o : Half) (smp : Bool) (i : Nat) : List MicroStep :=
  [plain (.out .mosi (o.getLsbD i)), plain (.out .sck c.sample)] ++
    (if smp then [plain (.sample .miso .shiftBit)] else []) ++
    (if i ≠ 0 then [plain (.out .sck c.prop)] else [])

/-- `SHIFT(n, o, smp)` (R206), with `P`, `S` and `IDLE` as `SPICFG` holds them at acceptance (R202). -/
def shiftText (c : SpiCfg) (n : Nat) (o : Half) (smp : Bool) : List MicroStep :=
  before [.clearShift] [plain (.out .sck c.prop)] ++ forBits (downFrom n) (shiftBitText c o smp) ++
    [plain (.out .sck c.idle)]

/-- `SPI.INIT` (R203). -/
def spiInitText (m : BitVec 2) : List MicroStep :=
  [plain (.setMode m), plain (.out .mosi false), plain (.input .miso), plain (.out .sck (idleLevel m)),
    plain (.done [.init .spi])]

/-- `SPI.SETMODE m` (R204). -/
def spiSetModeText (m : BitVec 2) : List MicroStep :=
  [plain (.setMode m), plain (.out .sck (idleLevel m)), plain (.done [])]

/-- `SPI.GETMODE` (R205). -/
def spiGetModeText : List MicroStep := [plain (.done [.result .spiMode])]

/-- `SPI.WRITEB b` (R207). -/
def spiWriteBText (c : SpiCfg) (b : Byte) : List MicroStep :=
  shiftText c 8 (b.setWidth 16) false ++ [plain (.done [])]

/-- `SPI.WRITEN v` (R208). -/
def spiWriteNText (c : SpiCfg) (width : Nat) (v : Half) : List MicroStep :=
  shiftText c width v false ++ [plain (.done [])]

/-- `SPI.READB` (R209). -/
def spiReadBText (c : SpiCfg) (filler : Bool) : List MicroStep :=
  shiftText c 8 (fill 8 filler) true ++ [plain (.done [.result (.shiftLow 8)])]

/-- `SPI.READN` (R210). -/
def spiReadNText (c : SpiCfg) (width : Nat) (filler : Bool) : List MicroStep :=
  shiftText c width (fill width filler) true ++ [plain (.done [.result (.shiftLow width)])]

/-- `SPI.XMIT b` (R211). -/
def spiXmitText (c : SpiCfg) (b : Byte) : List MicroStep :=
  shiftText c 8 (b.setWidth 16) true ++ [plain (.done [.result (.shiftLow 8)])]

/-- `SPI.INIT` (R203): the mode is the parameter `SPI_INIT_MODE`. -/
def execSpiInit (s : State) : Host.Outcome State Fault Refusal :=
  issue .spiInit (spiInitText (initMode s.cfg)) s

/-- `SPI.SETMODE m` (R204). -/
def execSpiSetMode (m : BitVec 2) (s : State) : Host.Outcome State Fault Refusal :=
  issue (.spiSetMode m) (spiSetModeText m) s

/-- `SPI.GETMODE` (R205). -/
def execSpiGetMode (s : State) : Host.Outcome State Fault Refusal := issue .spiGetMode spiGetModeText s

/-- `SPI.WRITEB b` (R207). -/
def execSpiWriteB (b : Byte) (s : State) : Host.Outcome State Fault Refusal :=
  issue (.spiWriteB b) (spiWriteBText s.spi b) s

/-- `SPI.WRITEN v` (R208): "A word with bits set above `SPI_WIDTH` is `ILLEGAL_COMMAND`". DEDUCED, safe
(notes/assumptions/12.md). -/
def execSpiWriteN (v : Half) (s : State) : Host.Outcome State Fault Refusal :=
  if fitsWidth s.cfg.spiWidth v then issue (.spiWriteN v) (spiWriteNText s.spi s.cfg.spiWidth v) s
  else issueIllegal s

/-- `SPI.READB` (R209). -/
def execSpiReadB (s : State) : Host.Outcome State Fault Refusal :=
  issue .spiReadB (spiReadBText s.spi s.cfg.spiReadFill) s

/-- `SPI.READN` (R210). -/
def execSpiReadN (s : State) : Host.Outcome State Fault Refusal :=
  issue .spiReadN (spiReadNText s.spi s.cfg.spiWidth s.cfg.spiReadFill) s

/-- `SPI.XMIT b` (R211). -/
def execSpiXmit (b : Byte) (s : State) : Host.Outcome State Fault Refusal :=
  issue (.spiXmit b) (spiXmitText s.spi b) s

end Sys2Proof.Machine
end

