-- ==== Sys2Proof/Machine/Uart.lean ====
section
/-! DEFINITION. The UART unit: microprograms and meanings of its commands (spec/43_uart.md R250 to R254). -/

namespace Sys2Proof.Machine

/-- `UART.INIT` (R251). -/
def uartInitText : List MicroStep :=
  [plain (.out .tx true), plain (.input .rx), plain (.done [.init .uart])]

/-- One level of a frame, held for a bit period (R252). -/
def uartLevel (v : Bool) : List MicroStep := [plain (.out .tx v), plain (.delay .bit)]

/-- `UART.WRITE b` (R252): start bit, eight data bits least-significant first, stop bit. -/
def uartWriteText (b : Byte) : List MicroStep :=
  uartLevel false ++ forBits (upTo 8) (fun i => uartLevel (b.getLsbD i)) ++ uartLevel true ++ [plain (.done [])]

/-- `STARTDETECT` (R253). -/
def startDetectText (d : StartDetect) : List MicroStep :=
  match d with
  | .level => [plain (.wait .rx false)]
  | .edge => [plain (.wait .rx true), plain (.wait .rx false)]

/-- One data bit of `UART.READ` (R254): a bit period follows every sample but the last. -/
def uartReadBit (i : Nat) : List MicroStep :=
  [plain (.sample .rx .shiftBit)] ++ (if i ≠ 7 then [plain (.delay .bit)] else [])

/-- `UART.READ` (R254). -/
def uartReadText (d : StartDetect) : List MicroStep :=
  before [.clearShift] (startDetectText d) ++ [plain (.delay .bit15)] ++ forBits (upTo 8) uartReadBit ++
    [plain (.done [.result (.shiftLow 8)])]

/-- `UART.INIT` (R251). -/
def execUartInit (s : State) : Host.Outcome State Fault Refusal := issue .uartInit uartInitText s

/-- `UART.WRITE b` (R252). -/
def execUartWrite (b : Byte) (s : State) : Host.Outcome State Fault Refusal :=
  issue (.uartWrite b) (uartWriteText b) s

/-- `UART.READ` (R254). -/
def execUartRead (s : State) : Host.Outcome State Fault Refusal :=
  issue .uartRead (uartReadText s.cfg.uartStartDetect) s

end Sys2Proof.Machine
end

