-- ==== Sys2Proof/Machine/Dispatch.lean ====
section
/-! DEFINITION. The meaning of every command, one arm per constructor of `Instr`. -/

namespace Sys2Proof.Machine

/-- What a host write of a command's word to `CMD` does (spec/40_sequencer.md R112). -/
def exec (i : Instr) (s : State) : Host.Outcome State Fault Refusal :=
  match i with
  | .i2cInit => Sys2Proof.Machine.execI2cInit s
  | .i2cStart => Sys2Proof.Machine.execI2cStart s
  | .i2cStop => Sys2Proof.Machine.execI2cStop s
  | .i2cRestart => Sys2Proof.Machine.execI2cRestart s
  | .i2cWrite b => Sys2Proof.Machine.execI2cWrite b s
  | .i2cRead ack => Sys2Proof.Machine.execI2cRead ack s
  | .spiInit => Sys2Proof.Machine.execSpiInit s
  | .spiSetMode m => Sys2Proof.Machine.execSpiSetMode m s
  | .spiGetMode => Sys2Proof.Machine.execSpiGetMode s
  | .spiWriteB b => Sys2Proof.Machine.execSpiWriteB b s
  | .spiWriteN v => Sys2Proof.Machine.execSpiWriteN v s
  | .spiReadB => Sys2Proof.Machine.execSpiReadB s
  | .spiReadN => Sys2Proof.Machine.execSpiReadN s
  | .spiXmit b => Sys2Proof.Machine.execSpiXmit b s
  | .uartInit => Sys2Proof.Machine.execUartInit s
  | .uartWrite b => Sys2Proof.Machine.execUartWrite b s
  | .uartRead => Sys2Proof.Machine.execUartRead s

end Sys2Proof.Machine
end

