-- ==== Sys2Proof/Machine/HostSide.lean ====
section
/-! DEFINITION. The host agent: register accesses (spec/40_sequencer.md R112, R113) and the composite commands'
expansions (spec/44_composite.md R290 to R301). -/

namespace Sys2Proof.Machine

/-- `HostWriteCMD(w)` (R112): a word that decodes is issued as its command. -/
def hostWriteCmd (w : Word) (s : State) : Host.Outcome State Fault Refusal :=
  match decode s.cfg.spiWidth w with
  | .ok i => exec i s
  | .error _ => issueIllegal s

/-- A host write of a register (R21, R113): register 0 is `CMD`; any other write faults. -/
def hostWrite (reg : Nat) (w : Word) (s : State) : Host.Outcome State Fault Refusal :=
  if reg = 0 then hostWriteCmd w s else .next (raiseFault .badRegister s)

/-- A host read of a register (R21, R113): the value returned, and the state after. A faulting read returns 0. -/
def hostRead (reg : Nat) (s : State) : Word × State :=
  match reg with
  | 1 => (s.resultWord, s)
  | 2 => (s.statusWord, s)
  | 3 => (s.spicfgWord, s)
  | _ => (0, raiseFault .badRegister s)

/-- The host program receives a value. -/
def State.receive (s : State) (x : HostValue) : State := { s with received := s.received ++ [x] }

/-- Put accesses before the rest of the running composite command's. -/
def State.compose (s : State) (ops : List HostOp) : State := { s with composing := ops ++ s.composing }

/-- The command that sends one byte on a unit's bus (R293, R295, R297). -/
def sendByte (u : SerialUnit) (b : Byte) : Instr :=
  match u with
  | .i2c => .i2cWrite b
  | .spi => .spiWriteB b
  | .uart => .uartWrite b

/-- One command of a composite (R290): issued only after `BUSY` reads 0, and followed by `wait`. -/
def commandOps (i : Instr) : List HostOp := [.wait, .write 0 (encode i), .wait]

/-- What follows each byte of a multi-byte write: the I2C unit's acknowledge is kept (R293). -/
def afterSend (u : SerialUnit) : List HostOp :=
  match u with
  | .i2c => [.collect]
  | .spi => []
  | .uart => []

/-- A multi-byte write (R293, R295, R297), its bytes in the order of R291. -/
def writeOps (c : Config) (u : SerialUnit) (src : WriteSource) : List HostOp :=
  (match src with
    | .value v => (valueBytes c.hostByteOrder v.kind.size v.bits).flatMap fun b => commandOps (sendByte u b) ++ afterSend u
    | .memory k a => (upTo k.size).flatMap fun j => [.wait, .sendFrom u (hostAddress c a j)] ++ afterSend u) ++
    [.deliver (match u with | .i2c => .acks | .spi => .nothing | .uart => .nothing)]

/-- What follows each byte of a multi-byte read (R291, R294). -/
def afterReceive (c : Config) (dest : ReadDest) (j : Nat) : HostOp :=
  match dest with
  | .value => .collect
  | .memory a => .store (hostAddress c a j)

/-- What a multi-byte read delivers at its end (R294). -/
def readDelivery (k : Kind) (dest : ReadDest) : Delivery :=
  match dest with
  | .value => .value k
  | .memory _ => .nothing

/-- A multi-byte read (R294, R296, R298): `command j` reads byte j. -/
def readOps (c : Config) (k : Kind) (dest : ReadDest) (command : Nat → Instr) : List HostOp :=
  ((upTo k.size).flatMap fun j => commandOps (command j) ++ [afterReceive c dest j]) ++
    [.deliver (readDelivery k dest)]

/-- The expansion of a composite command (R293 to R301). -/
def expand (c : Config) : Composite → List HostOp
  | .i2cWrite src => writeOps c .i2c src
  | .i2cRead k ackLast dest => readOps c k dest fun j => .i2cRead (if j < k.size - 1 then true else ackLast)
  | .spiWrite src => writeOps c .spi src
  | .spiRead k dest => readOps c k dest fun _ => .spiReadB
  | .uartWrite src => writeOps c .uart src
  | .uartRead k dest => readOps c k dest fun _ => .uartRead
  | .puts a => [.putsFrom a, .deliver .nothing]
  | .writeLine a => [.putsFrom a] ++ commandOps (.uartWrite 0x0D) ++ commandOps (.uartWrite 0x0A) ++ [.deliver .nothing]
  | .gets a _ n =>
    ((upTo n).flatMap fun j => commandOps .uartRead ++ [.store (hostAddress c a j)]) ++ [.deliver .nothing]

/-- The host program may run this composite: `gets` requires `n <= cap` (R301). -/
def Composite.permitted : Composite → Bool
  | .gets _ cap n => decide (n ≤ cap)
  | .i2cWrite _ => true
  | .i2cRead _ _ _ => true
  | .spiWrite _ => true
  | .spiRead _ _ => true
  | .uartWrite _ => true
  | .uartRead _ _ => true
  | .puts _ => true
  | .writeLine _ => true

/-- The host program may hold this access. -/
def HostOp.permitted : HostOp → Bool
  | .composite c => c.permitted
  | .write _ _ => true
  | .read _ => true
  | .wait => true
  | .assertReset => true
  | .sendFrom _ _ => true
  | .putsFrom _ => true
  | .collect => true
  | .store _ => true
  | .deliver _ => true

/-- The host's program, all that is left of it, may run (R301). -/
def State.programPermitted (s : State) : Bool :=
  s.host.all (fun h => h.op.permitted) && s.composing.all HostOp.permitted

/-- A composite command begins (R290): it stands for its expansion. -/
def beginComposite (c : Composite) (s : State) : State := { s with collected := [], spoiled := false }.compose (expand s.cfg c)

/-- The acknowledges of an I2C multi-byte write: `ack_j = x[RESULT.VALUE][0]` (R293). -/
def collectedAcks (s : State) : List Bool := s.collected.map fun x => x.getLsbD 0

/-- The bytes of a multi-byte read: `byte_j = x[RESULT.VALUE][7:0]` (R294). -/
def collectedBytes (s : State) : List Byte := s.collected.map fun x => x.setWidth 8

/-- The host receives a composite command's result (R293 to R301). -/
def receiveResult (d : Delivery) (s : State) : State :=
  match d with
  | .nothing => s
  | .acks => s.receive (.acks (collectedAcks s))
  | .value k => s.receive (.value k (joinBytes s.cfg.hostByteOrder (collectedBytes s)))

/-- A composite command ends: it hands back its result, and keeps nothing for a later one. -/
def deliverResult (d : Delivery) (s : State) : State := { receiveResult d s with collected := [] }

/-- A fault is recorded, or one was in the running composite command and the reset input cleared it: `FAULT` has not
stayed 0 in the composite's run (R290). -/
def State.compositeFaulted (s : State) : Bool := s.fault || s.spoiled

/-- A step of a composite that uses its result: faulted once a fault has been recorded in it (R290). DEDUCED, safe
(notes/assumptions/14.md). -/
def unlessFaulted (s : State) (k : State → Host.Outcome State Fault Refusal) : Host.Outcome State Fault Refusal :=
  if s.compositeFaulted then .fault .compositeAfterFault else k s

/-- `MemRead(a, 1)`, then the unit's byte-write command and `wait` (R291). -/
def sendFromMemory (u : SerialUnit) (a : Nat) (s : State) : Host.Outcome State Fault Refusal :=
  memRead a s fun b => .next (s.compose (commandOps (sendByte u b)))

/-- One turn of the loop of `puts` (R299): a NUL ends it and is not sent; with no NUL there is always a next turn. -/
def putsTurn (a : Nat) (s : State) : Host.Outcome State Fault Refusal :=
  memRead a s fun b =>
    if b = 0 then .next s
    else .next (s.compose (commandOps (.uartWrite b) ++ [.putsFrom (hostAddress s.cfg a 1)]))

/-- One access of the host, `s` being the state without it. A `wait` that is taken has read `BUSY = 0` (R93). -/
def hostStep (op : HostOp) (s : State) : Host.Outcome State Fault Refusal :=
  match op with
  | .write reg w => hostWrite reg w s
  | .read reg => .next ((hostRead reg s).2.receive (.reg reg (hostRead reg s).1))
  | .wait => .next s
  | .assertReset => .next (Sys2Proof.Machine.assertReset s)
  | .composite c => .next (beginComposite c s)
  | .sendFrom u a => sendFromMemory u a s
  | .putsFrom a => putsTurn a s
  | .collect => unlessFaulted s fun t => .next { t with collected := t.collected ++ [t.value] }
  | .store a => unlessFaulted s fun t => memWrite a (t.value.setWidth 8) t
  | .deliver d => unlessFaulted s fun t => .next (deliverResult d t)

/-- The host's next access waits for the block: it is a `wait` and `BUSY` is 1 (R93). -/
def HostOp.waitsOn (op : HostOp) (s : State) : Bool :=
  match op with
  | .wait => s.busy
  | .write _ _ => false
  | .read _ => false
  | .assertReset => false
  | .composite _ => false
  | .sendFrom _ _ => false
  | .putsFrom _ => false
  | .collect => false
  | .store _ => false
  | .deliver _ => false

/-- The access begins a composite command: it is no single register access. -/
def HostOp.isComposite : HostOp → Bool
  | .composite _ => true
  | .write _ _ => false
  | .read _ => false
  | .wait => false
  | .assertReset => false
  | .sendFrom _ _ => false
  | .putsFrom _ => false
  | .collect => false
  | .store _ => false
  | .deliver _ => false

/-- The host's turn: its next access, the state once that access is taken, and the state once one more sequencer step
has gone before it. -/
structure Turn where
  after : Nat
  op : HostOp
  taken : State
  delayed : State
  deriving DecidableEq, Repr

/-- The turn of the next access of the host's list. -/
def listTurn (h : HostAccess) (rest : List HostAccess) (s : State) : Turn where
  after := h.after
  op := h.op
  taken := { s with host := rest }
  delayed := { s with host := { h with after := h.after - 1 } :: rest }

/-- One access of the running composite has gone before the next access of the host's list. -/
def passOne : List HostAccess → List HostAccess
  | [] => []
  | h :: rest => { h with within := h.within.map fun k => k - 1 } :: rest

/-- The turn of the running composite's next access. -/
def compositeTurn (op : HostOp) (ops : List HostOp) (s : State) : Turn where
  after := 0
  op := op
  taken := { s with composing := ops, host := passOne s.host }
  delayed := s

/-- The access of the host's list falls here inside the running composite (R290). -/
def HostAccess.fallsHere (h : HostAccess) : Bool := decide (h.within = some 0) && !h.op.isComposite

/-- The host's next turn: the running composite's accesses, and those of the host's list that fall between them; with
no composite running, the host's list (R290). -/
def nextTurn (s : State) : Option Turn :=
  match s.composing, s.host with
  | [], [] => none
  | [], h :: rest => some (listTurn h rest s)
  | op :: ops, [] => some (compositeTurn op ops s)
  | op :: ops, h :: rest => some (if h.fallsHere then listTurn h rest s else compositeTurn op ops s)

/-- Which agent moves next: the sequencer while the host's next access waits for it, or is not yet due and a command
runs; else the host (R6, R65). DESIGN CHOICE, safe (notes/assumptions/10.md). -/
def sequencerMoves (x : Turn) (s : State) : Bool := x.op.waitsOn s || (!s.pc.isEmpty && decide (0 < x.after))

/-- A step of a machine that may run, under a bus environment. With no command running and no host access pending the
block stays as it is (R110, R129, R361): DESIGN CHOICE, safe (notes/assumptions/9.md). -/
def stepAgents (env : Oracle) (s : State) : Host.Outcome State Fault Refusal :=
  match nextTurn s with
  | none => .next (seqStep env s)
  | some x => if sequencerMoves x s then .next (seqStep env x.delayed) else hostStep x.op x.taken

end Sys2Proof.Machine
end

