-- ==== Sys2Proof/Machine/Step.lean ====
section
/-! DEFINITION. One step of the machine, and where it takes its next command from. -/

namespace Sys2Proof.Machine

/-- One step under a given bus environment. "A model refuses an invalid configuration: no run exists from it" (R8); and
it refuses a program with a `uart.gets` of `n > cap` before it runs (R301, spec/93_implementation_defined.md I19). -/
def stepWith (env : Oracle) (s : State) : Host.Outcome State Fault Refusal :=
  if s.cfg.valid then
    if s.programPermitted then stepAgents env s else .refused .getsOverCapacity
  else .refused .invalidConfiguration

/-- One step: the bus environment is the state's known answers and, beyond them, the free value `Config.env`. -/
def step (s : State) : Host.Outcome State Fault Refusal := stepWith s.bus.oracle s

/-- The word is the host's next access, inside a running composite or not: a write to `CMD` (R22). A program comes from
the host, so this stands for the load (notes/assumptions/6.md). -/
def State.withFetchWord (s : State) (nbits w : Nat) : State :=
  { s with host := { after := 0, within := some 0, op := .write 0 (tableWord nbits w) } :: s.host }

end Sys2Proof.Machine
end

