-- ==== Sys2Proof/Machine/Assembler.lean ====
section
/-! DEFINITION. The assembler syntax (spec/30_encoding.md R93, R94): one line to the host access it stands for. What the
rules leave open of the syntax: DESIGN CHOICE, unsafe (notes/assumptions/16.md). -/

namespace Sys2Proof.Machine

/-- The tokens of a line: words separated by spaces and commas, up to a `;` that starts a comment (R93). `word` holds
the characters of the word being read, last first. -/
def tokensFrom (word : List Char) : List Char → List (List Char)
  | [] => if word = [] then [] else [word.reverse]
  | c :: rest =>
    if c = ';' then (if word = [] then [] else [word.reverse])
    else if c = ' ' ∨ c = ',' then (if word = [] then tokensFrom [] rest else word.reverse :: tokensFrom [] rest)
    else tokensFrom (c :: word) rest

/-- The tokens of a line (R93). -/
def tokens (line : String) : List (List Char) := tokensFrom [] line.toList

/-- A digit in a base of at most 16. -/
def digit (base : Nat) (c : Char) : Option Nat :=
  let n := c.toNat
  let d := if 48 ≤ n ∧ n ≤ 57 then n - 48 else if 97 ≤ n ∧ n ≤ 102 then n - 87 else if 65 ≤ n ∧ n ≤ 70 then n - 55 else 16
  if d < base then some d else none

/-- The number the digits write, from the value read so far. -/
def digits (base acc : Nat) : List Char → Option Nat
  | [] => some acc
  | c :: rest =>
    match digit base c with
    | some d => digits base (acc * base + d) rest
    | none => none

/-- An integer, in decimal or `0x` hex (R93). -/
def number : List Char → Option Nat
  | [] => none
  | ['0', 'x'] => none
  | '0' :: 'x' :: rest => digits 16 0 rest
  | c :: rest => digits 10 0 (c :: rest)

/-- An operand in range: "rejects any operand out of range" (R93). -/
def numberBelow (bound : Nat) (t : List Char) : Option Nat :=
  match number t with
  | some n => if n < bound then some n else none
  | none => none

/-- A host write of a command's word. -/
def issueOp (i : Instr) : HostOp := .write 0 (encode i)

/-- `ack` or `nack` (R93). -/
def ackToken (t : List Char) : Option Bool :=
  if t = "ack".toList then some true else if t = "nack".toList then some false else none

/-- The lines that are one word (R93, R94). -/
def bareLines : List (String × HostOp) :=
  [("i2c.init", issueOp .i2cInit), ("i2c.start", issueOp .i2cStart), ("i2c.stop", issueOp .i2cStop),
    ("i2c.restart", issueOp .i2cRestart), ("spi.init", issueOp .spiInit), ("spi.getmode", issueOp .spiGetMode)] ++
  [("spi.readb", issueOp .spiReadB), ("spi.readn", issueOp .spiReadN), ("uart.init", issueOp .uartInit),
    ("uart.read", issueOp .uartRead), ("wait", .wait)] ++
  [("spi.read16", .composite (.spiRead .u16 .value)), ("spi.read24", .composite (.spiRead .u24 .value)),
    ("spi.read32", .composite (.spiRead .u32 .value)), ("spi.readf32", .composite (.spiRead .f32 .value))] ++
  [("uart.read16", .composite (.uartRead .u16 .value)), ("uart.read24", .composite (.uartRead .u24 .value)),
    ("uart.read32", .composite (.uartRead .u32 .value)), ("uart.readf32", .composite (.uartRead .f32 .value))]

/-- The suffixes of the multi-byte composite commands (R94). -/
def valueOf (suffix : List Char) (t : List Char) : Option Value :=
  if suffix = "16".toList then (numberBelow (2 ^ 16) t).map fun n => .u16 (BitVec.ofNat 16 n)
  else if suffix = "24".toList then (numberBelow (2 ^ 24) t).map fun n => .u24 (BitVec.ofNat 24 n)
  else if suffix = "32".toList then (numberBelow (2 ^ 32) t).map fun n => .u32 (BitVec.ofNat 32 n)
  else if suffix = "f32".toList then (numberBelow (2 ^ 32) t).map fun n => .f32 (BitVec.ofNat 32 n)
  else none

/-- The value kind a suffix names (R94). -/
def kindOf (suffix : List Char) : Option Kind :=
  if suffix = "16".toList then some .u16
  else if suffix = "24".toList then some .u24
  else if suffix = "32".toList then some .u32
  else if suffix = "f32".toList then some .f32
  else none

/-- The rest of a token after a prefix. -/
def afterPrefix : List Char → List Char → Option (List Char)
  | [], t => some t
  | _ :: _, [] => none
  | p :: ps, c :: cs => if p = c then afterPrefix ps cs else none

/-- The registers the syntax names (R93). -/
def registerNumber (t : List Char) : Option Nat :=
  if t = "RESULT".toList then some 1
  else if t = "STATUS".toList then some 2
  else if t = "SPICFG".toList then some 3
  else none

/-- A byte command with its operand (R93). -/
def byteLine (t : List Char) (command : Byte → Instr) : Option HostOp :=
  (numberBelow 256 t).map fun n => issueOp (command (BitVec.ofNat 8 n))

/-- A multi-byte composite command with its operand (R94). -/
def compositeLine (m t : List Char) : Option HostOp :=
  match afterPrefix "i2c.write".toList m, afterPrefix "i2c.read".toList m, afterPrefix "spi.write".toList m,
    afterPrefix "uart.write".toList m with
  | some suffix, _, _, _ => (valueOf suffix t).map fun v => .composite (.i2cWrite (.value v))
  | none, some suffix, _, _ =>
    (kindOf suffix).bind fun k => (ackToken t).map fun ack => .composite (.i2cRead k ack .value)
  | none, none, some suffix, _ => (valueOf suffix t).map fun v => .composite (.spiWrite (.value v))
  | none, none, none, some suffix => (valueOf suffix t).map fun v => .composite (.uartWrite (.value v))
  | none, none, none, none => none

/-- A line of a word and one operand (R93, R94). -/
def operandLine (spiWidth : Nat) (m t : List Char) : Option HostOp :=
  if m = "i2c.write".toList then byteLine t .i2cWrite
  else if m = "i2c.read".toList then (ackToken t).map fun ack => issueOp (.i2cRead ack)
  else if m = "spi.setmode".toList then (numberBelow 4 t).map fun n => issueOp (.spiSetMode (BitVec.ofNat 2 n))
  else if m = "spi.writeb".toList then byteLine t .spiWriteB
  else if m = "spi.writen".toList then
    (numberBelow (2 ^ spiWidth) t).map fun n => issueOp (.spiWriteN (BitVec.ofNat 16 n))
  else if m = "spi.xmit".toList then byteLine t .spiXmit
  else if m = "uart.write".toList then byteLine t .uartWrite
  else if m = "rd".toList then (registerNumber t).map .read
  else if m = "uart.puts".toList then (number t).map fun a => .composite (.puts a)
  else if m = "uart.writeline".toList then (number t).map fun a => .composite (.writeLine a)
  else compositeLine m t

/-- The line of `uart.gets` (R94): a count above the capacity is rejected (R301). -/
def getsLine (m a cap n : List Char) : Option HostOp :=
  if m = "uart.gets".toList then
    match number a, number cap, number n with
    | some a, some cap, some n => if n ≤ cap then some (.composite (.gets a cap n)) else none
    | _, _, _ => none
  else none

/-- One line of assembler text: none for a line the assembler rejects, no access for a blank line (R93, R94). -/
def assemble (spiWidth : Nat) (line : String) : Option (List HostOp) :=
  match tokens line with
  | [] => some []
  | [m] => (bareLines.find? fun x => x.1.toList = m).map fun x => [x.2]
  | [m, t] => (operandLine spiWidth m t).map fun op => [op]
  | [m, a, cap, n] => (getsLine m a cap n).map fun op => [op]
  | _ => none

end Sys2Proof.Machine
end

