-- ==== Sys2Proof/Machine/Microprogram.lean ====
section
/-! DEFINITION. The microprogram of every command in one table, for claims that speak of all commands
(spec/40_sequencer.md R112: "the microprogram of d.cmd, with operands d.A, d.M, d.DATA"), and what a command may write. -/

namespace Sys2Proof.Machine

/-- The microprogram a command is accepted with, under a configuration and the `SPICFG` at acceptance (R202). -/
def microprogram (c : Config) (spi : SpiCfg) (i : Instr) : List MicroStep :=
  match i with
  | .i2cInit => i2cInitText
  | .i2cStart => i2cStartText
  | .i2cStop => i2cStopText
  | .i2cRestart => i2cRestartText
  | .i2cWrite b => i2cWriteText b
  | .i2cRead ack => i2cReadText ack
  | .spiInit => spiInitText (initMode c)
  | .spiSetMode m => spiSetModeText m
  | .spiGetMode => spiGetModeText
  | .spiWriteB b => spiWriteBText spi b
  | .spiWriteN v => spiWriteNText spi c.spiWidth v
  | .spiReadB => spiReadBText spi c.spiReadFill
  | .spiReadN => spiReadNText spi c.spiWidth c.spiReadFill
  | .spiXmit b => spiXmitText spi b
  | .uartInit => uartInitText
  | .uartWrite b => uartWriteText b
  | .uartRead => uartReadText c.uartStartDetect

/-- The commands that return a value in `RESULT` (R23). -/
def returnsValue (i : Instr) : Bool :=
  match i with
  | .i2cInit => false
  | .i2cStart => false
  | .i2cStop => false
  | .i2cRestart => false
  | .i2cWrite _ => true
  | .i2cRead _ => true
  | .spiInit => false
  | .spiSetMode _ => false
  | .spiGetMode => true
  | .spiWriteB _ => false
  | .spiWriteN _ => false
  | .spiReadB => true
  | .spiReadN => true
  | .spiXmit _ => true
  | .uartInit => false
  | .uartWrite _ => false
  | .uartRead => true

/-- The commands that write `STATUS.ACK`: `I2C.WRITE` alone (R26). -/
def writesAck (i : Instr) : Bool :=
  match i with
  | .i2cInit => false
  | .i2cStart => false
  | .i2cStop => false
  | .i2cRestart => false
  | .i2cWrite _ => true
  | .i2cRead _ => false
  | .spiInit => false
  | .spiSetMode _ => false
  | .spiGetMode => false
  | .spiWriteB _ => false
  | .spiWriteN _ => false
  | .spiReadB => false
  | .spiReadN => false
  | .spiXmit _ => false
  | .uartInit => false
  | .uartWrite _ => false
  | .uartRead => false

/-- The commands that write `SPICFG`: those with a `μSETMODE` (R29). -/
def writesSpiCfg (i : Instr) : Bool :=
  match i with
  | .i2cInit => false
  | .i2cStart => false
  | .i2cStop => false
  | .i2cRestart => false
  | .i2cWrite _ => false
  | .i2cRead _ => false
  | .spiInit => true
  | .spiSetMode _ => true
  | .spiGetMode => false
  | .spiWriteB _ => false
  | .spiWriteN _ => false
  | .spiReadB => false
  | .spiReadN => false
  | .spiXmit _ => false
  | .uartInit => false
  | .uartWrite _ => false
  | .uartRead => false

/-- The commands that clear or shift into `s.r` (R157, R206, R254). -/
def usesShift (i : Instr) : Bool :=
  match i with
  | .i2cInit => false
  | .i2cStart => false
  | .i2cStop => false
  | .i2cRestart => false
  | .i2cWrite _ => false
  | .i2cRead _ => true
  | .spiInit => false
  | .spiSetMode _ => false
  | .spiGetMode => false
  | .spiWriteB _ => true
  | .spiWriteN _ => true
  | .spiReadB => true
  | .spiReadN => true
  | .spiXmit _ => true
  | .uartInit => false
  | .uartWrite _ => false
  | .uartRead => true

/-- The commands with a bit loop, which sets `s.i` (R127). -/
def hasBitLoop (i : Instr) : Bool :=
  match i with
  | .i2cInit => false
  | .i2cStart => false
  | .i2cStop => false
  | .i2cRestart => false
  | .i2cWrite _ => true
  | .i2cRead _ => true
  | .spiInit => false
  | .spiSetMode _ => false
  | .spiGetMode => false
  | .spiWriteB _ => true
  | .spiWriteN _ => true
  | .spiReadB => true
  | .spiReadN => true
  | .spiXmit _ => true
  | .uartInit => false
  | .uartWrite _ => true
  | .uartRead => true

/-- How many bits an SPI transfer shifts; none for a command that is no transfer (R207 to R211). -/
def transferBits (c : Config) (i : Instr) : Option Nat :=
  match i with
  | .i2cInit => none
  | .i2cStart => none
  | .i2cStop => none
  | .i2cRestart => none
  | .i2cWrite _ => none
  | .i2cRead _ => none
  | .spiInit => none
  | .spiSetMode _ => none
  | .spiGetMode => none
  | .spiWriteB _ => some 8
  | .spiWriteN _ => some c.spiWidth
  | .spiReadB => some 8
  | .spiReadN => some c.spiWidth
  | .spiXmit _ => some 8
  | .uartInit => none
  | .uartWrite _ => none
  | .uartRead => none

end Sys2Proof.Machine
end

