-- ==== Sys2Proof/Machine/Timing.lean ====
section
/-! DEFINITION. Durations (spec/40_sequencer.md R124, spec/70_reset_and_hazards.md R375): timing only. No step depends
on them. -/

namespace Sys2Proof.Machine

/-- `dur(c)` (R124), in seconds. -/
def dur (c : Config) : DelayClass → Rat
  | .i2c => c.tI2c
  | .bit => c.tBit
  | .bit15 => 3 / 2 * c.tBit

/-- The delay of one event: only a `Delay` event has any (R119). -/
def eventDelay (c : Config) : Event → Rat
  | .delay d => dur c d
  | .dirIn _ => 0
  | .low _ => 0
  | .drive _ _ => 0
  | .sample _ _ => 0
  | .poll _ _ => 0

/-- The sum of `dur(c)` over the `Delay` events (R375). -/
def delayTotal (c : Config) (h : List Event) : Rat := (h.map (eventDelay c)).sum

/-- The sum of `dur(c)` over the delays of a microprogram's text (R375). -/
def textDelay (c : Config) (text : List MicroStep) : Rat :=
  (text.map fun m => match m.op with
    | .delay d => dur c d
    | _ => 0).sum

/-- The least time that a number of sequencer steps with the given events takes (R375). -/
def leastTime (c : Config) (steps : Nat) (h : List Event) : Rat := delayTotal c h + steps * c.tStep

/-- The greatest time that a number of sequencer steps with the given events takes, under the assumption of R332
that each step takes at most `T_STEP_MAX` (R375). -/
def greatestTime (c : Config) (steps : Nat) (h : List Event) : Rat := delayTotal c h + steps * c.tStepMax

end Sys2Proof.Machine
end

