-- ==== Sys2Proof/Safety.lean ====
section
/-! DEFINITION. The terms claims are stated in: what a claim observes, when a command may be issued, the bus conditions
read off the history, and the invariants of the machine. -/

namespace Sys2Proof.Machine

/-! ### Observation -/

/-- What a claim about a run observes (R130): the fields of `RESULT`, `STATUS` and `SPICFG`, the history, and the pin
state. -/
structure View where
  value : Half
  busy : Bool
  ack : Bool
  fault : Bool
  fcode : FaultCode
  i2cInit : Bool
  spiInit : Bool
  uartInit : Bool
  spi : SpiCfg
  pins : Pins
  hist : List Event
  deriving DecidableEq, Repr

/-- The observable part of a state (R130). -/
def State.view (s : State) : View where
  value := s.value
  busy := s.busy
  ack := s.ack
  fault := s.fault
  fcode := s.fcode
  i2cInit := s.i2cInit
  spiInit := s.spiInit
  uartInit := s.uartInit
  spi := s.spi
  pins := s.pins
  hist := s.hist

/-- A run of a host program has ended (R129): no command runs and the host has no access left. -/
def State.ended (s : State) : Prop := s.pc = [] ∧ s.host = [] ∧ s.composing = []

/-- A run exists from the state: its configuration is valid (R8), and its program is not refused (R301). -/
def State.runnable (s : State) : Bool := s.cfg.valid && s.programPermitted

/-- The next step takes the host's access `op`, and `t` is the state without that access. -/
def State.due (s : State) (op : HostOp) (t : State) : Prop :=
  ∃ x, nextTurn s = some x ∧ x.op = op ∧ x.taken = t ∧ sequencerMoves x s = false

/-- No fault is recorded and no command runs: a legal command of an initialised unit, or an `INIT`, is accepted. -/
def State.free (s : State) : Prop := s.fault = false ∧ s.busy = false

/-- A command of the unit is accepted (R112). -/
def State.ready (s : State) (u : SerialUnit) : Prop := s.free ∧ s.initFlag u = true

/-- No command runs, and what a claim observes is the given view (R128). -/
def State.finishedAs (s : State) (w : View) : Prop := s.pc = [] ∧ s.cmd = none ∧ s.view = w

/-! ### Conditions on the wire -/

/-- The pin state after an event of the history (R114 to R116). -/
def pinsAfter (p : Pins) : Event → Pins
  | .dirIn l => p.set l { dir := .input, latch := (p.get l).latch }
  | .low l => p.set l { dir := .output, latch := some false }
  | .drive l v => p.set l { dir := .output, latch := some v }
  | .sample _ _ => p
  | .poll _ _ => p
  | .delay _ => p

/-- A master-view START (R159), `p` being the pin state before the event. -/
def isMasterStart (p : Pins) (e : Event) : Bool :=
  decide (e = .low .sda) && decide (p.sda.dir = .input) && decide (p.scl.dir = .input)

/-- A master-view STOP (R159), `p` being the pin state before the event. -/
def isMasterStop (p : Pins) (e : Event) : Bool :=
  decide (e = .dirIn .sda) && decide (p.sda.dir = .output) && decide (p.scl.dir = .input)

/-- How many master-view STARTs a piece of history holds, from the pin state before it. -/
def masterStarts (p : Pins) : List Event → Nat
  | [] => 0
  | e :: rest => (if isMasterStart p e then 1 else 0) + masterStarts (pinsAfter p e) rest

/-- How many master-view STOPs a piece of history holds, from the pin state before it. -/
def masterStops (p : Pins) : List Event → Nat
  | [] => 0
  | e :: rest => (if isMasterStop p e then 1 else 0) + masterStops (pinsAfter p e) rest

/-- Every event of a piece of history that moves SDA comes while the block drives SCL low (R160). -/
def sdaMovesOnlyWhileClockLow (p : Pins) : List Event → Bool
  | [] => true
  | e :: rest =>
    (if e = .dirIn .sda ∨ e = .low .sda then decide (p.scl.dir = .output) else true) &&
      sdaMovesOnlyWhileClockLow (pinsAfter p e) rest

/-- How many times a piece of history changes the level of `SCK`, from the latch before it (R15, R213). -/
def sckEdges (latch : Option Bool) : List Event → Nat
  | [] => 0
  | .drive .sck v :: rest => (if latch = some (!v) then 1 else 0) + sckEdges (some v) rest
  | _ :: rest => sckEdges latch rest

/-- How many of those changes go to the level `v`. -/
def sckEdgesOnto (v : Bool) (latch : Option Bool) : List Event → Nat
  | [] => 0
  | .drive .sck u :: rest => (if latch = some (!u) ∧ u = v then 1 else 0) + sckEdgesOnto v (some u) rest
  | _ :: rest => sckEdgesOnto v latch rest

/-- The level a line was last driven to in a history: its latch (R116). -/
def lastDriven (l : Line) (h : List Event) : Option Bool :=
  h.foldl (fun acc e => match e with
    | .drive l' v => if l' = l then some v else acc
    | _ => acc) none

/-- The environment answers the awaited level after finitely many polls, from any history on (R372). -/
def Responsive (env : Oracle) (l : WaitedLine) (v : Bool) : Prop :=
  ∀ h : List Event, ∃ k : Nat, env l.line (h ++ List.replicate k (.poll l.line (!v))) = v

/-- The level of SDA, as the block drives it with the bus pulled up, at each poll that finds SCL high: what a receiver
that samples at each rise of SCL captures (R165). -/
def sdaAtClockHigh (p : Pins) : List Event → List Bool
  | [] => []
  | e :: rest =>
    (if e = .poll .scl true then [decide (p.sda.dir = .input)] else []) ++ sdaAtClockHigh (pinsAfter p e) rest

/-! ### Histories of the commands, as the spec's examples write them (spec/95_test_vectors.md) -/

/-- `I2C.START` (R152, V22). -/
def startEvents : List Event :=
  [.dirIn .sda, .delay .i2c, .dirIn .scl, .delay .i2c, .low .sda, .delay .i2c, .low .scl, .delay .i2c]

/-- `I2C.STOP` (R153, V25). -/
def stopEvents : List Event :=
  [.low .sda, .delay .i2c, .dirIn .scl, .delay .i2c, .dirIn .sda, .delay .i2c]

/-- `I2C.RESTART` (R154, V26). -/
def restartEvents : List Event :=
  [.dirIn .sda, .delay .i2c, .dirIn .scl, .delay .i2c, .low .sda, .delay .i2c]

/-- `I2C.WRITE b`, with one poll per wait and the ACK sample reading `a` (R156, V23). -/
def i2cWriteEvents (b : Byte) (a : Bool) : List Event :=
  ((downFrom 8).flatMap fun i =>
    [.low .scl, .delay .i2c, if b.getLsbD i then .dirIn .sda else .low .sda, .dirIn .scl, .poll .scl true, .delay .i2c]) ++
  [.low .scl, .dirIn .sda, .sample .sda a, .dirIn .scl, .poll .scl true, .delay .i2c, .low .scl]

/-- `I2C.READ`, with one poll per wait and the data samples reading the bits of `x` (R157, V24). -/
def i2cReadEvents (ack : Bool) (x : Byte) : List Event :=
  ((downFrom 8).flatMap fun i =>
    [.low .scl, .delay .i2c, .dirIn .scl, .poll .scl true, .delay .i2c, .sample .sda (x.getLsbD i)]) ++
  [.low .scl, if ack then .low .sda else .dirIn .sda, .delay .i2c, .dirIn .scl, .poll .scl true, .delay .i2c,
    .low .scl, .dirIn .sda]

/-- `SHIFT(n, o, false)` (R206). -/
def shiftOutEvents (c : SpiCfg) (n : Nat) (o : Half) : List Event :=
  [.drive .sck c.prop] ++
  ((downFrom n).flatMap fun i =>
    [.drive .mosi (o.getLsbD i), .drive .sck c.sample] ++ (if i = 0 then [] else [.drive .sck c.prop])) ++
  [.drive .sck c.idle]

/-- `SHIFT(n, o, true)`, the samples reading the bits of `x` (R206). -/
def shiftExchangeEvents (c : SpiCfg) (n : Nat) (o x : Half) : List Event :=
  [.drive .sck c.prop] ++
  ((downFrom n).flatMap fun i =>
    [.drive .mosi (o.getLsbD i), .drive .sck c.sample, .sample .miso (x.getLsbD i)] ++
      (if i = 0 then [] else [.drive .sck c.prop])) ++
  [.drive .sck c.idle]

/-- `UART.WRITE b` (R252, V43). -/
def uartWriteEvents (b : Byte) : List Event :=
  ([false] ++ (upTo 8).map b.getLsbD ++ [true]).flatMap fun v => [.drive .tx v, .delay .bit]

/-- `UART.READ` after the start bit was detected, the samples reading the bits of `x` (R254, V44). -/
def uartReadEvents (x : Byte) : List Event :=
  [.delay .bit15] ++
  (upTo 8).flatMap fun i => [.sample .rx (x.getLsbD i)] ++ (if i = 7 then [] else [.delay .bit])

/-- The polls of `STARTDETECT` (R253): under `LEVEL`, `p` polls that read 1 and the one that reads 0; under `EDGE`,
first `q` polls that read 0 and one that reads 1. -/
def startPolls (d : StartDetect) (q p : Nat) : List Event :=
  match d with
  | .level => List.replicate p (.poll .rx true) ++ [.poll .rx false]
  | .edge => List.replicate q (.poll .rx false) ++ [.poll .rx true] ++ List.replicate p (.poll .rx true) ++
      [.poll .rx false]

/-- Every read in a piece of history is what the oracle answers at that point of it (R121), the piece following the
history `h`. -/
def Agrees (env : Oracle) (h events : List Event) : Prop :=
  ∀ k l v, events[k]? = some (.poll l v) ∨ events[k]? = some (.sample l v) → env l (h ++ events.take k) = v

/-! ### Composite commands, as the rules write them (spec/44_composite.md) -/

/-- A command of a composite: "issued by a host write to `CMD` only after `STATUS.BUSY` reads 0", and "followed by
`wait`" (R290). -/
def issued (i : Instr) : List HostOp := [.wait, .write 0 (encode i), .wait]

/-- The bytes of a value on the wire: `byte_j = v[8j+7 : 8j]` for j = 0..k-1 under `LITTLE` (R292), "the
most-significant byte first" under `BIG` (R291). -/
def wireBytes (order : ByteOrder) (v : Value) : List Byte :=
  let bytes := (List.range v.kind.size).map fun j => v.bits.extractLsb' (8 * j) 8
  match order with
  | .little => bytes
  | .big => bytes.reverse

/-- The k addresses of a value or of a buffer in host memory, from `a` on (R291), wrapping at `HOST_ADDR_WIDTH` bits
(notes/assumptions/15.md). -/
def addressesFrom (c : Config) (a k : Nat) : List Nat := (List.range k).map fun j => (a + j) % 2 ^ c.hostAddrWidth

/-! ### Invariants -/

/-- What the drive conventions leave of the pin state: SCL and SDA are never latched high (R150), an output's latch
has been written (R35, R40), and the block never drives MISO or RX (R35). -/
def State.PinsLegal (s : State) : Prop :=
  s.pins.scl.latch ≠ some true ∧ s.pins.sda.latch ≠ some true ∧
  (∀ l, s.dir l = .output → s.latch l ≠ none) ∧
  s.pins.miso = Pin.reset ∧ s.pins.rx = Pin.reset

/-- `FCODE` is 0 exactly while `FAULT` is 0 (R24, R321). -/
def State.FaultLegal (s : State) : Prop := s.fault = false ↔ s.fcode = .none

/-- `SPICFG` is unset, or holds a row of the mode table (R29, R30, R200). -/
def State.SpiCfgLegal (s : State) : Prop := s.spi = SpiCfg.reset ∨ ∃ m, s.spi = modeCfg m

/-- No command runs, or `pc` is a position in the microprogram of the command in `s.cmd`, whose unit is initialised
unless the command is its `INIT` (R25, R31, R112). -/
def State.RunLegal (s : State) : Prop :=
  (s.busy = false ∧ s.pc = [] ∧ s.cmd = none) ∨
  (s.busy = true ∧ s.pc ≠ [] ∧ ∃ i, s.cmd = some (encode i) ∧ wellFormed s.cfg.spiWidth i = true ∧
    s.pc <:+ microprogram s.cfg s.spi i ∧ (isInit i = true ∨ s.initFlag (unitOf i) = true))

/-- A line is driven only when its unit is initialised or its `INIT` is running (R362). -/
def State.DriveLegal (s : State) : Prop :=
  ∀ l, s.dir l = .output → s.initFlag l.unit = true ∨
    ∃ i, s.cmd = some (encode i) ∧ isInit i = true ∧ unitOf i = l.unit

/-- What the micro-operations of a text make of the idle level and the SCK pin. -/
def clockReplay : List MicroStep → Bool × Pin → Bool × Pin
  | [], x => x
  | m :: rest, x =>
    clockReplay rest (match m.op with
      | .setMode mode => (idleLevel mode, x.2)
      | .out .sck v => (x.1, { dir := .output, latch := some v })
      | .input .sck => (x.1, { dir := .input, latch := x.2.latch })
      | _ => x)

/-- `SPI.INIT` has completed, or its `μDONE` is still to come in the running text. -/
def State.spiInitialising (s : State) : Prop :=
  s.spiInit = true ∨ ∃ m ∈ s.pc, m.op = .done [.init .spi]

/-- Once the running command has ended, SCK is driven to the idle level of the mode then in force (R212). -/
def State.ClockIdle (s : State) : Prop :=
  s.spiInitialising →
    (clockReplay s.pc (s.spi.idle, s.pins.sck)).2 =
      { dir := .output, latch := some (clockReplay s.pc (s.spi.idle, s.pins.sck)).1 }

/-- The loop index stays within the spec's range, now and wherever the running text sets it (R32). -/
def State.IndexLegal (s : State) : Prop :=
  s.i ≤ 16 ∧ ∀ m ∈ s.pc, ∀ n, Assign.setIndex n ∈ m.pre → n ≤ 16

/-- Host memory keeps its canonical form. -/
def State.MemoryLegal (s : State) : Prop := s.mem.wf = true

end Sys2Proof.Machine
end

