-- ==== Sys2Proof/Certificates/Slice0/Obligations.lean ====
section
/-! DEFINITION. The statements for the provers. `env` is always an arbitrary bus environment: "The model quantifies over
every oracle" (R121); `step` is `stepWith` at one of them. -/

open Sys2Proof Sys2Proof.Machine

/-! ### Encoding -/

/-- R81 to R88: no bit of an encoding is dropped. -/
def Obligations.DecodeOfEncode : Prop :=
  ∀ (width : Nat) (i : Instr), wellFormed width i = true → decode width (encode i) = .ok i

/-- R88: a word that decodes is the encoding of its command, which is well-formed. -/
def Obligations.EncodeOfDecode : Prop :=
  ∀ (width : Nat) (w : Word) (i : Instr), decode width w = .ok i → encode i = w ∧ wellFormed width i = true

/-- R89: the legal words of each command are those that match its row of the opcode map and no other row, and for
`SPI.WRITEN` fit the width; no two rows overlap. -/
def Obligations.LegalWordsAreTheOpcodeMap : Prop :=
  (∀ (width : Nat) (w : Word) (c : Opcode), (∃ i, decode width w = .ok i ∧ opcodeOf i = c) ↔
    ∃ row ∈ opcodeRows, row.code = c ∧ row.matchesWord w = true ∧
      (∀ row' ∈ opcodeRows, row'.matchesWord w = true → row' = row) ∧
      (c = .spiWriteN → fitsWidth width (Field.data w) = true)) ∧
  (∀ w : Word, ∀ row ∈ opcodeRows, ∀ row' ∈ opcodeRows,
    row.matchesWord w = true → row'.matchesWord w = true → row = row')

/-- R90, R323: the illegal words are exactly those listed; a write of one to `CMD` is not executed, and raises
`ILLEGAL_COMMAND` unless a fault or a running command comes first. -/
def Obligations.IllegalWordsFault : Prop :=
  (∀ (width : Nat) (w : Word), (∃ e, decode width w = .error e) ↔
    Field.unit w = 3 ∨ (Field.unit w = 0 ∧ 6 ≤ (Field.op w).toNat) ∨ (Field.unit w = 1 ∧ 8 ≤ (Field.op w).toNat) ∨
    (Field.unit w = 2 ∧ 3 ≤ (Field.op w).toNat) ∨ Field.reserved w ≠ 0 ∨
    (Field.a w = true ∧ opTable (Field.unit w) (Field.op w) ≠ some .i2cRead) ∨
    (Field.m w ≠ 0 ∧ opTable (Field.unit w) (Field.op w) ≠ some .spiSetMode) ∨
    (∃ c, opTable (Field.unit w) (Field.op w) = some c ∧ Field.data w >>> c.width width ≠ 0)) ∧
  (∀ (s : State) (w : Word) (e : Illegal), decode s.cfg.spiWidth w = .error e →
    hostWrite 0 w s = .next (if s.fault = true then s
      else if s.busy = true then { s with fault := true, fcode := .cmdWhileBusy }
      else { s with fault := true, fcode := .illegalCommand }))

/-- spec/95_test_vectors.md V1 to V20: words written out from the encoding decode to what they stand for. -/
def Obligations.VectorWordsDecode : Prop :=
  decode 8 0x00000000 = .ok .i2cInit ∧ decode 8 0x16000000 = .ok (.i2cRead true) ∧
  decode 8 0x14000000 = .ok (.i2cRead false) ∧ decode 8 0x16000001 = .error .dataAboveWidth ∧
  decode 8 0x44030000 = .ok (.spiSetMode 3) ∧ decode 8 0x44030001 = .error .dataAboveWidth ∧
  decode 8 0x4C0000FF = .ok (.spiWriteB 0xFF) ∧ decode 8 0x4C000100 = .error .dataAboveWidth ∧
  decode 16 0x5000FFFF = .ok (.spiWriteN 0xFFFF) ∧ decode 8 0x5000FFFF = .error .dataAboveWidth ∧
  decode 8 0x500000FF = .ok (.spiWriteN 0xFF) ∧ decode 8 0xC0000000 = .error .reservedCommand ∧
  decode 8 0x20000000 = .error .reservedCommand ∧ decode 8 0x60000000 = .error .reservedCommand ∧
  decode 8 0x8C000000 = .error .reservedCommand ∧ decode 8 0x00040000 = .error .reservedBits ∧
  decode 8 0x02000000 = .error .strayA ∧ decode 8 0x10010000 = .error .strayM ∧
  decode 8 0x880000FF = .error .dataAboveWidth ∧ decode 8 0x5C0000A5 = .ok (.spiXmit 0xA5)

/-! ### The step -/

/-- A step that takes a host write of a command's word to `CMD` runs that command, at the state without that access. -/
def Obligations.StepRunsDecodedCommand : Prop :=
  ∀ (s t : State) (w : Word) (i : Instr), s.runnable = true → s.due (.write 0 w) t →
    decode s.cfg.spiWidth w = .ok i → step s = exec i t

/-- Whose step it is. R110: while a command runs and the host has no further access, it is the sequencer's. That a
pending `wait` with `BUSY = 1` (R93), or an access that is not yet due, leaves the step to the sequencer, with no poll of
`STATUS` recorded and with the access's count of steps going down, inside a running composite too, and which access of
the host falls next (R65, R290), are the model's choice (notes/assumptions/10.md). That the machine stays as it is once
the run has ended (R129) is the model's choice (notes/assumptions/9.md). -/
def Obligations.SequencerStepsWhileHostWaits : Prop :=
  ∀ s : State, s.runnable = true →
    (s.pc ≠ [] → s.host = [] → s.composing = [] → step s = .next (seqStep s.bus.oracle s)) ∧
    (s.ended → step s = .next s) ∧
    (∀ n k op rest, s.host = ⟨n, k, op⟩ :: rest → (s.composing = [] ∨ (k = some 0 ∧ ∀ c, op ≠ .composite c)) →
      ((op = .wait ∧ s.busy = true) ∨ (0 < n ∧ s.pc ≠ []) →
        step s = .next (seqStep s.bus.oracle { s with host := ⟨n - 1, k, op⟩ :: rest })) ∧
      (¬ (op = .wait ∧ s.busy = true) → ¬ (0 < n ∧ s.pc ≠ []) → s.due op { s with host := rest })) ∧
    (∀ op ops, s.composing = op :: ops →
      (∀ n k h rest, s.host = ⟨n, k, h⟩ :: rest → k ≠ some 0 ∨ ∃ c, h = .composite c) →
      (op = .wait ∧ s.busy = true → step s = .next (seqStep s.bus.oracle s)) ∧
      (¬ (op = .wait ∧ s.busy = true) →
        (s.host = [] → s.due op { s with composing := ops }) ∧
        (∀ n k h rest, s.host = ⟨n, k, h⟩ :: rest →
          s.due op { s with composing := ops, host := ⟨n, k.map fun j => j - 1, h⟩ :: rest }))) ∧
    (∀ t, s.due .wait t → s.busy = false ∧ step s = .next t)

/-- R113, R326: register reads and the accesses that fault, each one step of the machine. -/
def Obligations.HostRegisterAccesses : Prop :=
  ∀ s t : State, s.runnable = true →
    (∀ reg, s.due (.read reg) t →
      (reg = 1 → step s = .next { t with received := t.received ++ [.reg 1 s.resultWord] }) ∧
      (reg = 2 → step s = .next { t with received := t.received ++ [.reg 2 s.statusWord] }) ∧
      (reg = 3 → step s = .next { t with received := t.received ++ [.reg 3 s.spicfgWord] }) ∧
      (reg = 0 ∨ 4 ≤ reg →
        step s = .next { t with received := t.received ++ [.reg reg 0], fault := true,
                                fcode := if s.fault then s.fcode else .badRegister })) ∧
    (∀ reg w, s.due (.write reg w) t → reg ≠ 0 →
      step s = .next { t with fault := true, fcode := if s.fault then s.fcode else .badRegister })

/-- R23, R24, R29, R200: the bits of the three registers, and the `SPICFG` words of the mode table. -/
def Obligations.RegisterWordLayout : Prop :=
  ∀ s : State,
    (s.resultWord.extractLsb' 0 16 = s.value ∧ s.resultWord.extractLsb' 16 16 = 0) ∧
    (s.statusWord.getLsbD 0 = s.busy ∧ s.statusWord.getLsbD 1 = s.ack ∧ s.statusWord.getLsbD 2 = s.fault ∧
      s.statusWord.getLsbD 3 = false ∧ s.statusWord.extractLsb' 4 4 = s.fcode.code ∧
      s.statusWord.getLsbD 8 = s.i2cInit ∧ s.statusWord.getLsbD 9 = s.spiInit ∧ s.statusWord.getLsbD 10 = s.uartInit ∧
      s.statusWord.extractLsb' 11 21 = 0) ∧
    (s.spi.valid = false → s.spicfgWord = 0) ∧
    (s.spi.valid = true → s.spicfgWord.extractLsb' 0 2 = s.spi.mode ∧ s.spicfgWord.getLsbD 2 = s.spi.idle ∧
      s.spicfgWord.getLsbD 3 = s.spi.sample ∧ s.spicfgWord.getLsbD 4 = s.spi.prop ∧ s.spicfgWord.getLsbD 5 = true ∧
      s.spicfgWord.extractLsb' 6 26 = 0) ∧
    (s.spi = modeCfg 0 → s.spicfgWord = 0x28) ∧ (s.spi = modeCfg 1 → s.spicfgWord = 0x31) ∧
    (s.spi = modeCfg 2 → s.spicfgWord = 0x36) ∧ (s.spi = modeCfg 3 → s.spicfgWord = 0x2F)

/-- R112: the whole of `HostWriteCMD`, its tests in their priority order; a step that takes a host write to `CMD`, of any
word, does exactly that. -/
def Obligations.CommandWriteFollowsAcceptance : Prop :=
  (∀ (s : State) (w : Word),
    hostWrite 0 w s =
      if s.fault = true then .next s
      else if s.busy = true then .next { s with fault := true, fcode := .cmdWhileBusy }
      else
        match decode s.cfg.spiWidth w with
        | .error _ => .next { s with fault := true, fcode := .illegalCommand }
        | .ok i =>
          if isInit i = false ∧ s.initFlag (unitOf i) = false then
            .next { s with fault := true, fcode := .notInitialised }
          else .next { s with cmd := some w, busy := true, pc := microprogram s.cfg s.spi i }) ∧
  (∀ (s t : State) (w : Word), s.runnable = true → s.due (.write 0 w) t → step s = hostWrite 0 w t)

/-- R208, R324, R325, R329: when a command is turned away, and that nothing but the fault bits changes. That an
`SPI.WRITEN` operand wider than `SPI_WIDTH`, which no word decodes to, is turned away by `exec` as the illegal word it
would be is the model's (notes/assumptions/12.md, DEDUCED). -/
def Obligations.CommandsTurnedAway : Prop :=
  ∀ (i : Instr) (s : State),
    (s.fault = true → exec i s = .next s) ∧
    (s.fault = false → s.busy = true → exec i s = .next { s with fault := true, fcode := .cmdWhileBusy }) ∧
    (s.free → wellFormed s.cfg.spiWidth i = true → isInit i = false → s.initFlag (unitOf i) = false →
      exec i s = .next { s with fault := true, fcode := .notInitialised }) ∧
    (s.free → wellFormed s.cfg.spiWidth i = false → exec i s = .next { s with fault := true, fcode := .illegalCommand })

/-- The frame of acceptance: a command of a free block whose unit is initialised, or an `INIT`, is accepted, and the
acceptance changes `s.cmd`, `BUSY` and `pc` alone: no register, flag, pin, event or byte of host memory. -/
def Obligations.AcceptanceFrame : Prop :=
  ∀ (i : Instr) (s : State), s.free → wellFormed s.cfg.spiWidth i = true →
    (isInit i = true ∨ s.initFlag (unitOf i) = true) →
    ∃ text, text ≠ [] ∧ exec i s = .next { s with cmd := some (encode i), busy := true, pc := text }

/-- R328: a fault raised while a command runs changes none of its micro-operations and none of its results. -/
def Obligations.FaultDoesNotStopRunningCommand : Prop :=
  ∀ (env : Oracle) (n : Nat) (c : FaultCode) (s : State),
    seqRun env n (raiseFault c s) = raiseFault c (seqRun env n s)

/-- R27, R322: the first fault's code is kept, by every step but one that asserts the reset input. -/
def Obligations.FaultStaysUntilReset : Prop :=
  ∀ s t : State, s.fault = true → step s = .next t →
    (t.fault = true ∧ t.fcode = s.fcode) ∨ ∃ u, s.due .assertReset u

/-- R8: no step from an invalid configuration. -/
def Obligations.InvalidConfigurationRefused : Prop :=
  ∀ s : State,
    s.cfg.spiWidth < 1 ∨ 16 < s.cfg.spiWidth ∨ 3 < s.cfg.spiInitMode ∨ ¬ s.cfg.pinMap.pins.Nodup →
    step s = .refused .invalidConfiguration

/-- R40: what reset leaves, for every configuration. `s.i`, `s.r`, `s.a` and `s.v` are unspecified and left out. -/
def Obligations.ResetValues : Prop :=
  State.reset = State.resetOf Config.initial ∧
  ∀ c : Config, ∀ s : State, s = State.resetOf c →
    s.value = 0 ∧ s.busy = false ∧ s.ack = false ∧ s.fault = false ∧ s.fcode = .none ∧ s.i2cInit = false ∧
    s.spiInit = false ∧ s.uartInit = false ∧ s.spicfgWord = 0 ∧ s.spi.valid = false ∧ s.pc = [] ∧ s.cmd = none ∧
    (∀ l, s.dir l = .input ∧ s.latch l = none) ∧ s.hist = [] ∧ s.statusWord = 0 ∧ s.resultWord = 0

/-- R360: the reset input puts the block into its reset state in one step, from any state. -/
def Obligations.ResetInputResetsTheBlock : Prop :=
  ∀ s u : State, s.runnable = true → s.due .assertReset u →
    ∃ t, step s = .next t ∧ t.view = State.reset.view ∧ t.pc = [] ∧ t.cmd = none

/-! ### Micro-operations -/

/-- R114, R115, R116, R119, R120: each micro-operation that reads no line, as one sequencer step. -/
def Obligations.DrivingMicroOperations : Prop :=
  ∀ (env : Oracle) (s : State) (rest : List MicroStep),
    (∀ l, s.pc = ⟨[], .input l⟩ :: rest →
      seqStep env s = { s with pc := rest, pins := s.pins.set l { dir := .input, latch := s.latch l },
                               hist := s.hist ++ [.dirIn l] }) ∧
    (∀ l : OpenDrainLine, s.pc = ⟨[], .low l⟩ :: rest →
      seqStep env s = { s with pc := rest, pins := s.pins.set l.line { dir := .output, latch := some false },
                               hist := s.hist ++ [.low l.line] }) ∧
    (∀ (l : PushPullLine) v, s.pc = ⟨[], .out l v⟩ :: rest →
      seqStep env s = { s with pc := rest, pins := s.pins.set l.line { dir := .output, latch := some v },
                               hist := s.hist ++ [.drive l.line v] }) ∧
    (∀ c, s.pc = ⟨[], .delay c⟩ :: rest → seqStep env s = { s with pc := rest, hist := s.hist ++ [.delay c] }) ∧
    (∀ m, s.pc = ⟨[], .setMode m⟩ :: rest →
      seqStep env s = { s with pc := rest, spi := { mode := m, idle := m.getLsbD 1,
                                                    sample := m.getLsbD 1 == m.getLsbD 0,
                                                    prop := m.getLsbD 1 != m.getLsbD 0, valid := true } })

/-- R117, R118, R121: a sample, a poll that matches and one that does not, each as one sequencer step; what a line the
block drives low reads. That a sample's bit is in `s.a` or `s.r` after the sample's own step, and not only with the
micro-operation that follows (R123), is the model's choice (notes/assumptions/11.md, DESIGN CHOICE). -/
def Obligations.ReadingMicroOperations : Prop :=
  ∀ (env : Oracle) (s : State) (rest : List MicroStep),
    (∀ l : SampledLine, ∃ u, (l = .sda → s.dir .sda = .output → u = false) ∧
      (¬ (l = .sda ∧ s.dir .sda = .output) → u = env l.line s.hist) ∧
      ∀ dest, s.pc = ⟨[], .sample l dest⟩ :: rest →
        (seqStep env s).v = u ∧ (seqStep env s).hist = s.hist ++ [.sample l.line u] ∧
        (seqStep env s).pc = rest ∧ (seqStep env s).pins = s.pins ∧
        (dest = .ackBit → (seqStep env s).a = u ∧ (seqStep env s).r = s.r) ∧
        (dest = .shiftBit → (seqStep env s).a = s.a ∧ ∀ k < 16,
          (seqStep env s).r.getLsbD k = if k = s.i then u else s.r.getLsbD k)) ∧
    (∀ l : WaitedLine, ∃ u, (l = .scl → s.dir .scl = .output → u = false) ∧
      (¬ (l = .scl ∧ s.dir .scl = .output) → u = env l.line s.hist) ∧
      ∀ v, s.pc = ⟨[], .wait l v⟩ :: rest →
        seqStep env s = { s with v := u, hist := s.hist ++ [.poll l.line u], pc := if u = v then rest else s.pc })

/-! ### I2C commands -/

/-- R151: `I2C.INIT` completes. -/
def Obligations.I2cInitReleasesBothLines : Prop :=
  ∀ s : State, s.free →
    ∃ t, exec .i2cInit s = .next t ∧ ∀ env : Oracle,
      (seqRun env 3 t).finishedAs
        { s.view with
          i2cInit := true
          pins := { s.pins with scl := { s.pins.scl with dir := .input }, sda := { s.pins.sda with dir := .input } }
          hist := s.hist ++ [.dirIn .scl, .dirIn .sda] }

/-- R152, R153, R154: `I2C.START`, `I2C.STOP` and `I2C.RESTART` complete. -/
def Obligations.I2cConditionCommandsComplete : Prop :=
  ∀ s : State, s.ready .i2c →
    (∃ t, exec .i2cStart s = .next t ∧ ∀ env : Oracle,
      (seqRun env 9 t).finishedAs
        { s.view with
          pins := { s.pins with scl := { dir := .output, latch := some false },
                                sda := { dir := .output, latch := some false } }
          hist := s.hist ++ startEvents }) ∧
    (∃ t, exec .i2cStop s = .next t ∧ ∀ env : Oracle,
      (seqRun env 7 t).finishedAs
        { s.view with
          pins := { s.pins with scl := { s.pins.scl with dir := .input },
                                sda := { dir := .input, latch := some false } }
          hist := s.hist ++ stopEvents }) ∧
    (∃ t, exec .i2cRestart s = .next t ∧ ∀ env : Oracle,
      (seqRun env 7 t).finishedAs
        { s.view with
          pins := { s.pins with scl := { s.pins.scl with dir := .input },
                                sda := { dir := .output, latch := some false } }
          hist := s.hist ++ restartEvents })

/-- R156, R161: `I2C.WRITE b` completes when no peer stretches the clock, with the ACK bit that the environment
answers. -/
def Obligations.I2cWriteShiftsByteOut : Prop :=
  ∀ (s : State) (b : Byte), s.ready .i2c →
    ∃ t, exec (.i2cWrite b) s = .next t ∧ ∀ env : Oracle, (∀ h, env .scl h = true) →
      ∃ a : Bool, Agrees env s.hist (i2cWriteEvents b a) ∧
        (seqRun env 56 t).finishedAs
          { s.view with
            value := if a then 0 else 1
            ack := !a
            pins := { s.pins with
              scl := { dir := .output, latch := some false }
              sda := { dir := .input, latch := if b = 0xFF then s.pins.sda.latch else some false } }
            hist := s.hist ++ i2cWriteEvents b a }

/-- R157: `I2C.READ` completes when no peer stretches the clock and SDA is released, with the byte that the environment
answers. -/
def Obligations.I2cReadShiftsByteIn : Prop :=
  ∀ (s : State) (ack : Bool), s.ready .i2c → s.dir .sda = .input →
    ∃ t, exec (.i2cRead ack) s = .next t ∧ ∀ env : Oracle, (∀ h, env .scl h = true) →
      ∃ x : Byte, Agrees env s.hist (i2cReadEvents ack x) ∧
        (seqRun env 57 t).finishedAs
          { s.view with
            value := x.setWidth 16
            pins := { s.pins with
              scl := { dir := .output, latch := some false }
              sda := { dir := .input, latch := if ack then some false else s.pins.sda.latch } }
            hist := s.hist ++ i2cReadEvents ack x }

/-- R370: `I2C.READ` with SDA driven low on entry reads 0x00, whatever the environment answers for SDA. -/
def Obligations.I2cReadWithSdaDrivenReadsZero : Prop :=
  ∀ (s : State) (ack : Bool), s.ready .i2c → s.dir .sda = .output →
    ∃ t, exec (.i2cRead ack) s = .next t ∧ ∀ env : Oracle, (∀ h, env .scl h = true) →
      (seqRun env 57 t).finishedAs
        { s.view with
          value := 0
          pins := { s.pins with
            scl := { dir := .output, latch := some false }
            sda := { dir := .input, latch := if ack then some false else s.pins.sda.latch } }
          hist := s.hist ++ i2cReadEvents ack 0 }

/-- R165: (a) the levels a receiver captures at the rises of SCL in the data bits of `I2C.WRITE b` are the bits of `b`,
most significant first; (b) with the ACK forced it ends with `ACK = 1`; (c) an `I2C.READ` whose samples are answered
with those bits returns `b`. -/
def Obligations.I2cLoopbackReturnsTheByte : Prop :=
  (∀ (s : State) (b : Byte), s.ready .i2c →
    ∃ t, exec (.i2cWrite b) s = .next t ∧ ∀ env : Oracle, Agrees env s.hist (i2cWriteEvents b false) →
      (seqRun env 56 t).hist = s.hist ++ i2cWriteEvents b false ∧
        (sdaAtClockHigh s.pins (i2cWriteEvents b false)).take 8 = (downFrom 8).map b.getLsbD ∧
        (seqRun env 56 t).busy = false ∧ (seqRun env 56 t).ack = true ∧ (seqRun env 56 t).resultWord = 1) ∧
  (∀ (s : State) (b : Byte) (ack : Bool), s.ready .i2c → s.dir .sda = .input →
    ∃ t, exec (.i2cRead ack) s = .next t ∧ ∀ env : Oracle, Agrees env s.hist (i2cReadEvents ack b) →
      (seqRun env 57 t).busy = false ∧ (seqRun env 57 t).value = b.setWidth 16)

/-- R158: the line state each I2C command ends in, from any state before it and whatever the environment does. -/
def Obligations.I2cEndLineStates : Prop :=
  ∀ (i : Instr) (s t : State) (env : Oracle) (n : Nat), s.free → exec i s = .next t → t.busy = true →
    (seqRun env n t).busy = false →
    ((i = .i2cInit ∨ i = .i2cStop) →
      (seqRun env n t).dir .scl = .input ∧ (seqRun env n t).dir .sda = .input) ∧
    (i = .i2cStart → (seqRun env n t).pins.scl = { dir := .output, latch := some false } ∧
      (seqRun env n t).pins.sda = { dir := .output, latch := some false }) ∧
    (i = .i2cRestart → (seqRun env n t).dir .scl = .input ∧
      (seqRun env n t).pins.sda = { dir := .output, latch := some false }) ∧
    (((∃ b, i = .i2cWrite b) ∨ ∃ ack, i = .i2cRead ack) →
      (seqRun env n t).pins.scl = { dir := .output, latch := some false } ∧ (seqRun env n t).dir .sda = .input)

/-- R160: at no point of an `I2C.WRITE` or `I2C.READ`, whatever the environment does, has it made a master-view START or
STOP, and every SDA event in them comes while SCL is driven low. -/
def Obligations.NoConditionInsideAByte : Prop :=
  ∀ (i : Instr) (s t : State) (env : Oracle) (n : Nat), ((∃ b, i = .i2cWrite b) ∨ ∃ ack, i = .i2cRead ack) →
    s.free → exec i s = .next t → t.busy = true →
    ∃ new, (seqRun env n t).hist = s.hist ++ new ∧ masterStarts s.pins new = 0 ∧ masterStops s.pins new = 0 ∧
      sdaMovesOnlyWhileClockLow s.pins new = true

/-- R152, R153, R154, R159: the events of a START or RESTART hold one master-view START, those of a STOP one master-view
STOP, from any ready state and whatever the environment does. -/
def Obligations.ConditionCommandsMakeTheirCondition : Prop :=
  ∀ s : State, s.ready .i2c →
    (∃ t, exec .i2cStart s = .next t ∧ ∀ env : Oracle, ∃ new,
      (seqRun env 9 t).busy = false ∧ (seqRun env 9 t).hist = s.hist ++ new ∧ masterStarts s.pins new = 1) ∧
    (∃ t, exec .i2cRestart s = .next t ∧ ∀ env : Oracle, ∃ new,
      (seqRun env 7 t).busy = false ∧ (seqRun env 7 t).hist = s.hist ++ new ∧ masterStarts s.pins new = 1) ∧
    (∃ t, exec .i2cStop s = .next t ∧ ∀ env : Oracle, ∃ new,
      (seqRun env 7 t).busy = false ∧ (seqRun env 7 t).hist = s.hist ++ new ∧ masterStops s.pins new = 1)

/-! ### Waits -/

/-- R118, R166: a wait on a line that reads otherwise for `k` polls and then as awaited emits `k + 1` polls, and `pc`
moves only at the last. -/
def Obligations.WaitPollsUntilTheLevel : Prop :=
  ∀ (env : Oracle) (s : State) (rest : List MicroStep) (l : WaitedLine) (v : Bool) (k : Nat),
    s.pc = ⟨[], .wait l v⟩ :: rest → s.dir l.line = .input →
    (∀ j < k, env l.line (s.hist ++ List.replicate j (.poll l.line (!v))) = !v) →
    env l.line (s.hist ++ List.replicate k (.poll l.line (!v))) = v →
    (∀ j ≤ k, (seqRun env j s).pc = s.pc ∧ (seqRun env j s).hist = s.hist ++ List.replicate j (.poll l.line (!v)) ∧
      (seqRun env j s).pins = s.pins) ∧
    seqRun env (k + 1) s =
      { s with pc := rest, v := v, hist := s.hist ++ List.replicate k (.poll l.line (!v)) ++ [.poll l.line v] }

/-- R372: a byte command whose clock never reads high, and a `UART.READ` whose start bit never comes, run for ever. -/
def Obligations.UnansweredWaitsHang : Prop :=
  ∀ (i : Instr) (s t : State) (env : Oracle), s.free → exec i s = .next t → t.busy = true →
    ((((∃ b, i = .i2cWrite b) ∨ ∃ ack, i = .i2cRead ack) ∧ ∀ h, env .scl h = false) ∨
      (i = .uartRead ∧ ∀ h, env .rx h = true)) →
    ∀ n, (seqRun env n t).busy = true

/-- R111, R372: every accepted command ends, if the environment answers each wait after finitely many polls. -/
def Obligations.CommandsEndOnAResponsiveBus : Prop :=
  ∀ (i : Instr) (s t : State) (env : Oracle), s.free → exec i s = .next t → t.busy = true →
    Responsive env .scl true → Responsive env .rx false → Responsive env .rx true →
    ∃ n, (seqRun env n t).busy = false ∧ (seqRun env n t).pc = []

/-! ### SPI commands -/

/-- R203: `SPI.INIT` completes, in the mode `SPI_INIT_MODE`. -/
def Obligations.SpiInitConfiguresLines : Prop :=
  ∀ s : State, s.free → s.cfg.valid = true →
    ∃ t, exec .spiInit s = .next t ∧ ∀ env : Oracle,
      ∃ m : BitVec 2, m.toNat = s.cfg.spiInitMode ∧
        (seqRun env 5 t).finishedAs
          { s.view with
            spiInit := true
            spi := modeCfg m
            pins := { s.pins with mosi := { dir := .output, latch := some false },
                                  miso := { s.pins.miso with dir := .input },
                                  sck := { dir := .output, latch := some (m.getLsbD 1) } }
            hist := s.hist ++ [.drive .mosi false, .dirIn .miso, .drive .sck (m.getLsbD 1)] }

/-- R204: `SPI.SETMODE m` completes. -/
def Obligations.SpiSetModeDrivesIdle : Prop :=
  ∀ (s : State) (m : BitVec 2), s.ready .spi →
    ∃ t, exec (.spiSetMode m) s = .next t ∧ ∀ env : Oracle,
      (seqRun env 3 t).finishedAs
        { s.view with
          spi := modeCfg m
          pins := { s.pins with sck := { dir := .output, latch := some (m.getLsbD 1) } }
          hist := s.hist ++ [.drive .sck (m.getLsbD 1)] }

/-- R205: `SPI.GETMODE` completes and touches no pin. -/
def Obligations.SpiGetModeReturnsMode : Prop :=
  ∀ s : State, s.ready .spi →
    ∃ t, exec .spiGetMode s = .next t ∧ ∀ env : Oracle,
      (seqRun env 1 t).finishedAs { s.view with value := s.spi.mode.setWidth 16 }

/-- R207, R208, R215: `SPI.WRITEB b` and `SPI.WRITEN v` complete. -/
def Obligations.SpiWritesShiftTheirOperand : Prop :=
  ∀ s : State, s.ready .spi → s.cfg.valid = true →
    (∀ b : Byte, ∃ t, exec (.spiWriteB b) s = .next t ∧ ∀ env : Oracle,
      (seqRun env 26 t).finishedAs
        { s.view with
          pins := { s.pins with sck := { dir := .output, latch := some s.spi.idle },
                                mosi := { dir := .output, latch := some (b.getLsbD 0) } }
          hist := s.hist ++ shiftOutEvents s.spi 8 (b.setWidth 16) }) ∧
    (∀ v : Half, v >>> s.cfg.spiWidth = 0 → ∃ t, exec (.spiWriteN v) s = .next t ∧ ∀ env : Oracle,
      (seqRun env (3 * s.cfg.spiWidth + 2) t).finishedAs
        { s.view with
          pins := { s.pins with sck := { dir := .output, latch := some s.spi.idle },
                                mosi := { dir := .output, latch := some (v.getLsbD 0) } }
          hist := s.hist ++ shiftOutEvents s.spi s.cfg.spiWidth v })

/-- R209, R210, R211, R215: `SPI.READB`, `SPI.READN` and `SPI.XMIT b` complete, with the bits that the environment
answers. -/
def Obligations.SpiReadsReturnSampledBits : Prop :=
  ∀ s : State, s.ready .spi → s.cfg.valid = true →
    (∃ t, exec .spiReadB s = .next t ∧ ∀ env : Oracle,
      ∃ x : Byte, Agrees env s.hist (shiftExchangeEvents s.spi 8 (fill 8 s.cfg.spiReadFill) (x.setWidth 16)) ∧
        (seqRun env 34 t).finishedAs
          { s.view with
            value := x.setWidth 16
            pins := { s.pins with sck := { dir := .output, latch := some s.spi.idle },
                                  mosi := { dir := .output, latch := some s.cfg.spiReadFill } }
            hist := s.hist ++ shiftExchangeEvents s.spi 8 (fill 8 s.cfg.spiReadFill) (x.setWidth 16) }) ∧
    (∃ t, exec .spiReadN s = .next t ∧ ∀ env : Oracle,
      ∃ x : Half, x >>> s.cfg.spiWidth = 0 ∧
        Agrees env s.hist (shiftExchangeEvents s.spi s.cfg.spiWidth (fill s.cfg.spiWidth s.cfg.spiReadFill) x) ∧
        (seqRun env (4 * s.cfg.spiWidth + 2) t).finishedAs
          { s.view with
            value := x
            pins := { s.pins with sck := { dir := .output, latch := some s.spi.idle },
                                  mosi := { dir := .output, latch := some s.cfg.spiReadFill } }
            hist := s.hist ++
              shiftExchangeEvents s.spi s.cfg.spiWidth (fill s.cfg.spiWidth s.cfg.spiReadFill) x }) ∧
    (∀ b : Byte, ∃ t, exec (.spiXmit b) s = .next t ∧ ∀ env : Oracle,
      ∃ x : Byte, Agrees env s.hist (shiftExchangeEvents s.spi 8 (b.setWidth 16) (x.setWidth 16)) ∧
        (seqRun env 34 t).finishedAs
          { s.view with
            value := x.setWidth 16
            pins := { s.pins with sck := { dir := .output, latch := some s.spi.idle },
                                  mosi := { dir := .output, latch := some (b.getLsbD 0) } }
            hist := s.hist ++ shiftExchangeEvents s.spi 8 (b.setWidth 16) (x.setWidth 16) })

/-- R216: with MOSI wired to MISO, `SPI.XMIT b` returns `b`, whatever the mode. -/
def Obligations.SpiLoopbackReturnsTheByte : Prop :=
  ∀ (s : State) (b : Byte), s.ready .spi →
    ∃ t, exec (.spiXmit b) s = .next t ∧ ∀ env : Oracle,
      (∀ h v, lastDriven .mosi h = some v → env .miso h = v) →
      (seqRun env 34 t).value = b.setWidth 16 ∧ (seqRun env 34 t).busy = false

/-- R218: after `SPI.SETMODE m`, SCK is driven to the idle level of `m`, and `SPI.GETMODE` returns `m`. -/
def Obligations.SpiModeRoundTrip : Prop :=
  ∀ (s : State) (m : BitVec 2) (env : Oracle), s.ready .spi →
    ∃ t, exec (.spiSetMode m) s = .next t ∧
      (seqRun env 3 t).pins.sck =
        { dir := .output, latch := some (if m = 0 ∨ m = 1 then false else true) } ∧
      ∃ u, exec .spiGetMode (seqRun env 3 t) = .next u ∧ (seqRun env 1 u).value = m.setWidth 16 ∧
        (seqRun env 1 u).busy = false

/-- R213: from its acceptance with SCK at the idle level to its end, a transfer of `n` bits changes the level of SCK
exactly `2n` times: `n` times onto the sampling level and `n` times onto the other. -/
def Obligations.SpiTransferMakesTwoEdgesPerBit : Prop :=
  ∀ (s : State) (m : BitVec 2) (i : Instr) (n : Nat), s.ready .spi → s.cfg.valid = true → s.spi = modeCfg m →
    s.latch .sck = some s.spi.idle → wellFormed s.cfg.spiWidth i = true → transferBits s.cfg i = some n →
    ∃ t, exec i s = .next t ∧ ∀ env : Oracle, ∃ new,
      (seqRun env (microprogram s.cfg s.spi i).length t).busy = false ∧
      (seqRun env (microprogram s.cfg s.spi i).length t).hist = s.hist ++ new ∧
      sckEdges (s.latch .sck) new = 2 * n ∧ sckEdgesOnto s.spi.sample (s.latch .sck) new = n ∧
      sckEdgesOnto (!s.spi.sample) (s.latch .sck) new = n

/-! ### UART commands -/

/-- R251: `UART.INIT` completes. -/
def Obligations.UartInitConfiguresLines : Prop :=
  ∀ s : State, s.free →
    ∃ t, exec .uartInit s = .next t ∧ ∀ env : Oracle,
      (seqRun env 3 t).finishedAs
        { s.view with
          uartInit := true
          pins := { s.pins with tx := { dir := .output, latch := some true }, rx := { s.pins.rx with dir := .input } }
          hist := s.hist ++ [.drive .tx true, .dirIn .rx] }

/-- R252: `UART.WRITE b` completes: the start bit, the data bits least significant first, the stop bit. -/
def Obligations.UartWriteSendsOneFrame : Prop :=
  ∀ (s : State) (b : Byte), s.ready .uart →
    ∃ t, exec (.uartWrite b) s = .next t ∧ ∀ env : Oracle,
      (seqRun env 21 t).finishedAs
        { s.view with
          pins := { s.pins with tx := { dir := .output, latch := some true } }
          hist := s.hist ++ uartWriteEvents b }

/-- R253, R254: `UART.READ` completes once the start bit is detected, after `q` and `p` polls that read otherwise, with
the byte that the environment answers, for both forms of the detection. -/
def Obligations.UartReadReturnsSampledByte : Prop :=
  ∀ s : State, s.ready .uart →
    ∃ t, exec .uartRead s = .next t ∧ ∀ (env : Oracle) (q p : Nat),
      Agrees env s.hist (startPolls s.cfg.uartStartDetect q p) →
      ∃ x : Byte, Agrees env s.hist (startPolls s.cfg.uartStartDetect q p ++ uartReadEvents x) ∧
        (seqRun env ((startPolls s.cfg.uartStartDetect q p).length + 17) t).finishedAs
          { s.view with
            value := x.setWidth 16
            hist := s.hist ++ startPolls s.cfg.uartStartDetect q p ++ uartReadEvents x }

/-! ### What a running command leaves alone -/

/-- R37: from its acceptance to its end, a command changes no line of another unit. -/
def Obligations.CommandsTouchOnlyTheirUnitsLines : Prop :=
  ∀ (i : Instr) (s t : State) (env : Oracle) (n : Nat) (l : Line), exec i s = .next t → s.pc = [] →
    l.unit ≠ unitOf i → (seqRun env n t).pins.get l = s.pins.get l

/-- The frame of a whole command (R23, R25, R26, R27, R28, R29, R32, R38): what an accepted command leaves unchanged after
any number of its steps, and what it leaves unchanged until its `μDONE`. -/
def Obligations.CommandFrame : Prop :=
  ∀ (i : Instr) (s t : State) (env : Oracle) (n : Nat), s.free → exec i s = .next t → t.busy = true →
    (∃ new, (seqRun env n t).hist = s.hist ++ new) ∧
    (seqRun env n t).fault = s.fault ∧ (seqRun env n t).fcode = s.fcode ∧ (seqRun env n t).cfg = s.cfg ∧
    (seqRun env n t).mem = s.mem ∧ (seqRun env n t).host = s.host ∧ (seqRun env n t).received = s.received ∧
    (seqRun env n t).composing = s.composing ∧ (seqRun env n t).spoiled = s.spoiled ∧
    (seqRun env n t).collected = s.collected ∧ (seqRun env n t).bus = s.bus ∧
    (returnsValue i = false ∨ (seqRun env n t).busy = true → (seqRun env n t).value = s.value) ∧
    (writesAck i = false ∨ (seqRun env n t).busy = true → (seqRun env n t).ack = s.ack) ∧
    (writesSpiCfg i = false → (seqRun env n t).spi = s.spi) ∧
    (usesShift i = false → (seqRun env n t).r = s.r) ∧ (hasBitLoop i = false → (seqRun env n t).i = s.i) ∧
    (writesAck i = false → (seqRun env n t).a = s.a) ∧ (returnsValue i = false → (seqRun env n t).v = s.v) ∧
    (∀ u, isInit i = false ∨ u ≠ unitOf i ∨ (seqRun env n t).busy = true →
      (seqRun env n t).initFlag u = s.initFlag u)

/-! ### Invariants -/

/-- R30: `SPICFG` holds a row of the mode table or is unset, after every step. -/
def Obligations.SpiCfgStaysLegal : Prop :=
  (∀ s t : State, s.SpiCfgLegal → step s = .next t → t.SpiCfgLegal) ∧
  (∀ s : State, s.SpiCfgLegal → s.spi.valid = true → s.spi.sample = (!s.spi.prop) ∧
    ((s.spi.mode = 0 ∨ s.spi.mode = 1) → s.spi.idle = false) ∧
    ((s.spi.mode = 2 ∨ s.spi.mode = 3) → s.spi.idle = true))

/-- R35, R36, R115, R150: SCL and SDA are never latched high, an output's latch has been written, and MISO and RX are never
driven, after every step. -/
def Obligations.DriveConventionsAreKept : Prop :=
  (∀ s t : State, s.PinsLegal → step s = .next t → t.PinsLegal) ∧
  (∀ s : State, s.PinsLegal → ∀ l, (l = .scl ∨ l = .sda) → s.dir l = .output → (s.pins.get l).drives = .low)

/-- `FCODE` is 0 exactly while `FAULT` is 0, after every step (R24, R321). -/
def Obligations.FaultCodeMatchesFaultBit : Prop :=
  ∀ s t : State, s.FaultLegal → step s = .next t → t.FaultLegal

/-- `s.i` stays within 0..16, after every step (R32). -/
def Obligations.LoopIndexStaysInRange : Prop :=
  ∀ s t : State, s.IndexLegal → step s = .next t → t.IndexLegal

/-- R25, R31, R112, R362: after every step, `BUSY`, `pc` and `s.cmd` agree, `pc` is a position in the microprogram of the
accepted command, and a line is driven only when its unit is initialised or its `INIT` runs. -/
def Obligations.RunningCommandStaysLegal : Prop :=
  ∀ s t : State, s.RunLegal → s.DriveLegal → step s = .next t → t.RunLegal ∧ t.DriveLegal

/-- R212: once `SPI.INIT` has completed, every command ends with SCK driven to the idle level; in particular SCK rests
there whenever no command runs. -/
def Obligations.ClockReturnsToIdle : Prop :=
  (∀ s t : State, s.RunLegal → s.ClockIdle → step s = .next t → t.ClockIdle) ∧
  (∀ s : State, s.ClockIdle → s.spiInit = true → s.pc = [] →
    s.pins.sck = { dir := .output, latch := some s.spi.idle })

/-- Host memory keeps its canonical form, which is the model's choice (notes/assumptions/7.md), after every step. -/
def Obligations.HostMemoryStaysCanonical : Prop :=
  ∀ s t : State, s.MemoryLegal → step s = .next t → t.MemoryLegal

/-- R40: every invariant holds of the reset state. That the loop index is in its range there rests on the model's choice
of `s.i`, which R40 leaves unspecified (notes/assumptions/2.md, DESIGN CHOICE), and that host memory is canonical on its
choice of no contents (notes/assumptions/7.md, DESIGN CHOICE). -/
def Obligations.ResetMeetsTheInvariants : Prop :=
  State.reset.SpiCfgLegal ∧ State.reset.PinsLegal ∧ State.reset.FaultLegal ∧ State.reset.IndexLegal ∧
  State.reset.RunLegal ∧ State.reset.DriveLegal ∧ State.reset.ClockIdle ∧ State.reset.MemoryLegal

/-- R38: a step appends to `H`, or takes the assertion of the reset input, which empties it, and only a micro-operation of
a running command appends. That a step, a reset included, keeps the configuration (R7) and the known answers of the bus
is the model's choice (notes/assumptions/3.md, 5.md and 8.md, DESIGN CHOICE). -/
def Obligations.HistoryOnlyGrows : Prop :=
  ∀ s t : State, step s = .next t →
    ((∃ new, t.hist = s.hist ++ new) ∨ (t.hist = [] ∧ ∃ u, s.due .assertReset u)) ∧
    (s.pc = [] → t.hist = s.hist ∨ (t.hist = [] ∧ ∃ u, s.due .assertReset u)) ∧ t.cfg = s.cfg ∧ t.bus = s.bus

/-! ### Composite commands and timing -/

/-- R291, R292, R304: the bytes of a value, sent in the host's order and joined again in the same order, give the
value back; joined in the other order they give the byte-reversed value. -/
def Obligations.ValueBytesRoundTrip : Prop :=
  ∀ (v : Value) (order : ByteOrder),
    joinBytes order (valueBytes order v.kind.size v.bits) = v.bits ∧
    joinBytes .big (valueBytes .little v.kind.size v.bits) =
      joinBytes .little (valueBytes .little v.kind.size v.bits).reverse ∧
    valueBytes .big v.kind.size v.bits = (valueBytes .little v.kind.size v.bits).reverse

/-- R293, R294, R304: a composite keeps each command's `RESULT.VALUE`; a composite read whose kept results are the bytes of
a value, in the host's order, hands that value to the host program; a composite write on I2C hands over bit 0 of each
kept result; nothing kept is left for a later composite. That a value received under `BIG` has its first byte as the most
significant is the model's (notes/assumptions/18.md, DEDUCED): the rules give the formula for `LITTLE` alone. -/
def Obligations.CompositeResultsAreDelivered : Prop :=
  ∀ s t : State, s.runnable = true → s.fault = false → s.spoiled = false →
    (s.due .collect t → step s = .next { t with collected := t.collected ++ [s.value] }) ∧
    (∀ v : Value, s.due (.deliver (.value v.kind)) t →
      s.collected = (wireBytes s.cfg.hostByteOrder v).map (fun b => b.setWidth 16) →
      step s = .next { t with received := t.received ++ [.value v.kind v.bits], collected := [] }) ∧
    (s.due (.deliver .acks) t →
      step s = .next { t with received := t.received ++ [.acks (s.collected.map fun x => x.getLsbD 0)],
                              collected := [] }) ∧
    (s.due (.deliver .nothing) t → step s = .next { t with collected := [] })

/-- R301: a program is refused exactly when it holds a `gets` beyond its capacity. R290: a composite's result is not
delivered, kept or stored once a fault has been recorded in it, also where the reset input has cleared the fault since: a
reset between the composite's accesses leaves it spoiled, which it stays until another composite begins, and nothing but
that makes a composite spoiled. That it stops there, at the end of a composite without a result too, and goes on with its
commands before that, is the model's (notes/assumptions/14.md, DEDUCED). -/
def Obligations.CompositeCommandsStop : Prop :=
  ∀ s : State, s.cfg.valid = true →
    (((∃ h ∈ s.host, ∃ a cap n, h.op = .composite (.gets a cap n) ∧ cap < n) ∨
        ∃ a cap n, .composite (.gets a cap n) ∈ s.composing ∧ cap < n) ↔ step s = .refused .getsOverCapacity) ∧
    (s.runnable = true → s.fault = true ∨ s.spoiled = true →
      ((∃ t, s.due .collect t) ∨ (∃ a t, s.due (.store a) t) ∨ ∃ d t, s.due (.deliver d) t) →
      step s = .fault .compositeAfterFault) ∧
    (s.runnable = true → ∀ t, s.due .assertReset t →
      ∃ u, step s = .next u ∧ u.fault = false ∧
        (u.spoiled = true ↔ s.spoiled = true ∨ (s.fault = true ∧ t.composing ≠ []))) ∧
    (∀ u, step s = .next u → (∀ t, ¬ s.due .assertReset t) → (∀ c t, ¬ s.due (.composite c) t) → u.spoiled = s.spoiled)

/-- R299: a turn of `puts` ends at a NUL, which is not sent; otherwise it sends the byte and goes on at the next address;
in a host memory without a NUL every turn is followed by another, so that it never ends. That the address wraps at the
end of the address space is the model's choice (notes/assumptions/15.md, DESIGN CHOICE); so is that a turn stops at a
byte nothing has written (notes/assumptions/7.md, DESIGN CHOICE), and it is the model's that it stops at an address of more
than `HOST_ADDR_WIDTH` bits (notes/assumptions/15.md, DEDUCED). -/
def Obligations.PutsSendsUntilNul : Prop :=
  ∀ (s t : State) (a : Nat), s.runnable = true → s.due (.putsFrom a) t →
    (a < 2 ^ s.cfg.hostAddrWidth →
      (s.mem.read a = some 0 → step s = .next t) ∧
      (∀ c, s.mem.read a = some c → c ≠ 0 → step s = .next { t with
        composing := issued (.uartWrite c) ++ [.putsFrom ((a + 1) % 2 ^ s.cfg.hostAddrWidth)] ++ t.composing }) ∧
      ((∀ b < 2 ^ s.cfg.hostAddrWidth, ∃ c, s.mem.read b = some c ∧ c ≠ 0) →
        ∃ u c b, step s = .next u ∧ u.composing = issued (.uartWrite c) ++ [.putsFrom b] ++ t.composing ∧
          b < 2 ^ u.cfg.hostAddrWidth ∧ u.mem = s.mem) ∧
      (s.mem.read a = none → step s = .fault (.hostMemoryUnwritten a))) ∧
    (2 ^ s.cfg.hostAddrWidth ≤ a → step s = .fault (.hostAddressOutOfSpace a))

/-- R291, R301: `MemWrite` of a received byte changes that byte of host memory and no other, and nothing else but what is
left of the host's program; at an address that does not exist (R60) it stops, which is the model's
(notes/assumptions/15.md, DEDUCED). -/
def Obligations.StoreWritesOneByte : Prop :=
  ∀ (s t : State) (a : Nat), s.runnable = true → s.fault = false → s.spoiled = false → s.due (.store a) t →
    (a < 2 ^ s.cfg.hostAddrWidth →
      ∃ m : Memory, step s = .next { s with host := t.host, composing := t.composing, mem := m } ∧
        m.read a = some (s.value.setWidth 8) ∧ ∀ a', a' ≠ a → m.read a' = s.mem.read a') ∧
    (2 ^ s.cfg.hostAddrWidth ≤ a → step s = .fault (.hostAddressOutOfSpace a))

/-- R375: the number of micro-operations of each command, with one poll per wait, and its delay total. -/
def Obligations.StepAndDelayTotals : Prop :=
  ∀ (c : Config) (spi : SpiCfg) (b : Byte) (v : Half) (ack : Bool) (m : BitVec 2),
    (microprogram c spi .i2cInit).length = 3 ∧ (microprogram c spi .i2cStart).length = 9 ∧
    (microprogram c spi .i2cStop).length = 7 ∧ (microprogram c spi .i2cRestart).length = 7 ∧
    (microprogram c spi (.i2cWrite b)).length = 56 ∧ (microprogram c spi (.i2cRead ack)).length = 57 ∧
    (microprogram c spi .spiInit).length = 5 ∧ (microprogram c spi (.spiSetMode m)).length = 3 ∧
    (microprogram c spi .spiGetMode).length = 1 ∧ (microprogram c spi (.spiWriteB b)).length = 26 ∧
    (1 ≤ c.spiWidth → (microprogram c spi (.spiWriteN v)).length = 3 * c.spiWidth + 2) ∧
    (microprogram c spi .spiReadB).length = 34 ∧ (microprogram c spi (.spiXmit b)).length = 34 ∧
    (1 ≤ c.spiWidth → (microprogram c spi .spiReadN).length = 4 * c.spiWidth + 2) ∧
    (microprogram c spi .uartInit).length = 3 ∧ (microprogram c spi (.uartWrite b)).length = 21 ∧
    (c.uartStartDetect = .level → (microprogram c spi .uartRead).length = 1 + 17) ∧
    (c.uartStartDetect = .edge → (microprogram c spi .uartRead).length = 2 + 17) ∧
    textDelay c (microprogram c spi .i2cStart) = 4 * c.tI2c ∧ textDelay c (microprogram c spi .i2cStop) = 3 * c.tI2c ∧
    textDelay c (microprogram c spi .i2cRestart) = 3 * c.tI2c ∧
    textDelay c (microprogram c spi (.i2cWrite b)) = 17 * c.tI2c ∧
    textDelay c (microprogram c spi (.i2cRead ack)) = 18 * c.tI2c ∧
    textDelay c (microprogram c spi (.uartWrite b)) = 10 * c.tBit ∧
    textDelay c (microprogram c spi .uartRead) = 17 / 2 * c.tBit ∧
    (∀ i, unitOf i = .spi ∨ isInit i = true → textDelay c (microprogram c spi i) = 0) ∧
    (∀ a, delayTotal c (i2cWriteEvents b a) = 17 * c.tI2c) ∧ delayTotal c (i2cReadEvents ack b) = 18 * c.tI2c ∧
    delayTotal c (uartWriteEvents b) = 10 * c.tBit ∧ delayTotal c (uartReadEvents b) = 17 / 2 * c.tBit ∧
    (c.valid = true → ∀ n h, leastTime c n h ≤ greatestTime c n h)

/-- R290 to R301: what each composite command expands into when the host's program comes to it, as the rules write it:
its commands, what is kept or stored after each, and what it delivers at its end. Every byte of an I2C read but the last
is acknowledged (R294); an I2C write goes on whatever the acknowledges (R303). The bytes under `BIG` rest on
notes/assumptions/18.md, the wrapping of addresses on notes/assumptions/15.md. Where reading a byte to send stops is the
model's: notes/assumptions/7.md for a byte nothing has written, 15.md for an address that does not exist. -/
def Obligations.CompositeCommandsExpand : Prop :=
  ∀ s t : State, s.runnable = true →
    let begins := fun (c : Composite) (ops : List HostOp) =>
      s.due (.composite c) t →
        step s = .next { t with collected := [], spoiled := false, composing := ops ++ t.composing }
    (∀ v : Value,
      begins (.i2cWrite (.value v))
        (((wireBytes s.cfg.hostByteOrder v).flatMap fun b => issued (.i2cWrite b) ++ [.collect]) ++ [.deliver .acks]) ∧
      begins (.spiWrite (.value v))
        (((wireBytes s.cfg.hostByteOrder v).flatMap fun b => issued (.spiWriteB b)) ++ [.deliver .nothing]) ∧
      begins (.uartWrite (.value v))
        (((wireBytes s.cfg.hostByteOrder v).flatMap fun b => issued (.uartWrite b)) ++ [.deliver .nothing])) ∧
    (∀ (k : Kind) (ackLast : Bool),
      begins (.i2cRead k ackLast .value)
        ((List.replicate (k.size - 1) (issued (.i2cRead true) ++ [.collect])).flatten ++ issued (.i2cRead ackLast) ++
          [.collect, .deliver (.value k)]) ∧
      begins (.spiRead k .value)
        ((List.replicate k.size (issued .spiReadB ++ [.collect])).flatten ++ [.deliver (.value k)]) ∧
      begins (.uartRead k .value)
        ((List.replicate k.size (issued .uartRead ++ [.collect])).flatten ++ [.deliver (.value k)])) ∧
    (∀ a, a < 2 ^ s.cfg.hostAddrWidth →
      (∀ k : Kind,
        begins (.i2cWrite (.memory k a))
          (((addressesFrom s.cfg a k.size).flatMap fun b => [.wait, .sendFrom .i2c b, .collect]) ++ [.deliver .acks]) ∧
        begins (.spiWrite (.memory k a))
          (((addressesFrom s.cfg a k.size).flatMap fun b => [.wait, .sendFrom .spi b]) ++ [.deliver .nothing]) ∧
        begins (.uartWrite (.memory k a))
          (((addressesFrom s.cfg a k.size).flatMap fun b => [.wait, .sendFrom .uart b]) ++ [.deliver .nothing]) ∧
        begins (.spiRead k (.memory a))
          (((addressesFrom s.cfg a k.size).flatMap fun b => issued .spiReadB ++ [.store b]) ++ [.deliver .nothing]) ∧
        begins (.uartRead k (.memory a))
          (((addressesFrom s.cfg a k.size).flatMap fun b => issued .uartRead ++ [.store b]) ++ [.deliver .nothing]) ∧
        ∀ ackLast : Bool, begins (.i2cRead k ackLast (.memory a))
          (((addressesFrom s.cfg a (k.size - 1)).flatMap fun b => issued (.i2cRead true) ++ [.store b]) ++
            issued (.i2cRead ackLast) ++
            [.store ((a + (k.size - 1)) % 2 ^ s.cfg.hostAddrWidth), .deliver .nothing])) ∧
      begins (.puts a) [.putsFrom a, .deliver .nothing] ∧
      begins (.writeLine a)
        ([.putsFrom a] ++ issued (.uartWrite 0x0D) ++ issued (.uartWrite 0x0A) ++ [.deliver .nothing]) ∧
      (∀ cap n, n ≤ cap → begins (.gets a cap n)
        (((addressesFrom s.cfg a n).flatMap fun b => issued .uartRead ++ [.store b]) ++ [.deliver .nothing])) ∧
      (∀ b, s.mem.read a = some b →
        (s.due (.sendFrom .i2c a) t → step s = .next { t with composing := issued (.i2cWrite b) ++ t.composing }) ∧
        (s.due (.sendFrom .spi a) t → step s = .next { t with composing := issued (.spiWriteB b) ++ t.composing }) ∧
        (s.due (.sendFrom .uart a) t → step s = .next { t with composing := issued (.uartWrite b) ++ t.composing })) ∧
      (∀ u, s.mem.read a = none → s.due (.sendFrom u a) t → step s = .fault (.hostMemoryUnwritten a))) ∧
    (∀ u a, 2 ^ s.cfg.hostAddrWidth ≤ a → s.due (.sendFrom u a) t → step s = .fault (.hostAddressOutOfSpace a))
end

