-- ==== Sys2Proof/Laws/Decode.lean ====
section
/-! SUPPORT. The fields of a command word built from its fields, and the two directions of the opcode table. -/

namespace Sys2Proof

section fields
variable (u : BitVec 2) (op : BitVec 4) (a : Bool) (m : BitVec 2) (d : Half)

/-- Each bit of a command word, read from the field it lies in. -/
theorem getLsbD_commandWord (i : Nat) :
    (commandWord u op a m d).getLsbD i =
      if i < 16 then d.getLsbD i
      else if i < 18 then m.getLsbD (i - 16)
      else if i < 25 then false
      else if i = 25 then a
      else if i < 30 then op.getLsbD (i - 26)
      else u.getLsbD (i - 30) := by
  simp only [commandWord, BitVec.getLsbD_append, BitVec.getLsbD_ofBool, BitVec.getLsbD_zero]
  by_cases h1 : i < 16
  · simp [h1]
  by_cases h2 : i < 18
  · simp [h1, h2, show i - 16 < 2 by omega]
  by_cases h3 : i < 25
  · simp [h1, h2, h3, show ¬ i - 16 < 2 by omega, show i - 16 - 2 < 7 by omega]
  by_cases h4 : i = 25
  · subst h4; simp
  by_cases h5 : i < 30
  · simp [h1, h2, h3, h4, h5, show ¬ i - 16 < 2 by omega, show ¬ i - 16 - 2 < 7 by omega,
      show ¬ i - 16 - 2 - 7 < 1 by omega, show i - 16 - 2 - 7 - 1 = i - 26 by omega]
    intro; omega
  · simp [h1, h2, h3, h4, h5, show ¬ i - 16 < 2 by omega, show ¬ i - 16 - 2 < 7 by omega,
      show ¬ i - 16 - 2 - 7 < 1 by omega, show ¬ i - 16 - 2 - 7 - 1 < 4 by omega,
      show i - 16 - 2 - 7 - 1 - 4 = i - 30 by omega]

@[simp] theorem unit_commandWord : Field.unit (commandWord u op a m d) = u := by
  ext i hi
  simp only [Field.unit, BitVec.getElem_extractLsb', getLsbD_commandWord]
  simp [show ¬ 30 + i < 16 by omega, show ¬ 30 + i < 18 by omega, show ¬ 30 + i < 25 by omega,
    show ¬ 30 + i = 25 by omega, BitVec.getLsbD_eq_getElem hi]

@[simp] theorem op_commandWord : Field.op (commandWord u op a m d) = op := by
  ext i hi
  simp only [Field.op, BitVec.getElem_extractLsb', getLsbD_commandWord]
  simp [show ¬ 26 + i < 16 by omega, show ¬ 26 + i < 18 by omega, show ¬ 26 + i < 25 by omega,
    show ¬ 26 + i = 25 by omega, show 26 + i < 30 by omega, BitVec.getLsbD_eq_getElem hi]

@[simp] theorem a_commandWord : Field.a (commandWord u op a m d) = a := by
  rw [Field.a, getLsbD_commandWord]; rfl

@[simp] theorem reserved_commandWord : Field.reserved (commandWord u op a m d) = 0 := by
  ext i hi
  simp only [Field.reserved, BitVec.getElem_extractLsb', getLsbD_commandWord]
  simp [show ¬ 18 + i < 16 by omega, show 18 + i < 25 by omega]

@[simp] theorem m_commandWord : Field.m (commandWord u op a m d) = m := by
  ext i hi
  simp only [Field.m, BitVec.getElem_extractLsb', getLsbD_commandWord]
  simp [show ¬ 16 + i < 16 by omega, show 16 + i < 18 by omega, BitVec.getLsbD_eq_getElem hi]

@[simp] theorem data_commandWord : Field.data (commandWord u op a m d) = d := by
  ext i hi
  simp only [Field.data, BitVec.getElem_extractLsb', getLsbD_commandWord]
  simp [hi]

end fields

/-- A word is the word of its fields when its reserved bits are 0. -/
theorem commandWord_of_fields (w : Word) (h : Field.reserved w = 0) :
    commandWord (Field.unit w) (Field.op w) (Field.a w) (Field.m w) (Field.data w) = w := by
  have hr : ∀ i, i < 7 → w.getLsbD (18 + i) = false := by
    intro i hi
    have := congrArg (fun x => x.getLsbD i) h
    simpa [Field.reserved, hi] using this
  apply BitVec.eq_of_getLsbD_eq
  intro i hi
  rw [getLsbD_commandWord]
  split
  · next h => simp [Field.data, h]
  split
  · next h => simp [Field.m, show i - 16 < 2 by omega, show 16 + (i - 16) = i by omega]
  split
  · next h => rw [← hr (i - 18) (by omega), show 18 + (i - 18) = i by omega]
  split
  · next h => simp [Field.a, h]
  split
  · next h => simp [Field.op, show i - 26 < 4 by omega, show 26 + (i - 26) = i by omega]
  · next h => simp [Field.unit, show i - 30 < 2 by omega, show 30 + (i - 30) = i by omega]

/-- The `UNIT` and `OP` of an opcode (R83). -/
def Opcode.fields : Opcode → BitVec 2 × BitVec 4
  | .i2cInit => (0, 0)
  | .i2cStart => (0, 1)
  | .i2cStop => (0, 2)
  | .i2cRestart => (0, 3)
  | .i2cWrite => (0, 4)
  | .i2cRead => (0, 5)
  | .spiInit => (1, 0)
  | .spiSetMode => (1, 1)
  | .spiGetMode => (1, 2)
  | .spiWriteB => (1, 3)
  | .spiWriteN => (1, 4)
  | .spiReadB => (1, 5)
  | .spiReadN => (1, 6)
  | .spiXmit => (1, 7)
  | .uartInit => (2, 0)
  | .uartWrite => (2, 1)
  | .uartRead => (2, 2)

@[simp] theorem opTable_fields (c : Opcode) : opTable c.fields.1 c.fields.2 = some c := by cases c <;> rfl

theorem opTable_eq_some : ∀ (u : BitVec 2) (op : BitVec 4) (c : Opcode),
    opTable u op = some c → (u, op) = c.fields := by
  intro u op c
  cases c <;> revert u op <;> decide

/-- A byte operand fits its width. -/
@[simp] theorem fitsWidth_byte (b : Byte) : fitsWidth 8 (b.setWidth 16) = true := by
  simp only [fitsWidth, decide_eq_true_eq]
  ext i hi
  simp

@[simp] theorem fitsWidth_zero (n : Nat) : fitsWidth n 0#16 = true := by simp [fitsWidth]

/-- A `DATA` field that fits 8 bits is the zero-extension of its low byte. -/
theorem setWidth_of_fitsWidth_byte {d : Half} (h : fitsWidth 8 d = true) : (d.setWidth 8).setWidth 16 = d := by
  simp only [fitsWidth, decide_eq_true_eq] at h
  have hd : ∀ i, d.getLsbD (8 + i) = false := by
    intro i
    have := congrArg (fun x => x.getLsbD i) h
    simpa using this
  ext i hi
  simp only [BitVec.getElem_setWidth, BitVec.getLsbD_setWidth]
  by_cases h8 : i < 8
  · simp [h8, BitVec.getLsbD_eq_getElem hi]
  · have := hd (i - 8)
    rw [show 8 + (i - 8) = i by omega] at this
    simp [h8, ← BitVec.getLsbD_eq_getElem, this]

/-- `DATA` fits no width 0 unless it is 0. -/
theorem eq_zero_of_fitsWidth_zero {d : Half} (h : fitsWidth 0 d = true) : d = 0#16 := by
  simpa [fitsWidth] using h

end Sys2Proof
end

