-- ==== Sys2Proof/Laws/State.lean ====
section
/-! SUPPORT. The fields of each updated state: one lemma per field per update, so that no later proof unfolds a record
update. A field an update changes in a way that depends on its argument has its lemmas in Laws/Ops.lean and
Laws/Sequencer.lean. -/

namespace Sys2Proof.Machine

/-! ### `State.emit` -/

@[simp] theorem emit_cfg (s : State) (e : Event) : (s.emit e).cfg = s.cfg := rfl
@[simp] theorem emit_value (s : State) (e : Event) : (s.emit e).value = s.value := rfl
@[simp] theorem emit_busy (s : State) (e : Event) : (s.emit e).busy = s.busy := rfl
@[simp] theorem emit_ack (s : State) (e : Event) : (s.emit e).ack = s.ack := rfl
@[simp] theorem emit_fault (s : State) (e : Event) : (s.emit e).fault = s.fault := rfl
@[simp] theorem emit_fcode (s : State) (e : Event) : (s.emit e).fcode = s.fcode := rfl
@[simp] theorem emit_i2cInit (s : State) (e : Event) : (s.emit e).i2cInit = s.i2cInit := rfl
@[simp] theorem emit_spiInit (s : State) (e : Event) : (s.emit e).spiInit = s.spiInit := rfl
@[simp] theorem emit_uartInit (s : State) (e : Event) : (s.emit e).uartInit = s.uartInit := rfl
@[simp] theorem emit_spi (s : State) (e : Event) : (s.emit e).spi = s.spi := rfl
@[simp] theorem emit_pc (s : State) (e : Event) : (s.emit e).pc = s.pc := rfl
@[simp] theorem emit_cmd (s : State) (e : Event) : (s.emit e).cmd = s.cmd := rfl
@[simp] theorem emit_i (s : State) (e : Event) : (s.emit e).i = s.i := rfl
@[simp] theorem emit_r (s : State) (e : Event) : (s.emit e).r = s.r := rfl
@[simp] theorem emit_a (s : State) (e : Event) : (s.emit e).a = s.a := rfl
@[simp] theorem emit_v (s : State) (e : Event) : (s.emit e).v = s.v := rfl
@[simp] theorem emit_pins (s : State) (e : Event) : (s.emit e).pins = s.pins := rfl
@[simp] theorem emit_hist (s : State) (e : Event) : (s.emit e).hist = s.hist ++ [e] := rfl
@[simp] theorem emit_bus (s : State) (e : Event) : (s.emit e).bus = s.bus := rfl
@[simp] theorem emit_host (s : State) (e : Event) : (s.emit e).host = s.host := rfl
@[simp] theorem emit_composing (s : State) (e : Event) : (s.emit e).composing = s.composing := rfl
@[simp] theorem emit_spoiled (s : State) (e : Event) : (s.emit e).spoiled = s.spoiled := rfl
@[simp] theorem emit_mem (s : State) (e : Event) : (s.emit e).mem = s.mem := rfl
@[simp] theorem emit_collected (s : State) (e : Event) : (s.emit e).collected = s.collected := rfl
@[simp] theorem emit_received (s : State) (e : Event) : (s.emit e).received = s.received := rfl

/-! ### `State.setPin` -/

@[simp] theorem setPin_cfg (s : State) (l : Line) (x : Pin) : (s.setPin l x).cfg = s.cfg := rfl
@[simp] theorem setPin_value (s : State) (l : Line) (x : Pin) : (s.setPin l x).value = s.value := rfl
@[simp] theorem setPin_busy (s : State) (l : Line) (x : Pin) : (s.setPin l x).busy = s.busy := rfl
@[simp] theorem setPin_ack (s : State) (l : Line) (x : Pin) : (s.setPin l x).ack = s.ack := rfl
@[simp] theorem setPin_fault (s : State) (l : Line) (x : Pin) : (s.setPin l x).fault = s.fault := rfl
@[simp] theorem setPin_fcode (s : State) (l : Line) (x : Pin) : (s.setPin l x).fcode = s.fcode := rfl
@[simp] theorem setPin_i2cInit (s : State) (l : Line) (x : Pin) : (s.setPin l x).i2cInit = s.i2cInit := rfl
@[simp] theorem setPin_spiInit (s : State) (l : Line) (x : Pin) : (s.setPin l x).spiInit = s.spiInit := rfl
@[simp] theorem setPin_uartInit (s : State) (l : Line) (x : Pin) : (s.setPin l x).uartInit = s.uartInit := rfl
@[simp] theorem setPin_spi (s : State) (l : Line) (x : Pin) : (s.setPin l x).spi = s.spi := rfl
@[simp] theorem setPin_pc (s : State) (l : Line) (x : Pin) : (s.setPin l x).pc = s.pc := rfl
@[simp] theorem setPin_cmd (s : State) (l : Line) (x : Pin) : (s.setPin l x).cmd = s.cmd := rfl
@[simp] theorem setPin_i (s : State) (l : Line) (x : Pin) : (s.setPin l x).i = s.i := rfl
@[simp] theorem setPin_r (s : State) (l : Line) (x : Pin) : (s.setPin l x).r = s.r := rfl
@[simp] theorem setPin_a (s : State) (l : Line) (x : Pin) : (s.setPin l x).a = s.a := rfl
@[simp] theorem setPin_v (s : State) (l : Line) (x : Pin) : (s.setPin l x).v = s.v := rfl
@[simp] theorem setPin_pins (s : State) (l : Line) (x : Pin) : (s.setPin l x).pins = s.pins.set l x := rfl
@[simp] theorem setPin_hist (s : State) (l : Line) (x : Pin) : (s.setPin l x).hist = s.hist := rfl
@[simp] theorem setPin_bus (s : State) (l : Line) (x : Pin) : (s.setPin l x).bus = s.bus := rfl
@[simp] theorem setPin_host (s : State) (l : Line) (x : Pin) : (s.setPin l x).host = s.host := rfl
@[simp] theorem setPin_composing (s : State) (l : Line) (x : Pin) : (s.setPin l x).composing = s.composing := rfl
@[simp] theorem setPin_spoiled (s : State) (l : Line) (x : Pin) : (s.setPin l x).spoiled = s.spoiled := rfl
@[simp] theorem setPin_mem (s : State) (l : Line) (x : Pin) : (s.setPin l x).mem = s.mem := rfl
@[simp] theorem setPin_collected (s : State) (l : Line) (x : Pin) : (s.setPin l x).collected = s.collected := rfl
@[simp] theorem setPin_received (s : State) (l : Line) (x : Pin) : (s.setPin l x).received = s.received := rfl

/-! ### `State.receive` -/

@[simp] theorem receive_cfg (s : State) (x : HostValue) : (s.receive x).cfg = s.cfg := rfl
@[simp] theorem receive_value (s : State) (x : HostValue) : (s.receive x).value = s.value := rfl
@[simp] theorem receive_busy (s : State) (x : HostValue) : (s.receive x).busy = s.busy := rfl
@[simp] theorem receive_ack (s : State) (x : HostValue) : (s.receive x).ack = s.ack := rfl
@[simp] theorem receive_fault (s : State) (x : HostValue) : (s.receive x).fault = s.fault := rfl
@[simp] theorem receive_fcode (s : State) (x : HostValue) : (s.receive x).fcode = s.fcode := rfl
@[simp] theorem receive_i2cInit (s : State) (x : HostValue) : (s.receive x).i2cInit = s.i2cInit := rfl
@[simp] theorem receive_spiInit (s : State) (x : HostValue) : (s.receive x).spiInit = s.spiInit := rfl
@[simp] theorem receive_uartInit (s : State) (x : HostValue) : (s.receive x).uartInit = s.uartInit := rfl
@[simp] theorem receive_spi (s : State) (x : HostValue) : (s.receive x).spi = s.spi := rfl
@[simp] theorem receive_pc (s : State) (x : HostValue) : (s.receive x).pc = s.pc := rfl
@[simp] theorem receive_cmd (s : State) (x : HostValue) : (s.receive x).cmd = s.cmd := rfl
@[simp] theorem receive_i (s : State) (x : HostValue) : (s.receive x).i = s.i := rfl
@[simp] theorem receive_r (s : State) (x : HostValue) : (s.receive x).r = s.r := rfl
@[simp] theorem receive_a (s : State) (x : HostValue) : (s.receive x).a = s.a := rfl
@[simp] theorem receive_v (s : State) (x : HostValue) : (s.receive x).v = s.v := rfl
@[simp] theorem receive_pins (s : State) (x : HostValue) : (s.receive x).pins = s.pins := rfl
@[simp] theorem receive_hist (s : State) (x : HostValue) : (s.receive x).hist = s.hist := rfl
@[simp] theorem receive_bus (s : State) (x : HostValue) : (s.receive x).bus = s.bus := rfl
@[simp] theorem receive_host (s : State) (x : HostValue) : (s.receive x).host = s.host := rfl
@[simp] theorem receive_composing (s : State) (x : HostValue) : (s.receive x).composing = s.composing := rfl
@[simp] theorem receive_spoiled (s : State) (x : HostValue) : (s.receive x).spoiled = s.spoiled := rfl
@[simp] theorem receive_mem (s : State) (x : HostValue) : (s.receive x).mem = s.mem := rfl
@[simp] theorem receive_collected (s : State) (x : HostValue) : (s.receive x).collected = s.collected := rfl
@[simp] theorem receive_received (s : State) (x : HostValue) : (s.receive x).received = s.received ++ [x] := rfl

/-! ### `State.compose` -/

@[simp] theorem compose_cfg (s : State) (ops : List HostOp) : (s.compose ops).cfg = s.cfg := rfl
@[simp] theorem compose_value (s : State) (ops : List HostOp) : (s.compose ops).value = s.value := rfl
@[simp] theorem compose_busy (s : State) (ops : List HostOp) : (s.compose ops).busy = s.busy := rfl
@[simp] theorem compose_ack (s : State) (ops : List HostOp) : (s.compose ops).ack = s.ack := rfl
@[simp] theorem compose_fault (s : State) (ops : List HostOp) : (s.compose ops).fault = s.fault := rfl
@[simp] theorem compose_fcode (s : State) (ops : List HostOp) : (s.compose ops).fcode = s.fcode := rfl
@[simp] theorem compose_i2cInit (s : State) (ops : List HostOp) : (s.compose ops).i2cInit = s.i2cInit := rfl
@[simp] theorem compose_spiInit (s : State) (ops : List HostOp) : (s.compose ops).spiInit = s.spiInit := rfl
@[simp] theorem compose_uartInit (s : State) (ops : List HostOp) : (s.compose ops).uartInit = s.uartInit := rfl
@[simp] theorem compose_spi (s : State) (ops : List HostOp) : (s.compose ops).spi = s.spi := rfl
@[simp] theorem compose_pc (s : State) (ops : List HostOp) : (s.compose ops).pc = s.pc := rfl
@[simp] theorem compose_cmd (s : State) (ops : List HostOp) : (s.compose ops).cmd = s.cmd := rfl
@[simp] theorem compose_i (s : State) (ops : List HostOp) : (s.compose ops).i = s.i := rfl
@[simp] theorem compose_r (s : State) (ops : List HostOp) : (s.compose ops).r = s.r := rfl
@[simp] theorem compose_a (s : State) (ops : List HostOp) : (s.compose ops).a = s.a := rfl
@[simp] theorem compose_v (s : State) (ops : List HostOp) : (s.compose ops).v = s.v := rfl
@[simp] theorem compose_pins (s : State) (ops : List HostOp) : (s.compose ops).pins = s.pins := rfl
@[simp] theorem compose_hist (s : State) (ops : List HostOp) : (s.compose ops).hist = s.hist := rfl
@[simp] theorem compose_bus (s : State) (ops : List HostOp) : (s.compose ops).bus = s.bus := rfl
@[simp] theorem compose_host (s : State) (ops : List HostOp) : (s.compose ops).host = s.host := rfl
@[simp] theorem compose_composing (s : State) (ops : List HostOp) : (s.compose ops).composing = ops ++ s.composing := rfl
@[simp] theorem compose_spoiled (s : State) (ops : List HostOp) : (s.compose ops).spoiled = s.spoiled := rfl
@[simp] theorem compose_mem (s : State) (ops : List HostOp) : (s.compose ops).mem = s.mem := rfl
@[simp] theorem compose_collected (s : State) (ops : List HostOp) : (s.compose ops).collected = s.collected := rfl
@[simp] theorem compose_received (s : State) (ops : List HostOp) : (s.compose ops).received = s.received := rfl

/-! ### `accept` -/

@[simp] theorem accept_cfg (i : Instr) (text : List MicroStep) (s : State) : (accept i text s).cfg = s.cfg := rfl
@[simp] theorem accept_value (i : Instr) (text : List MicroStep) (s : State) : (accept i text s).value = s.value := rfl
@[simp] theorem accept_busy (i : Instr) (text : List MicroStep) (s : State) : (accept i text s).busy = true := rfl
@[simp] theorem accept_ack (i : Instr) (text : List MicroStep) (s : State) : (accept i text s).ack = s.ack := rfl
@[simp] theorem accept_fault (i : Instr) (text : List MicroStep) (s : State) : (accept i text s).fault = s.fault := rfl
@[simp] theorem accept_fcode (i : Instr) (text : List MicroStep) (s : State) : (accept i text s).fcode = s.fcode := rfl
@[simp] theorem accept_i2cInit (i : Instr) (text : List MicroStep) (s : State) : (accept i text s).i2cInit = s.i2cInit := rfl
@[simp] theorem accept_spiInit (i : Instr) (text : List MicroStep) (s : State) : (accept i text s).spiInit = s.spiInit := rfl
@[simp] theorem accept_uartInit (i : Instr) (text : List MicroStep) (s : State) : (accept i text s).uartInit = s.uartInit := rfl
@[simp] theorem accept_spi (i : Instr) (text : List MicroStep) (s : State) : (accept i text s).spi = s.spi := rfl
@[simp] theorem accept_pc (i : Instr) (text : List MicroStep) (s : State) : (accept i text s).pc = text := rfl
@[simp] theorem accept_cmd (i : Instr) (text : List MicroStep) (s : State) : (accept i text s).cmd = some (encode i) := rfl
@[simp] theorem accept_i (i : Instr) (text : List MicroStep) (s : State) : (accept i text s).i = s.i := rfl
@[simp] theorem accept_r (i : Instr) (text : List MicroStep) (s : State) : (accept i text s).r = s.r := rfl
@[simp] theorem accept_a (i : Instr) (text : List MicroStep) (s : State) : (accept i text s).a = s.a := rfl
@[simp] theorem accept_v (i : Instr) (text : List MicroStep) (s : State) : (accept i text s).v = s.v := rfl
@[simp] theorem accept_pins (i : Instr) (text : List MicroStep) (s : State) : (accept i text s).pins = s.pins := rfl
@[simp] theorem accept_hist (i : Instr) (text : List MicroStep) (s : State) : (accept i text s).hist = s.hist := rfl
@[simp] theorem accept_bus (i : Instr) (text : List MicroStep) (s : State) : (accept i text s).bus = s.bus := rfl
@[simp] theorem accept_host (i : Instr) (text : List MicroStep) (s : State) : (accept i text s).host = s.host := rfl
@[simp] theorem accept_composing (i : Instr) (text : List MicroStep) (s : State) : (accept i text s).composing = s.composing := rfl
@[simp] theorem accept_spoiled (i : Instr) (text : List MicroStep) (s : State) : (accept i text s).spoiled = s.spoiled := rfl
@[simp] theorem accept_mem (i : Instr) (text : List MicroStep) (s : State) : (accept i text s).mem = s.mem := rfl
@[simp] theorem accept_collected (i : Instr) (text : List MicroStep) (s : State) : (accept i text s).collected = s.collected := rfl
@[simp] theorem accept_received (i : Instr) (text : List MicroStep) (s : State) : (accept i text s).received = s.received := rfl

/-! ### `raiseFault` -/

@[simp] theorem raiseFault_cfg (c : FaultCode) (s : State) : (raiseFault c s).cfg = s.cfg := by unfold raiseFault; split <;> simp_all
@[simp] theorem raiseFault_value (c : FaultCode) (s : State) : (raiseFault c s).value = s.value := by unfold raiseFault; split <;> simp_all
@[simp] theorem raiseFault_busy (c : FaultCode) (s : State) : (raiseFault c s).busy = s.busy := by unfold raiseFault; split <;> simp_all
@[simp] theorem raiseFault_ack (c : FaultCode) (s : State) : (raiseFault c s).ack = s.ack := by unfold raiseFault; split <;> simp_all
@[simp] theorem raiseFault_fault (c : FaultCode) (s : State) : (raiseFault c s).fault = true := by unfold raiseFault; split <;> simp_all
@[simp] theorem raiseFault_i2cInit (c : FaultCode) (s : State) : (raiseFault c s).i2cInit = s.i2cInit := by unfold raiseFault; split <;> simp_all
@[simp] theorem raiseFault_spiInit (c : FaultCode) (s : State) : (raiseFault c s).spiInit = s.spiInit := by unfold raiseFault; split <;> simp_all
@[simp] theorem raiseFault_uartInit (c : FaultCode) (s : State) : (raiseFault c s).uartInit = s.uartInit := by unfold raiseFault; split <;> simp_all
@[simp] theorem raiseFault_spi (c : FaultCode) (s : State) : (raiseFault c s).spi = s.spi := by unfold raiseFault; split <;> simp_all
@[simp] theorem raiseFault_pc (c : FaultCode) (s : State) : (raiseFault c s).pc = s.pc := by unfold raiseFault; split <;> simp_all
@[simp] theorem raiseFault_cmd (c : FaultCode) (s : State) : (raiseFault c s).cmd = s.cmd := by unfold raiseFault; split <;> simp_all
@[simp] theorem raiseFault_i (c : FaultCode) (s : State) : (raiseFault c s).i = s.i := by unfold raiseFault; split <;> simp_all
@[simp] theorem raiseFault_r (c : FaultCode) (s : State) : (raiseFault c s).r = s.r := by unfold raiseFault; split <;> simp_all
@[simp] theorem raiseFault_a (c : FaultCode) (s : State) : (raiseFault c s).a = s.a := by unfold raiseFault; split <;> simp_all
@[simp] theorem raiseFault_v (c : FaultCode) (s : State) : (raiseFault c s).v = s.v := by unfold raiseFault; split <;> simp_all
@[simp] theorem raiseFault_pins (c : FaultCode) (s : State) : (raiseFault c s).pins = s.pins := by unfold raiseFault; split <;> simp_all
@[simp] theorem raiseFault_hist (c : FaultCode) (s : State) : (raiseFault c s).hist = s.hist := by unfold raiseFault; split <;> simp_all
@[simp] theorem raiseFault_bus (c : FaultCode) (s : State) : (raiseFault c s).bus = s.bus := by unfold raiseFault; split <;> simp_all
@[simp] theorem raiseFault_host (c : FaultCode) (s : State) : (raiseFault c s).host = s.host := by unfold raiseFault; split <;> simp_all
@[simp] theorem raiseFault_composing (c : FaultCode) (s : State) : (raiseFault c s).composing = s.composing := by unfold raiseFault; split <;> simp_all
@[simp] theorem raiseFault_spoiled (c : FaultCode) (s : State) : (raiseFault c s).spoiled = s.spoiled := by unfold raiseFault; split <;> simp_all
@[simp] theorem raiseFault_mem (c : FaultCode) (s : State) : (raiseFault c s).mem = s.mem := by unfold raiseFault; split <;> simp_all
@[simp] theorem raiseFault_collected (c : FaultCode) (s : State) : (raiseFault c s).collected = s.collected := by unfold raiseFault; split <;> simp_all
@[simp] theorem raiseFault_received (c : FaultCode) (s : State) : (raiseFault c s).received = s.received := by unfold raiseFault; split <;> simp_all

/-! ### `State.setInitFlag` -/

@[simp] theorem setInitFlag_cfg (s : State) (u : SerialUnit) : (s.setInitFlag u).cfg = s.cfg := by cases u <;> rfl
@[simp] theorem setInitFlag_value (s : State) (u : SerialUnit) : (s.setInitFlag u).value = s.value := by cases u <;> rfl
@[simp] theorem setInitFlag_busy (s : State) (u : SerialUnit) : (s.setInitFlag u).busy = s.busy := by cases u <;> rfl
@[simp] theorem setInitFlag_ack (s : State) (u : SerialUnit) : (s.setInitFlag u).ack = s.ack := by cases u <;> rfl
@[simp] theorem setInitFlag_fault (s : State) (u : SerialUnit) : (s.setInitFlag u).fault = s.fault := by cases u <;> rfl
@[simp] theorem setInitFlag_fcode (s : State) (u : SerialUnit) : (s.setInitFlag u).fcode = s.fcode := by cases u <;> rfl
@[simp] theorem setInitFlag_spi (s : State) (u : SerialUnit) : (s.setInitFlag u).spi = s.spi := by cases u <;> rfl
@[simp] theorem setInitFlag_pc (s : State) (u : SerialUnit) : (s.setInitFlag u).pc = s.pc := by cases u <;> rfl
@[simp] theorem setInitFlag_cmd (s : State) (u : SerialUnit) : (s.setInitFlag u).cmd = s.cmd := by cases u <;> rfl
@[simp] theorem setInitFlag_i (s : State) (u : SerialUnit) : (s.setInitFlag u).i = s.i := by cases u <;> rfl
@[simp] theorem setInitFlag_r (s : State) (u : SerialUnit) : (s.setInitFlag u).r = s.r := by cases u <;> rfl
@[simp] theorem setInitFlag_a (s : State) (u : SerialUnit) : (s.setInitFlag u).a = s.a := by cases u <;> rfl
@[simp] theorem setInitFlag_v (s : State) (u : SerialUnit) : (s.setInitFlag u).v = s.v := by cases u <;> rfl
@[simp] theorem setInitFlag_pins (s : State) (u : SerialUnit) : (s.setInitFlag u).pins = s.pins := by cases u <;> rfl
@[simp] theorem setInitFlag_hist (s : State) (u : SerialUnit) : (s.setInitFlag u).hist = s.hist := by cases u <;> rfl
@[simp] theorem setInitFlag_bus (s : State) (u : SerialUnit) : (s.setInitFlag u).bus = s.bus := by cases u <;> rfl
@[simp] theorem setInitFlag_host (s : State) (u : SerialUnit) : (s.setInitFlag u).host = s.host := by cases u <;> rfl
@[simp] theorem setInitFlag_composing (s : State) (u : SerialUnit) : (s.setInitFlag u).composing = s.composing := by cases u <;> rfl
@[simp] theorem setInitFlag_spoiled (s : State) (u : SerialUnit) : (s.setInitFlag u).spoiled = s.spoiled := by cases u <;> rfl
@[simp] theorem setInitFlag_mem (s : State) (u : SerialUnit) : (s.setInitFlag u).mem = s.mem := by cases u <;> rfl
@[simp] theorem setInitFlag_collected (s : State) (u : SerialUnit) : (s.setInitFlag u).collected = s.collected := by cases u <;> rfl
@[simp] theorem setInitFlag_received (s : State) (u : SerialUnit) : (s.setInitFlag u).received = s.received := by cases u <;> rfl

/-! ### `assign` -/

@[simp] theorem assign_cfg (s : State) (x : Assign) : (assign s x).cfg = s.cfg := by cases x <;> rfl
@[simp] theorem assign_value (s : State) (x : Assign) : (assign s x).value = s.value := by cases x <;> rfl
@[simp] theorem assign_busy (s : State) (x : Assign) : (assign s x).busy = s.busy := by cases x <;> rfl
@[simp] theorem assign_ack (s : State) (x : Assign) : (assign s x).ack = s.ack := by cases x <;> rfl
@[simp] theorem assign_fault (s : State) (x : Assign) : (assign s x).fault = s.fault := by cases x <;> rfl
@[simp] theorem assign_fcode (s : State) (x : Assign) : (assign s x).fcode = s.fcode := by cases x <;> rfl
@[simp] theorem assign_i2cInit (s : State) (x : Assign) : (assign s x).i2cInit = s.i2cInit := by cases x <;> rfl
@[simp] theorem assign_spiInit (s : State) (x : Assign) : (assign s x).spiInit = s.spiInit := by cases x <;> rfl
@[simp] theorem assign_uartInit (s : State) (x : Assign) : (assign s x).uartInit = s.uartInit := by cases x <;> rfl
@[simp] theorem assign_spi (s : State) (x : Assign) : (assign s x).spi = s.spi := by cases x <;> rfl
@[simp] theorem assign_pc (s : State) (x : Assign) : (assign s x).pc = s.pc := by cases x <;> rfl
@[simp] theorem assign_cmd (s : State) (x : Assign) : (assign s x).cmd = s.cmd := by cases x <;> rfl
@[simp] theorem assign_a (s : State) (x : Assign) : (assign s x).a = s.a := by cases x <;> rfl
@[simp] theorem assign_v (s : State) (x : Assign) : (assign s x).v = s.v := by cases x <;> rfl
@[simp] theorem assign_pins (s : State) (x : Assign) : (assign s x).pins = s.pins := by cases x <;> rfl
@[simp] theorem assign_hist (s : State) (x : Assign) : (assign s x).hist = s.hist := by cases x <;> rfl
@[simp] theorem assign_bus (s : State) (x : Assign) : (assign s x).bus = s.bus := by cases x <;> rfl
@[simp] theorem assign_host (s : State) (x : Assign) : (assign s x).host = s.host := by cases x <;> rfl
@[simp] theorem assign_composing (s : State) (x : Assign) : (assign s x).composing = s.composing := by cases x <;> rfl
@[simp] theorem assign_spoiled (s : State) (x : Assign) : (assign s x).spoiled = s.spoiled := by cases x <;> rfl
@[simp] theorem assign_mem (s : State) (x : Assign) : (assign s x).mem = s.mem := by cases x <;> rfl
@[simp] theorem assign_collected (s : State) (x : Assign) : (assign s x).collected = s.collected := by cases x <;> rfl
@[simp] theorem assign_received (s : State) (x : Assign) : (assign s x).received = s.received := by cases x <;> rfl

/-! ### `storeSample` -/

@[simp] theorem storeSample_cfg (d : SampleDest) (b : Bool) (s : State) : (storeSample d b s).cfg = s.cfg := by cases d <;> rfl
@[simp] theorem storeSample_value (d : SampleDest) (b : Bool) (s : State) : (storeSample d b s).value = s.value := by cases d <;> rfl
@[simp] theorem storeSample_busy (d : SampleDest) (b : Bool) (s : State) : (storeSample d b s).busy = s.busy := by cases d <;> rfl
@[simp] theorem storeSample_ack (d : SampleDest) (b : Bool) (s : State) : (storeSample d b s).ack = s.ack := by cases d <;> rfl
@[simp] theorem storeSample_fault (d : SampleDest) (b : Bool) (s : State) : (storeSample d b s).fault = s.fault := by cases d <;> rfl
@[simp] theorem storeSample_fcode (d : SampleDest) (b : Bool) (s : State) : (storeSample d b s).fcode = s.fcode := by cases d <;> rfl
@[simp] theorem storeSample_i2cInit (d : SampleDest) (b : Bool) (s : State) : (storeSample d b s).i2cInit = s.i2cInit := by cases d <;> rfl
@[simp] theorem storeSample_spiInit (d : SampleDest) (b : Bool) (s : State) : (storeSample d b s).spiInit = s.spiInit := by cases d <;> rfl
@[simp] theorem storeSample_uartInit (d : SampleDest) (b : Bool) (s : State) : (storeSample d b s).uartInit = s.uartInit := by cases d <;> rfl
@[simp] theorem storeSample_spi (d : SampleDest) (b : Bool) (s : State) : (storeSample d b s).spi = s.spi := by cases d <;> rfl
@[simp] theorem storeSample_pc (d : SampleDest) (b : Bool) (s : State) : (storeSample d b s).pc = s.pc := by cases d <;> rfl
@[simp] theorem storeSample_cmd (d : SampleDest) (b : Bool) (s : State) : (storeSample d b s).cmd = s.cmd := by cases d <;> rfl
@[simp] theorem storeSample_i (d : SampleDest) (b : Bool) (s : State) : (storeSample d b s).i = s.i := by cases d <;> rfl
@[simp] theorem storeSample_v (d : SampleDest) (b : Bool) (s : State) : (storeSample d b s).v = s.v := by cases d <;> rfl
@[simp] theorem storeSample_pins (d : SampleDest) (b : Bool) (s : State) : (storeSample d b s).pins = s.pins := by cases d <;> rfl
@[simp] theorem storeSample_hist (d : SampleDest) (b : Bool) (s : State) : (storeSample d b s).hist = s.hist := by cases d <;> rfl
@[simp] theorem storeSample_bus (d : SampleDest) (b : Bool) (s : State) : (storeSample d b s).bus = s.bus := by cases d <;> rfl
@[simp] theorem storeSample_host (d : SampleDest) (b : Bool) (s : State) : (storeSample d b s).host = s.host := by cases d <;> rfl
@[simp] theorem storeSample_composing (d : SampleDest) (b : Bool) (s : State) : (storeSample d b s).composing = s.composing := by cases d <;> rfl
@[simp] theorem storeSample_spoiled (d : SampleDest) (b : Bool) (s : State) : (storeSample d b s).spoiled = s.spoiled := by cases d <;> rfl
@[simp] theorem storeSample_mem (d : SampleDest) (b : Bool) (s : State) : (storeSample d b s).mem = s.mem := by cases d <;> rfl
@[simp] theorem storeSample_collected (d : SampleDest) (b : Bool) (s : State) : (storeSample d b s).collected = s.collected := by cases d <;> rfl
@[simp] theorem storeSample_received (d : SampleDest) (b : Bool) (s : State) : (storeSample d b s).received = s.received := by cases d <;> rfl

/-! ### `microInput` -/

@[simp] theorem microInput_cfg (l : Line) (s : State) : (microInput l s).cfg = s.cfg := rfl
@[simp] theorem microInput_value (l : Line) (s : State) : (microInput l s).value = s.value := rfl
@[simp] theorem microInput_busy (l : Line) (s : State) : (microInput l s).busy = s.busy := rfl
@[simp] theorem microInput_ack (l : Line) (s : State) : (microInput l s).ack = s.ack := rfl
@[simp] theorem microInput_fault (l : Line) (s : State) : (microInput l s).fault = s.fault := rfl
@[simp] theorem microInput_fcode (l : Line) (s : State) : (microInput l s).fcode = s.fcode := rfl
@[simp] theorem microInput_i2cInit (l : Line) (s : State) : (microInput l s).i2cInit = s.i2cInit := rfl
@[simp] theorem microInput_spiInit (l : Line) (s : State) : (microInput l s).spiInit = s.spiInit := rfl
@[simp] theorem microInput_uartInit (l : Line) (s : State) : (microInput l s).uartInit = s.uartInit := rfl
@[simp] theorem microInput_spi (l : Line) (s : State) : (microInput l s).spi = s.spi := rfl
@[simp] theorem microInput_pc (l : Line) (s : State) : (microInput l s).pc = s.pc := rfl
@[simp] theorem microInput_cmd (l : Line) (s : State) : (microInput l s).cmd = s.cmd := rfl
@[simp] theorem microInput_i (l : Line) (s : State) : (microInput l s).i = s.i := rfl
@[simp] theorem microInput_r (l : Line) (s : State) : (microInput l s).r = s.r := rfl
@[simp] theorem microInput_a (l : Line) (s : State) : (microInput l s).a = s.a := rfl
@[simp] theorem microInput_v (l : Line) (s : State) : (microInput l s).v = s.v := rfl
@[simp] theorem microInput_pins (l : Line) (s : State) : (microInput l s).pins = s.pins.set l { dir := .input, latch := s.latch l } := rfl
@[simp] theorem microInput_hist (l : Line) (s : State) : (microInput l s).hist = s.hist ++ [.dirIn l] := rfl
@[simp] theorem microInput_bus (l : Line) (s : State) : (microInput l s).bus = s.bus := rfl
@[simp] theorem microInput_host (l : Line) (s : State) : (microInput l s).host = s.host := rfl
@[simp] theorem microInput_composing (l : Line) (s : State) : (microInput l s).composing = s.composing := rfl
@[simp] theorem microInput_spoiled (l : Line) (s : State) : (microInput l s).spoiled = s.spoiled := rfl
@[simp] theorem microInput_mem (l : Line) (s : State) : (microInput l s).mem = s.mem := rfl
@[simp] theorem microInput_collected (l : Line) (s : State) : (microInput l s).collected = s.collected := rfl
@[simp] theorem microInput_received (l : Line) (s : State) : (microInput l s).received = s.received := rfl

/-! ### `microLow` -/

@[simp] theorem microLow_cfg (l : OpenDrainLine) (s : State) : (microLow l s).cfg = s.cfg := rfl
@[simp] theorem microLow_value (l : OpenDrainLine) (s : State) : (microLow l s).value = s.value := rfl
@[simp] theorem microLow_busy (l : OpenDrainLine) (s : State) : (microLow l s).busy = s.busy := rfl
@[simp] theorem microLow_ack (l : OpenDrainLine) (s : State) : (microLow l s).ack = s.ack := rfl
@[simp] theorem microLow_fault (l : OpenDrainLine) (s : State) : (microLow l s).fault = s.fault := rfl
@[simp] theorem microLow_fcode (l : OpenDrainLine) (s : State) : (microLow l s).fcode = s.fcode := rfl
@[simp] theorem microLow_i2cInit (l : OpenDrainLine) (s : State) : (microLow l s).i2cInit = s.i2cInit := rfl
@[simp] theorem microLow_spiInit (l : OpenDrainLine) (s : State) : (microLow l s).spiInit = s.spiInit := rfl
@[simp] theorem microLow_uartInit (l : OpenDrainLine) (s : State) : (microLow l s).uartInit = s.uartInit := rfl
@[simp] theorem microLow_spi (l : OpenDrainLine) (s : State) : (microLow l s).spi = s.spi := rfl
@[simp] theorem microLow_pc (l : OpenDrainLine) (s : State) : (microLow l s).pc = s.pc := rfl
@[simp] theorem microLow_cmd (l : OpenDrainLine) (s : State) : (microLow l s).cmd = s.cmd := rfl
@[simp] theorem microLow_i (l : OpenDrainLine) (s : State) : (microLow l s).i = s.i := rfl
@[simp] theorem microLow_r (l : OpenDrainLine) (s : State) : (microLow l s).r = s.r := rfl
@[simp] theorem microLow_a (l : OpenDrainLine) (s : State) : (microLow l s).a = s.a := rfl
@[simp] theorem microLow_v (l : OpenDrainLine) (s : State) : (microLow l s).v = s.v := rfl
@[simp] theorem microLow_pins (l : OpenDrainLine) (s : State) : (microLow l s).pins = s.pins.set l.line { dir := .output, latch := some false } := rfl
@[simp] theorem microLow_hist (l : OpenDrainLine) (s : State) : (microLow l s).hist = s.hist ++ [.low l.line] := rfl
@[simp] theorem microLow_bus (l : OpenDrainLine) (s : State) : (microLow l s).bus = s.bus := rfl
@[simp] theorem microLow_host (l : OpenDrainLine) (s : State) : (microLow l s).host = s.host := rfl
@[simp] theorem microLow_composing (l : OpenDrainLine) (s : State) : (microLow l s).composing = s.composing := rfl
@[simp] theorem microLow_spoiled (l : OpenDrainLine) (s : State) : (microLow l s).spoiled = s.spoiled := rfl
@[simp] theorem microLow_mem (l : OpenDrainLine) (s : State) : (microLow l s).mem = s.mem := rfl
@[simp] theorem microLow_collected (l : OpenDrainLine) (s : State) : (microLow l s).collected = s.collected := rfl
@[simp] theorem microLow_received (l : OpenDrainLine) (s : State) : (microLow l s).received = s.received := rfl

/-! ### `microOut` -/

@[simp] theorem microOut_cfg (l : PushPullLine) (b : Bool) (s : State) : (microOut l b s).cfg = s.cfg := rfl
@[simp] theorem microOut_value (l : PushPullLine) (b : Bool) (s : State) : (microOut l b s).value = s.value := rfl
@[simp] theorem microOut_busy (l : PushPullLine) (b : Bool) (s : State) : (microOut l b s).busy = s.busy := rfl
@[simp] theorem microOut_ack (l : PushPullLine) (b : Bool) (s : State) : (microOut l b s).ack = s.ack := rfl
@[simp] theorem microOut_fault (l : PushPullLine) (b : Bool) (s : State) : (microOut l b s).fault = s.fault := rfl
@[simp] theorem microOut_fcode (l : PushPullLine) (b : Bool) (s : State) : (microOut l b s).fcode = s.fcode := rfl
@[simp] theorem microOut_i2cInit (l : PushPullLine) (b : Bool) (s : State) : (microOut l b s).i2cInit = s.i2cInit := rfl
@[simp] theorem microOut_spiInit (l : PushPullLine) (b : Bool) (s : State) : (microOut l b s).spiInit = s.spiInit := rfl
@[simp] theorem microOut_uartInit (l : PushPullLine) (b : Bool) (s : State) : (microOut l b s).uartInit = s.uartInit := rfl
@[simp] theorem microOut_spi (l : PushPullLine) (b : Bool) (s : State) : (microOut l b s).spi = s.spi := rfl
@[simp] theorem microOut_pc (l : PushPullLine) (b : Bool) (s : State) : (microOut l b s).pc = s.pc := rfl
@[simp] theorem microOut_cmd (l : PushPullLine) (b : Bool) (s : State) : (microOut l b s).cmd = s.cmd := rfl
@[simp] theorem microOut_i (l : PushPullLine) (b : Bool) (s : State) : (microOut l b s).i = s.i := rfl
@[simp] theorem microOut_r (l : PushPullLine) (b : Bool) (s : State) : (microOut l b s).r = s.r := rfl
@[simp] theorem microOut_a (l : PushPullLine) (b : Bool) (s : State) : (microOut l b s).a = s.a := rfl
@[simp] theorem microOut_v (l : PushPullLine) (b : Bool) (s : State) : (microOut l b s).v = s.v := rfl
@[simp] theorem microOut_pins (l : PushPullLine) (b : Bool) (s : State) : (microOut l b s).pins = s.pins.set l.line { dir := .output, latch := some b } := rfl
@[simp] theorem microOut_hist (l : PushPullLine) (b : Bool) (s : State) : (microOut l b s).hist = s.hist ++ [.drive l.line b] := rfl
@[simp] theorem microOut_bus (l : PushPullLine) (b : Bool) (s : State) : (microOut l b s).bus = s.bus := rfl
@[simp] theorem microOut_host (l : PushPullLine) (b : Bool) (s : State) : (microOut l b s).host = s.host := rfl
@[simp] theorem microOut_composing (l : PushPullLine) (b : Bool) (s : State) : (microOut l b s).composing = s.composing := rfl
@[simp] theorem microOut_spoiled (l : PushPullLine) (b : Bool) (s : State) : (microOut l b s).spoiled = s.spoiled := rfl
@[simp] theorem microOut_mem (l : PushPullLine) (b : Bool) (s : State) : (microOut l b s).mem = s.mem := rfl
@[simp] theorem microOut_collected (l : PushPullLine) (b : Bool) (s : State) : (microOut l b s).collected = s.collected := rfl
@[simp] theorem microOut_received (l : PushPullLine) (b : Bool) (s : State) : (microOut l b s).received = s.received := rfl

/-! ### `microSample` -/

@[simp] theorem microSample_cfg (env : Oracle) (l : SampledLine) (d : SampleDest) (s : State) : (microSample env l d s).cfg = s.cfg := by cases d <;> rfl
@[simp] theorem microSample_value (env : Oracle) (l : SampledLine) (d : SampleDest) (s : State) : (microSample env l d s).value = s.value := by cases d <;> rfl
@[simp] theorem microSample_busy (env : Oracle) (l : SampledLine) (d : SampleDest) (s : State) : (microSample env l d s).busy = s.busy := by cases d <;> rfl
@[simp] theorem microSample_ack (env : Oracle) (l : SampledLine) (d : SampleDest) (s : State) : (microSample env l d s).ack = s.ack := by cases d <;> rfl
@[simp] theorem microSample_fault (env : Oracle) (l : SampledLine) (d : SampleDest) (s : State) : (microSample env l d s).fault = s.fault := by cases d <;> rfl
@[simp] theorem microSample_fcode (env : Oracle) (l : SampledLine) (d : SampleDest) (s : State) : (microSample env l d s).fcode = s.fcode := by cases d <;> rfl
@[simp] theorem microSample_i2cInit (env : Oracle) (l : SampledLine) (d : SampleDest) (s : State) : (microSample env l d s).i2cInit = s.i2cInit := by cases d <;> rfl
@[simp] theorem microSample_spiInit (env : Oracle) (l : SampledLine) (d : SampleDest) (s : State) : (microSample env l d s).spiInit = s.spiInit := by cases d <;> rfl
@[simp] theorem microSample_uartInit (env : Oracle) (l : SampledLine) (d : SampleDest) (s : State) : (microSample env l d s).uartInit = s.uartInit := by cases d <;> rfl
@[simp] theorem microSample_spi (env : Oracle) (l : SampledLine) (d : SampleDest) (s : State) : (microSample env l d s).spi = s.spi := by cases d <;> rfl
@[simp] theorem microSample_pc (env : Oracle) (l : SampledLine) (d : SampleDest) (s : State) : (microSample env l d s).pc = s.pc := by cases d <;> rfl
@[simp] theorem microSample_cmd (env : Oracle) (l : SampledLine) (d : SampleDest) (s : State) : (microSample env l d s).cmd = s.cmd := by cases d <;> rfl
@[simp] theorem microSample_i (env : Oracle) (l : SampledLine) (d : SampleDest) (s : State) : (microSample env l d s).i = s.i := by cases d <;> rfl
@[simp] theorem microSample_v (env : Oracle) (l : SampledLine) (d : SampleDest) (s : State) : (microSample env l d s).v = readLine env l.line s := by cases d <;> rfl
@[simp] theorem microSample_pins (env : Oracle) (l : SampledLine) (d : SampleDest) (s : State) : (microSample env l d s).pins = s.pins := by cases d <;> rfl
@[simp] theorem microSample_hist (env : Oracle) (l : SampledLine) (d : SampleDest) (s : State) : (microSample env l d s).hist = s.hist ++ [.sample l.line (readLine env l.line s)] := by cases d <;> rfl
@[simp] theorem microSample_bus (env : Oracle) (l : SampledLine) (d : SampleDest) (s : State) : (microSample env l d s).bus = s.bus := by cases d <;> rfl
@[simp] theorem microSample_host (env : Oracle) (l : SampledLine) (d : SampleDest) (s : State) : (microSample env l d s).host = s.host := by cases d <;> rfl
@[simp] theorem microSample_composing (env : Oracle) (l : SampledLine) (d : SampleDest) (s : State) : (microSample env l d s).composing = s.composing := by cases d <;> rfl
@[simp] theorem microSample_spoiled (env : Oracle) (l : SampledLine) (d : SampleDest) (s : State) : (microSample env l d s).spoiled = s.spoiled := by cases d <;> rfl
@[simp] theorem microSample_mem (env : Oracle) (l : SampledLine) (d : SampleDest) (s : State) : (microSample env l d s).mem = s.mem := by cases d <;> rfl
@[simp] theorem microSample_collected (env : Oracle) (l : SampledLine) (d : SampleDest) (s : State) : (microSample env l d s).collected = s.collected := by cases d <;> rfl
@[simp] theorem microSample_received (env : Oracle) (l : SampledLine) (d : SampleDest) (s : State) : (microSample env l d s).received = s.received := by cases d <;> rfl

/-! ### `microPoll` -/

@[simp] theorem microPoll_cfg (l : WaitedLine) (u : Bool) (s : State) : (microPoll l u s).cfg = s.cfg := rfl
@[simp] theorem microPoll_value (l : WaitedLine) (u : Bool) (s : State) : (microPoll l u s).value = s.value := rfl
@[simp] theorem microPoll_busy (l : WaitedLine) (u : Bool) (s : State) : (microPoll l u s).busy = s.busy := rfl
@[simp] theorem microPoll_ack (l : WaitedLine) (u : Bool) (s : State) : (microPoll l u s).ack = s.ack := rfl
@[simp] theorem microPoll_fault (l : WaitedLine) (u : Bool) (s : State) : (microPoll l u s).fault = s.fault := rfl
@[simp] theorem microPoll_fcode (l : WaitedLine) (u : Bool) (s : State) : (microPoll l u s).fcode = s.fcode := rfl
@[simp] theorem microPoll_i2cInit (l : WaitedLine) (u : Bool) (s : State) : (microPoll l u s).i2cInit = s.i2cInit := rfl
@[simp] theorem microPoll_spiInit (l : WaitedLine) (u : Bool) (s : State) : (microPoll l u s).spiInit = s.spiInit := rfl
@[simp] theorem microPoll_uartInit (l : WaitedLine) (u : Bool) (s : State) : (microPoll l u s).uartInit = s.uartInit := rfl
@[simp] theorem microPoll_spi (l : WaitedLine) (u : Bool) (s : State) : (microPoll l u s).spi = s.spi := rfl
@[simp] theorem microPoll_pc (l : WaitedLine) (u : Bool) (s : State) : (microPoll l u s).pc = s.pc := rfl
@[simp] theorem microPoll_cmd (l : WaitedLine) (u : Bool) (s : State) : (microPoll l u s).cmd = s.cmd := rfl
@[simp] theorem microPoll_i (l : WaitedLine) (u : Bool) (s : State) : (microPoll l u s).i = s.i := rfl
@[simp] theorem microPoll_r (l : WaitedLine) (u : Bool) (s : State) : (microPoll l u s).r = s.r := rfl
@[simp] theorem microPoll_a (l : WaitedLine) (u : Bool) (s : State) : (microPoll l u s).a = s.a := rfl
@[simp] theorem microPoll_v (l : WaitedLine) (u : Bool) (s : State) : (microPoll l u s).v = u := rfl
@[simp] theorem microPoll_pins (l : WaitedLine) (u : Bool) (s : State) : (microPoll l u s).pins = s.pins := rfl
@[simp] theorem microPoll_hist (l : WaitedLine) (u : Bool) (s : State) : (microPoll l u s).hist = s.hist ++ [.poll l.line u] := rfl
@[simp] theorem microPoll_bus (l : WaitedLine) (u : Bool) (s : State) : (microPoll l u s).bus = s.bus := rfl
@[simp] theorem microPoll_host (l : WaitedLine) (u : Bool) (s : State) : (microPoll l u s).host = s.host := rfl
@[simp] theorem microPoll_composing (l : WaitedLine) (u : Bool) (s : State) : (microPoll l u s).composing = s.composing := rfl
@[simp] theorem microPoll_spoiled (l : WaitedLine) (u : Bool) (s : State) : (microPoll l u s).spoiled = s.spoiled := rfl
@[simp] theorem microPoll_mem (l : WaitedLine) (u : Bool) (s : State) : (microPoll l u s).mem = s.mem := rfl
@[simp] theorem microPoll_collected (l : WaitedLine) (u : Bool) (s : State) : (microPoll l u s).collected = s.collected := rfl
@[simp] theorem microPoll_received (l : WaitedLine) (u : Bool) (s : State) : (microPoll l u s).received = s.received := rfl

/-! ### `microDelay` -/

@[simp] theorem microDelay_cfg (c : DelayClass) (s : State) : (microDelay c s).cfg = s.cfg := rfl
@[simp] theorem microDelay_value (c : DelayClass) (s : State) : (microDelay c s).value = s.value := rfl
@[simp] theorem microDelay_busy (c : DelayClass) (s : State) : (microDelay c s).busy = s.busy := rfl
@[simp] theorem microDelay_ack (c : DelayClass) (s : State) : (microDelay c s).ack = s.ack := rfl
@[simp] theorem microDelay_fault (c : DelayClass) (s : State) : (microDelay c s).fault = s.fault := rfl
@[simp] theorem microDelay_fcode (c : DelayClass) (s : State) : (microDelay c s).fcode = s.fcode := rfl
@[simp] theorem microDelay_i2cInit (c : DelayClass) (s : State) : (microDelay c s).i2cInit = s.i2cInit := rfl
@[simp] theorem microDelay_spiInit (c : DelayClass) (s : State) : (microDelay c s).spiInit = s.spiInit := rfl
@[simp] theorem microDelay_uartInit (c : DelayClass) (s : State) : (microDelay c s).uartInit = s.uartInit := rfl
@[simp] theorem microDelay_spi (c : DelayClass) (s : State) : (microDelay c s).spi = s.spi := rfl
@[simp] theorem microDelay_pc (c : DelayClass) (s : State) : (microDelay c s).pc = s.pc := rfl
@[simp] theorem microDelay_cmd (c : DelayClass) (s : State) : (microDelay c s).cmd = s.cmd := rfl
@[simp] theorem microDelay_i (c : DelayClass) (s : State) : (microDelay c s).i = s.i := rfl
@[simp] theorem microDelay_r (c : DelayClass) (s : State) : (microDelay c s).r = s.r := rfl
@[simp] theorem microDelay_a (c : DelayClass) (s : State) : (microDelay c s).a = s.a := rfl
@[simp] theorem microDelay_v (c : DelayClass) (s : State) : (microDelay c s).v = s.v := rfl
@[simp] theorem microDelay_pins (c : DelayClass) (s : State) : (microDelay c s).pins = s.pins := rfl
@[simp] theorem microDelay_hist (c : DelayClass) (s : State) : (microDelay c s).hist = s.hist ++ [.delay c] := rfl
@[simp] theorem microDelay_bus (c : DelayClass) (s : State) : (microDelay c s).bus = s.bus := rfl
@[simp] theorem microDelay_host (c : DelayClass) (s : State) : (microDelay c s).host = s.host := rfl
@[simp] theorem microDelay_composing (c : DelayClass) (s : State) : (microDelay c s).composing = s.composing := rfl
@[simp] theorem microDelay_spoiled (c : DelayClass) (s : State) : (microDelay c s).spoiled = s.spoiled := rfl
@[simp] theorem microDelay_mem (c : DelayClass) (s : State) : (microDelay c s).mem = s.mem := rfl
@[simp] theorem microDelay_collected (c : DelayClass) (s : State) : (microDelay c s).collected = s.collected := rfl
@[simp] theorem microDelay_received (c : DelayClass) (s : State) : (microDelay c s).received = s.received := rfl

/-! ### `microSetMode` -/

@[simp] theorem microSetMode_cfg (m : BitVec 2) (s : State) : (microSetMode m s).cfg = s.cfg := rfl
@[simp] theorem microSetMode_value (m : BitVec 2) (s : State) : (microSetMode m s).value = s.value := rfl
@[simp] theorem microSetMode_busy (m : BitVec 2) (s : State) : (microSetMode m s).busy = s.busy := rfl
@[simp] theorem microSetMode_ack (m : BitVec 2) (s : State) : (microSetMode m s).ack = s.ack := rfl
@[simp] theorem microSetMode_fault (m : BitVec 2) (s : State) : (microSetMode m s).fault = s.fault := rfl
@[simp] theorem microSetMode_fcode (m : BitVec 2) (s : State) : (microSetMode m s).fcode = s.fcode := rfl
@[simp] theorem microSetMode_i2cInit (m : BitVec 2) (s : State) : (microSetMode m s).i2cInit = s.i2cInit := rfl
@[simp] theorem microSetMode_spiInit (m : BitVec 2) (s : State) : (microSetMode m s).spiInit = s.spiInit := rfl
@[simp] theorem microSetMode_uartInit (m : BitVec 2) (s : State) : (microSetMode m s).uartInit = s.uartInit := rfl
@[simp] theorem microSetMode_spi (m : BitVec 2) (s : State) : (microSetMode m s).spi = modeCfg m := rfl
@[simp] theorem microSetMode_pc (m : BitVec 2) (s : State) : (microSetMode m s).pc = s.pc := rfl
@[simp] theorem microSetMode_cmd (m : BitVec 2) (s : State) : (microSetMode m s).cmd = s.cmd := rfl
@[simp] theorem microSetMode_i (m : BitVec 2) (s : State) : (microSetMode m s).i = s.i := rfl
@[simp] theorem microSetMode_r (m : BitVec 2) (s : State) : (microSetMode m s).r = s.r := rfl
@[simp] theorem microSetMode_a (m : BitVec 2) (s : State) : (microSetMode m s).a = s.a := rfl
@[simp] theorem microSetMode_v (m : BitVec 2) (s : State) : (microSetMode m s).v = s.v := rfl
@[simp] theorem microSetMode_pins (m : BitVec 2) (s : State) : (microSetMode m s).pins = s.pins := rfl
@[simp] theorem microSetMode_hist (m : BitVec 2) (s : State) : (microSetMode m s).hist = s.hist := rfl
@[simp] theorem microSetMode_bus (m : BitVec 2) (s : State) : (microSetMode m s).bus = s.bus := rfl
@[simp] theorem microSetMode_host (m : BitVec 2) (s : State) : (microSetMode m s).host = s.host := rfl
@[simp] theorem microSetMode_composing (m : BitVec 2) (s : State) : (microSetMode m s).composing = s.composing := rfl
@[simp] theorem microSetMode_spoiled (m : BitVec 2) (s : State) : (microSetMode m s).spoiled = s.spoiled := rfl
@[simp] theorem microSetMode_mem (m : BitVec 2) (s : State) : (microSetMode m s).mem = s.mem := rfl
@[simp] theorem microSetMode_collected (m : BitVec 2) (s : State) : (microSetMode m s).collected = s.collected := rfl
@[simp] theorem microSetMode_received (m : BitVec 2) (s : State) : (microSetMode m s).received = s.received := rfl

/-! ### `doneUpdate` -/

@[simp] theorem doneUpdate_cfg (s : State) (x : DoneUpdate) : (doneUpdate s x).cfg = s.cfg := by cases x <;> simp [doneUpdate]
@[simp] theorem doneUpdate_busy (s : State) (x : DoneUpdate) : (doneUpdate s x).busy = s.busy := by cases x <;> simp [doneUpdate]
@[simp] theorem doneUpdate_fault (s : State) (x : DoneUpdate) : (doneUpdate s x).fault = s.fault := by cases x <;> simp [doneUpdate]
@[simp] theorem doneUpdate_fcode (s : State) (x : DoneUpdate) : (doneUpdate s x).fcode = s.fcode := by cases x <;> simp [doneUpdate]
@[simp] theorem doneUpdate_spi (s : State) (x : DoneUpdate) : (doneUpdate s x).spi = s.spi := by cases x <;> simp [doneUpdate]
@[simp] theorem doneUpdate_pc (s : State) (x : DoneUpdate) : (doneUpdate s x).pc = s.pc := by cases x <;> simp [doneUpdate]
@[simp] theorem doneUpdate_cmd (s : State) (x : DoneUpdate) : (doneUpdate s x).cmd = s.cmd := by cases x <;> simp [doneUpdate]
@[simp] theorem doneUpdate_i (s : State) (x : DoneUpdate) : (doneUpdate s x).i = s.i := by cases x <;> simp [doneUpdate]
@[simp] theorem doneUpdate_r (s : State) (x : DoneUpdate) : (doneUpdate s x).r = s.r := by cases x <;> simp [doneUpdate]
@[simp] theorem doneUpdate_a (s : State) (x : DoneUpdate) : (doneUpdate s x).a = s.a := by cases x <;> simp [doneUpdate]
@[simp] theorem doneUpdate_v (s : State) (x : DoneUpdate) : (doneUpdate s x).v = s.v := by cases x <;> simp [doneUpdate]
@[simp] theorem doneUpdate_pins (s : State) (x : DoneUpdate) : (doneUpdate s x).pins = s.pins := by cases x <;> simp [doneUpdate]
@[simp] theorem doneUpdate_hist (s : State) (x : DoneUpdate) : (doneUpdate s x).hist = s.hist := by cases x <;> simp [doneUpdate]
@[simp] theorem doneUpdate_bus (s : State) (x : DoneUpdate) : (doneUpdate s x).bus = s.bus := by cases x <;> simp [doneUpdate]
@[simp] theorem doneUpdate_host (s : State) (x : DoneUpdate) : (doneUpdate s x).host = s.host := by cases x <;> simp [doneUpdate]
@[simp] theorem doneUpdate_composing (s : State) (x : DoneUpdate) : (doneUpdate s x).composing = s.composing := by cases x <;> simp [doneUpdate]
@[simp] theorem doneUpdate_spoiled (s : State) (x : DoneUpdate) : (doneUpdate s x).spoiled = s.spoiled := by cases x <;> simp [doneUpdate]
@[simp] theorem doneUpdate_mem (s : State) (x : DoneUpdate) : (doneUpdate s x).mem = s.mem := by cases x <;> simp [doneUpdate]
@[simp] theorem doneUpdate_collected (s : State) (x : DoneUpdate) : (doneUpdate s x).collected = s.collected := by cases x <;> simp [doneUpdate]
@[simp] theorem doneUpdate_received (s : State) (x : DoneUpdate) : (doneUpdate s x).received = s.received := by cases x <;> simp [doneUpdate]

end Sys2Proof.Machine
end

