-- ==== Sys2Proof/Laws/Memory.lean ====
section
/-! SUPPORT. Host memory: a read after a write, and the canonical form. -/

namespace Sys2Proof.Machine

@[simp] theorem Memory.read_write_same (m : Memory) (a : Nat) (b : Byte) : (m.write a b).read a = some b := by
  induction m with
  | nil => simp [Memory.write, Memory.read]
  | cons c rest ih =>
    unfold Memory.write
    split
    · simp [Memory.read]
    · split
      · simp [Memory.read]
      · next h2 =>
        have : c.1 ≠ a := fun h => h2 h.symm
        simp [Memory.read, this, ih]

theorem Memory.read_write_other (m : Memory) {a a' : Nat} (b : Byte) (h : a' ≠ a) :
    (m.write a b).read a' = m.read a' := by
  have hne : ¬ a = a' := fun e => h e.symm
  induction m with
  | nil => simp [Memory.write, Memory.read, hne]
  | cons c rest ih =>
    unfold Memory.write
    split
    · simp [Memory.read, hne]
    · split
      · next h2 => subst h2; simp [Memory.read, hne]
      · simp [Memory.read, ih]

/-- Every address of a canonical tail lies above its head. -/
theorem Memory.wf_cons {c : Host.Cell} {rest : Memory} :
    Memory.wf (c :: rest) = true ↔ (∀ d ∈ rest, c.1 < d.1) ∧ Memory.wf rest = true := by
  induction rest generalizing c with
  | nil => simp [Memory.wf]
  | cons d rest ih =>
    simp only [Memory.wf, Bool.and_eq_true, decide_eq_true_eq, List.mem_cons, forall_eq_or_imp]
    constructor
    · rintro ⟨h1, h2⟩
      have h3 := (ih (c := d)).1 h2
      exact ⟨⟨h1, fun x hx => Nat.lt_trans h1 (h3.1 x hx)⟩, h2⟩
    · rintro ⟨⟨h1, _⟩, h2⟩
      exact ⟨h1, h2⟩

theorem Memory.mem_write {m : Memory} {a : Nat} {b : Byte} {x : Host.Cell} (h : x ∈ m.write a b) :
    x = (a, b) ∨ x ∈ m := by
  induction m with
  | nil => simpa [Memory.write] using h
  | cons c rest ih =>
    unfold Memory.write at h
    split at h
    · simpa using h
    · split at h
      · rcases List.mem_cons.1 h with h | h
        · exact .inl h
        · exact .inr (List.mem_cons_of_mem _ h)
      · rcases List.mem_cons.1 h with h | h
        · exact .inr (h ▸ List.mem_cons_self)
        · exact (ih h).imp_right (List.mem_cons_of_mem _)

/-- A write keeps the canonical form. -/
theorem Memory.wf_write {m : Memory} (a : Nat) (b : Byte) (h : m.wf = true) : (m.write a b).wf = true := by
  induction m with
  | nil => rfl
  | cons c rest ih =>
    obtain ⟨h1, h2⟩ := Memory.wf_cons.1 h
    unfold Memory.write
    split
    · next hlt =>
      refine Memory.wf_cons.2 ⟨fun x hx => ?_, h⟩
      rcases List.mem_cons.1 hx with rfl | hx
      · exact hlt
      · exact Nat.lt_trans hlt (h1 x hx)
    · split
      · next heq => exact Memory.wf_cons.2 ⟨fun x hx => heq ▸ h1 x hx, h2⟩
      · refine Memory.wf_cons.2 ⟨fun x hx => ?_, ih h2⟩
        rcases Memory.mem_write hx with rfl | hx
        · show c.1 < a; omega
        · exact h1 x hx

/-- The memory of the reset state is canonical. -/
theorem Memory.wf_reset : State.reset.mem.wf = true := rfl

/-- The addresses a composite forms from an address exist. -/
theorem hostAddressExists_hostAddress {c : Config} {a : Nat} (j : Nat) (h : hostAddressExists c a = true) :
    hostAddressExists c (hostAddress c a j) = true := by
  have hlt : (a + j) % 2 ^ c.hostAddrWidth < 2 ^ c.hostAddrWidth := Nat.mod_lt _ (by positivity)
  simp only [hostAddress, h, if_true]
  simpa [hostAddressExists] using hlt

/-- Everything `MemRead` can do: hand over the byte, or stop at an address that does not exist or was never written. -/
theorem memRead_cases (a : Nat) (s : State) (k : Byte → Host.Outcome State Fault Refusal) :
    (∃ b, hostAddressExists s.cfg a = true ∧ s.mem.read a = some b ∧ memRead a s k = k b) ∨
    (hostAddressExists s.cfg a = true ∧ s.mem.read a = none ∧ memRead a s k = .fault (.hostMemoryUnwritten a)) ∨
    (hostAddressExists s.cfg a = false ∧ memRead a s k = .fault (.hostAddressOutOfSpace a)) := by
  unfold memRead
  cases hx : hostAddressExists s.cfg a
  · simp
  · cases hr : s.mem.read a <;> simp

/-- A `MemWrite` that answers a next state changes host memory at its address and nothing else. -/
theorem memWrite_next {a : Nat} {b : Byte} {s t : State} (h : memWrite a b s = .next t) :
    t = { s with mem := s.mem.write a b } := by
  unfold memWrite at h
  split at h
  · exact (Host.Outcome.next.inj h).symm
  · exact absurd h (by simp)

end Sys2Proof.Machine
end

