-- ==== Sys2Proof/Laws/Ops.lean ====
section
/-! SUPPORT. What the shared operations of Machine/Ops.lean do: pins, faults, reset, issuing a command. -/

namespace Sys2Proof.Machine

/-! ### Pins -/

@[simp] theorem Pins.get_set_same (p : Pins) (l : Line) (x : Pin) : (p.set l x).get l = x := by cases l <;> rfl

theorem Pins.get_set_other (p : Pins) {l l' : Line} (x : Pin) (h : l' ≠ l) : (p.set l x).get l' = p.get l' := by
  cases l <;> cases l' <;> first | rfl | exact absurd rfl h

theorem Pins.get_set (p : Pins) (l l' : Line) (x : Pin) :
    (p.set l x).get l' = if l' = l then x else p.get l' := by
  split
  · next h => subst h; simp
  · next h => exact p.get_set_other x h

/-- Two pin states with the same pin on every line are equal. -/
theorem Pins.ext_get {p q : Pins} (h : ∀ l, p.get l = q.get l) : p = q := by
  cases p; cases q
  have h1 := h .scl; have h2 := h .sda; have h3 := h .sck; have h4 := h .mosi; have h5 := h .miso
  have h6 := h .tx; have h7 := h .rx
  simp only [Pins.get] at h1 h2 h3 h4 h5 h6 h7
  subst h1 h2 h3 h4 h5 h6 h7
  rfl

/-! ### Faults -/

theorem raiseFault_of_fault {s : State} (c : FaultCode) (h : s.fault = true) : raiseFault c s = s := by
  simp [raiseFault, h]

theorem raiseFault_of_free {s : State} (c : FaultCode) (h : s.fault = false) :
    raiseFault c s = { s with fault := true, fcode := c } := by
  simp [raiseFault, h]

theorem raiseFault_fcode (c : FaultCode) (s : State) :
    (raiseFault c s).fcode = if s.fault then s.fcode else c := by
  unfold raiseFault; split <;> rfl

/-- Receiving a value and raising a fault do not touch the same fields. -/
theorem raiseFault_receive (c : FaultCode) (s : State) (x : HostValue) :
    raiseFault c (s.receive x) = (raiseFault c s).receive x := by
  unfold raiseFault
  have : (s.receive x).fault = s.fault := rfl
  rw [this]; split <;> rfl

/-! ### Reset -/

@[simp] theorem assertReset_cfg (s : State) : (assertReset s).cfg = s.cfg := rfl
@[simp] theorem assertReset_view (s : State) :
    ((assertReset s).value, (assertReset s).busy, (assertReset s).ack, (assertReset s).fault, (assertReset s).fcode) =
      (0, false, false, false, .none) := rfl
@[simp] theorem assertReset_pc (s : State) : (assertReset s).pc = [] := rfl
@[simp] theorem assertReset_cmd (s : State) : (assertReset s).cmd = none := rfl
@[simp] theorem assertReset_hist (s : State) : (assertReset s).hist = [] := rfl
@[simp] theorem assertReset_spi (s : State) : (assertReset s).spi = SpiCfg.reset := rfl
@[simp] theorem assertReset_pins (s : State) : (assertReset s).pins = State.reset.pins := rfl
@[simp] theorem assertReset_initFlag (s : State) (u : SerialUnit) : (assertReset s).initFlag u = false := by
  cases u <;> rfl
@[simp] theorem assertReset_bus (s : State) : (assertReset s).bus = s.bus := rfl
@[simp] theorem assertReset_host (s : State) : (assertReset s).host = s.host := rfl
@[simp] theorem assertReset_composing (s : State) : (assertReset s).composing = s.composing := rfl
@[simp] theorem assertReset_spoiled (s : State) :
    (assertReset s).spoiled = (s.spoiled || (s.fault && !s.composing.isEmpty)) := rfl
@[simp] theorem assertReset_mem (s : State) : (assertReset s).mem = s.mem := rfl

/-! ### Initialisation flags -/

@[simp] theorem initFlag_setInitFlag_same (s : State) (u : SerialUnit) : (s.setInitFlag u).initFlag u = true := by
  cases u <;> rfl

theorem initFlag_setInitFlag_of (s : State) (u u' : SerialUnit) (h : s.initFlag u' = true) :
    (s.setInitFlag u).initFlag u' = true := by
  cases u <;> cases u' <;> simp_all [State.setInitFlag, State.initFlag]

theorem initFlag_setInitFlag_other (s : State) {u u' : SerialUnit} (h : u' ≠ u) :
    (s.setInitFlag u).initFlag u' = s.initFlag u' := by
  cases u <;> cases u' <;> first | rfl | exact absurd rfl h

@[simp] theorem initFlag_accept (i : Instr) (text : List MicroStep) (s : State) (u : SerialUnit) :
    (accept i text s).initFlag u = s.initFlag u := by cases u <;> rfl

@[simp] theorem initFlag_raiseFault (c : FaultCode) (s : State) (u : SerialUnit) :
    (raiseFault c s).initFlag u = s.initFlag u := by cases u <;> simp [State.initFlag]

/-! ### Issuing a command -/

/-- A command that may be issued is accepted with its microprogram. -/
theorem issue_accepts {i : Instr} {s : State} (text : List MicroStep) (hf : s.fault = false) (hb : s.busy = false)
    (hi : isInit i = true ∨ s.initFlag (unitOf i) = true) : issue i text s = .next (accept i text s) := by
  have : (isInit i || s.initFlag (unitOf i)) = true := by simpa using hi
  simp [issue, hf, hb, this]

theorem issue_of_fault {i : Instr} {s : State} (text : List MicroStep) (hf : s.fault = true) :
    issue i text s = .next s := by simp [issue, hf]

theorem issue_of_busy {i : Instr} {s : State} (text : List MicroStep) (hf : s.fault = false) (hb : s.busy = true) :
    issue i text s = .next (raiseFault .cmdWhileBusy s) := by simp [issue, hf, hb]

theorem issue_not_initialised {i : Instr} {s : State} (text : List MicroStep) (hf : s.fault = false)
    (hb : s.busy = false) (hi : isInit i = false) (hu : s.initFlag (unitOf i) = false) :
    issue i text s = .next (raiseFault .notInitialised s) := by simp [issue, hf, hb, hi, hu]

/-- Everything issuing a command can do (R112): it answers a next state, in which the command is ignored, or a fault
is raised, or the command is accepted. -/
theorem issue_cases (i : Instr) (text : List MicroStep) (s : State) :
    (s.fault = true ∧ issue i text s = .next s) ∨
    (s.fault = false ∧ s.busy = true ∧ issue i text s = .next (raiseFault .cmdWhileBusy s)) ∨
    (s.fault = false ∧ s.busy = false ∧ isInit i = false ∧ s.initFlag (unitOf i) = false ∧
      issue i text s = .next (raiseFault .notInitialised s)) ∨
    (s.fault = false ∧ s.busy = false ∧ (isInit i = true ∨ s.initFlag (unitOf i) = true) ∧
      issue i text s = .next (accept i text s)) := by
  cases hf : s.fault
  · cases hb : s.busy
    · cases hi : isInit i
      · cases hu : s.initFlag (unitOf i)
        · simp [issue, hf, hb, hi, hu]
        · simp [issue, hf, hb, hi, hu]
      · simp [issue, hf, hb, hi]
    · simp [issue, hf, hb]
  · simp [issue, hf]

/-- Everything issuing an illegal word can do (R112, R323). -/
theorem issueIllegal_cases (s : State) :
    (s.fault = true ∧ issueIllegal s = .next s) ∨
    (s.fault = false ∧ s.busy = true ∧ issueIllegal s = .next (raiseFault .cmdWhileBusy s)) ∨
    (s.fault = false ∧ s.busy = false ∧ issueIllegal s = .next (raiseFault .illegalCommand s)) := by
  cases hf : s.fault
  · cases hb : s.busy <;> simp [issueIllegal, hf, hb]
  · simp [issueIllegal, hf]

end Sys2Proof.Machine
end

