-- ==== Sys2Proof/Laws/Sequencer.lean ====
section
/-! SUPPORT. What a sequencer step does: the step of each micro-operation, the fields no step touches, the history it
appends, and runs of several steps. -/

namespace Sys2Proof.Machine

/-! ### Pure computation -/

@[simp] theorem assignAll_nil (s : State) : assignAll [] s = s := rfl
@[simp] theorem assignAll_cons (x : Assign) (as : List Assign) (s : State) :
    assignAll (x :: as) s = assignAll as (assign s x) := rfl
@[simp] theorem assign_setIndex (n : Nat) (s : State) : assign s (.setIndex n) = { s with i := n } := rfl
@[simp] theorem assign_clearShift (s : State) : assign s .clearShift = { s with r := 0 } := rfl
@[simp] theorem assignAll_cfg (as : List Assign) (s : State) : (assignAll as s).cfg = s.cfg := by
  induction as generalizing s with
  | nil => rfl
  | cons x rest ih => simpa [assignAll] using ih (assign s x)
@[simp] theorem assignAll_value (as : List Assign) (s : State) : (assignAll as s).value = s.value := by
  induction as generalizing s with
  | nil => rfl
  | cons x rest ih => simpa [assignAll] using ih (assign s x)
@[simp] theorem assignAll_busy (as : List Assign) (s : State) : (assignAll as s).busy = s.busy := by
  induction as generalizing s with
  | nil => rfl
  | cons x rest ih => simpa [assignAll] using ih (assign s x)
@[simp] theorem assignAll_ack (as : List Assign) (s : State) : (assignAll as s).ack = s.ack := by
  induction as generalizing s with
  | nil => rfl
  | cons x rest ih => simpa [assignAll] using ih (assign s x)
@[simp] theorem assignAll_fault (as : List Assign) (s : State) : (assignAll as s).fault = s.fault := by
  induction as generalizing s with
  | nil => rfl
  | cons x rest ih => simpa [assignAll] using ih (assign s x)
@[simp] theorem assignAll_fcode (as : List Assign) (s : State) : (assignAll as s).fcode = s.fcode := by
  induction as generalizing s with
  | nil => rfl
  | cons x rest ih => simpa [assignAll] using ih (assign s x)
@[simp] theorem assignAll_i2cInit (as : List Assign) (s : State) : (assignAll as s).i2cInit = s.i2cInit := by
  induction as generalizing s with
  | nil => rfl
  | cons x rest ih => simpa [assignAll] using ih (assign s x)
@[simp] theorem assignAll_spiInit (as : List Assign) (s : State) : (assignAll as s).spiInit = s.spiInit := by
  induction as generalizing s with
  | nil => rfl
  | cons x rest ih => simpa [assignAll] using ih (assign s x)
@[simp] theorem assignAll_uartInit (as : List Assign) (s : State) : (assignAll as s).uartInit = s.uartInit := by
  induction as generalizing s with
  | nil => rfl
  | cons x rest ih => simpa [assignAll] using ih (assign s x)
@[simp] theorem assignAll_spi (as : List Assign) (s : State) : (assignAll as s).spi = s.spi := by
  induction as generalizing s with
  | nil => rfl
  | cons x rest ih => simpa [assignAll] using ih (assign s x)
@[simp] theorem assignAll_pc (as : List Assign) (s : State) : (assignAll as s).pc = s.pc := by
  induction as generalizing s with
  | nil => rfl
  | cons x rest ih => simpa [assignAll] using ih (assign s x)
@[simp] theorem assignAll_cmd (as : List Assign) (s : State) : (assignAll as s).cmd = s.cmd := by
  induction as generalizing s with
  | nil => rfl
  | cons x rest ih => simpa [assignAll] using ih (assign s x)
@[simp] theorem assignAll_a (as : List Assign) (s : State) : (assignAll as s).a = s.a := by
  induction as generalizing s with
  | nil => rfl
  | cons x rest ih => simpa [assignAll] using ih (assign s x)
@[simp] theorem assignAll_v (as : List Assign) (s : State) : (assignAll as s).v = s.v := by
  induction as generalizing s with
  | nil => rfl
  | cons x rest ih => simpa [assignAll] using ih (assign s x)
@[simp] theorem assignAll_pins (as : List Assign) (s : State) : (assignAll as s).pins = s.pins := by
  induction as generalizing s with
  | nil => rfl
  | cons x rest ih => simpa [assignAll] using ih (assign s x)
@[simp] theorem assignAll_hist (as : List Assign) (s : State) : (assignAll as s).hist = s.hist := by
  induction as generalizing s with
  | nil => rfl
  | cons x rest ih => simpa [assignAll] using ih (assign s x)
@[simp] theorem assignAll_bus (as : List Assign) (s : State) : (assignAll as s).bus = s.bus := by
  induction as generalizing s with
  | nil => rfl
  | cons x rest ih => simpa [assignAll] using ih (assign s x)
@[simp] theorem assignAll_host (as : List Assign) (s : State) : (assignAll as s).host = s.host := by
  induction as generalizing s with
  | nil => rfl
  | cons x rest ih => simpa [assignAll] using ih (assign s x)
@[simp] theorem assignAll_composing (as : List Assign) (s : State) : (assignAll as s).composing = s.composing := by
  induction as generalizing s with
  | nil => rfl
  | cons x rest ih => simpa [assignAll] using ih (assign s x)
@[simp] theorem assignAll_spoiled (as : List Assign) (s : State) : (assignAll as s).spoiled = s.spoiled := by
  induction as generalizing s with
  | nil => rfl
  | cons x rest ih => simpa [assignAll] using ih (assign s x)
@[simp] theorem assignAll_mem (as : List Assign) (s : State) : (assignAll as s).mem = s.mem := by
  induction as generalizing s with
  | nil => rfl
  | cons x rest ih => simpa [assignAll] using ih (assign s x)
@[simp] theorem assignAll_collected (as : List Assign) (s : State) : (assignAll as s).collected = s.collected := by
  induction as generalizing s with
  | nil => rfl
  | cons x rest ih => simpa [assignAll] using ih (assign s x)
@[simp] theorem assignAll_received (as : List Assign) (s : State) : (assignAll as s).received = s.received := by
  induction as generalizing s with
  | nil => rfl
  | cons x rest ih => simpa [assignAll] using ih (assign s x)

@[simp] theorem assignAll_initFlag (as : List Assign) (s : State) (u : SerialUnit) :
    (assignAll as s).initFlag u = s.initFlag u := by cases u <;> simp [State.initFlag]

/-! ### `μDONE` -/

@[simp] theorem doneAll_cfg (us : List DoneUpdate) (s : State) : (us.foldl doneUpdate s).cfg = s.cfg := by
  induction us generalizing s with
  | nil => rfl
  | cons x rest ih => simpa using ih (doneUpdate s x)
@[simp] theorem doneAll_busy (us : List DoneUpdate) (s : State) : (us.foldl doneUpdate s).busy = s.busy := by
  induction us generalizing s with
  | nil => rfl
  | cons x rest ih => simpa using ih (doneUpdate s x)
@[simp] theorem doneAll_fault (us : List DoneUpdate) (s : State) : (us.foldl doneUpdate s).fault = s.fault := by
  induction us generalizing s with
  | nil => rfl
  | cons x rest ih => simpa using ih (doneUpdate s x)
@[simp] theorem doneAll_fcode (us : List DoneUpdate) (s : State) : (us.foldl doneUpdate s).fcode = s.fcode := by
  induction us generalizing s with
  | nil => rfl
  | cons x rest ih => simpa using ih (doneUpdate s x)
@[simp] theorem doneAll_spi (us : List DoneUpdate) (s : State) : (us.foldl doneUpdate s).spi = s.spi := by
  induction us generalizing s with
  | nil => rfl
  | cons x rest ih => simpa using ih (doneUpdate s x)
@[simp] theorem doneAll_pc (us : List DoneUpdate) (s : State) : (us.foldl doneUpdate s).pc = s.pc := by
  induction us generalizing s with
  | nil => rfl
  | cons x rest ih => simpa using ih (doneUpdate s x)
@[simp] theorem doneAll_cmd (us : List DoneUpdate) (s : State) : (us.foldl doneUpdate s).cmd = s.cmd := by
  induction us generalizing s with
  | nil => rfl
  | cons x rest ih => simpa using ih (doneUpdate s x)
@[simp] theorem doneAll_i (us : List DoneUpdate) (s : State) : (us.foldl doneUpdate s).i = s.i := by
  induction us generalizing s with
  | nil => rfl
  | cons x rest ih => simpa using ih (doneUpdate s x)
@[simp] theorem doneAll_r (us : List DoneUpdate) (s : State) : (us.foldl doneUpdate s).r = s.r := by
  induction us generalizing s with
  | nil => rfl
  | cons x rest ih => simpa using ih (doneUpdate s x)
@[simp] theorem doneAll_a (us : List DoneUpdate) (s : State) : (us.foldl doneUpdate s).a = s.a := by
  induction us generalizing s with
  | nil => rfl
  | cons x rest ih => simpa using ih (doneUpdate s x)
@[simp] theorem doneAll_v (us : List DoneUpdate) (s : State) : (us.foldl doneUpdate s).v = s.v := by
  induction us generalizing s with
  | nil => rfl
  | cons x rest ih => simpa using ih (doneUpdate s x)
@[simp] theorem doneAll_pins (us : List DoneUpdate) (s : State) : (us.foldl doneUpdate s).pins = s.pins := by
  induction us generalizing s with
  | nil => rfl
  | cons x rest ih => simpa using ih (doneUpdate s x)
@[simp] theorem doneAll_hist (us : List DoneUpdate) (s : State) : (us.foldl doneUpdate s).hist = s.hist := by
  induction us generalizing s with
  | nil => rfl
  | cons x rest ih => simpa using ih (doneUpdate s x)
@[simp] theorem doneAll_bus (us : List DoneUpdate) (s : State) : (us.foldl doneUpdate s).bus = s.bus := by
  induction us generalizing s with
  | nil => rfl
  | cons x rest ih => simpa using ih (doneUpdate s x)
@[simp] theorem doneAll_host (us : List DoneUpdate) (s : State) : (us.foldl doneUpdate s).host = s.host := by
  induction us generalizing s with
  | nil => rfl
  | cons x rest ih => simpa using ih (doneUpdate s x)
@[simp] theorem doneAll_composing (us : List DoneUpdate) (s : State) : (us.foldl doneUpdate s).composing = s.composing := by
  induction us generalizing s with
  | nil => rfl
  | cons x rest ih => simpa using ih (doneUpdate s x)
@[simp] theorem doneAll_spoiled (us : List DoneUpdate) (s : State) : (us.foldl doneUpdate s).spoiled = s.spoiled := by
  induction us generalizing s with
  | nil => rfl
  | cons x rest ih => simpa using ih (doneUpdate s x)
@[simp] theorem doneAll_mem (us : List DoneUpdate) (s : State) : (us.foldl doneUpdate s).mem = s.mem := by
  induction us generalizing s with
  | nil => rfl
  | cons x rest ih => simpa using ih (doneUpdate s x)
@[simp] theorem doneAll_collected (us : List DoneUpdate) (s : State) : (us.foldl doneUpdate s).collected = s.collected := by
  induction us generalizing s with
  | nil => rfl
  | cons x rest ih => simpa using ih (doneUpdate s x)
@[simp] theorem doneAll_received (us : List DoneUpdate) (s : State) : (us.foldl doneUpdate s).received = s.received := by
  induction us generalizing s with
  | nil => rfl
  | cons x rest ih => simpa using ih (doneUpdate s x)
@[simp] theorem microDone_cfg (us : List DoneUpdate) (s : State) : (microDone us s).cfg = s.cfg := doneAll_cfg us s
@[simp] theorem microDone_fault (us : List DoneUpdate) (s : State) : (microDone us s).fault = s.fault := doneAll_fault us s
@[simp] theorem microDone_fcode (us : List DoneUpdate) (s : State) : (microDone us s).fcode = s.fcode := doneAll_fcode us s
@[simp] theorem microDone_spi (us : List DoneUpdate) (s : State) : (microDone us s).spi = s.spi := doneAll_spi us s
@[simp] theorem microDone_i (us : List DoneUpdate) (s : State) : (microDone us s).i = s.i := doneAll_i us s
@[simp] theorem microDone_r (us : List DoneUpdate) (s : State) : (microDone us s).r = s.r := doneAll_r us s
@[simp] theorem microDone_a (us : List DoneUpdate) (s : State) : (microDone us s).a = s.a := doneAll_a us s
@[simp] theorem microDone_v (us : List DoneUpdate) (s : State) : (microDone us s).v = s.v := doneAll_v us s
@[simp] theorem microDone_pins (us : List DoneUpdate) (s : State) : (microDone us s).pins = s.pins := doneAll_pins us s
@[simp] theorem microDone_hist (us : List DoneUpdate) (s : State) : (microDone us s).hist = s.hist := doneAll_hist us s
@[simp] theorem microDone_bus (us : List DoneUpdate) (s : State) : (microDone us s).bus = s.bus := doneAll_bus us s
@[simp] theorem microDone_host (us : List DoneUpdate) (s : State) : (microDone us s).host = s.host := doneAll_host us s
@[simp] theorem microDone_composing (us : List DoneUpdate) (s : State) : (microDone us s).composing = s.composing := doneAll_composing us s
@[simp] theorem microDone_spoiled (us : List DoneUpdate) (s : State) : (microDone us s).spoiled = s.spoiled := doneAll_spoiled us s
@[simp] theorem microDone_mem (us : List DoneUpdate) (s : State) : (microDone us s).mem = s.mem := doneAll_mem us s
@[simp] theorem microDone_collected (us : List DoneUpdate) (s : State) : (microDone us s).collected = s.collected := doneAll_collected us s
@[simp] theorem microDone_received (us : List DoneUpdate) (s : State) : (microDone us s).received = s.received := doneAll_received us s
@[simp] theorem microDone_busy (us : List DoneUpdate) (s : State) : (microDone us s).busy = false := rfl
@[simp] theorem microDone_pc (us : List DoneUpdate) (s : State) : (microDone us s).pc = [] := rfl
@[simp] theorem microDone_cmd (us : List DoneUpdate) (s : State) : (microDone us s).cmd = none := rfl

/-! ### One step -/

@[simp] theorem seqStep_idle (env : Oracle) {s : State} (h : s.pc = []) : seqStep env s = s := by
  simp [seqStep, h]

theorem seqStep_cons (env : Oracle) {s : State} {m : MicroStep} {rest : List MicroStep} (h : s.pc = m :: rest) :
    seqStep env s = perform env m.op rest (assignAll m.pre s) := by
  simp [seqStep, h]

/-- A `μWAIT` poll that reads the awaited level moves `pc`; one that does not leaves it (R118). -/
theorem perform_wait (env : Oracle) (l : WaitedLine) (v : Bool) (rest : List MicroStep) (s : State) :
    perform env (.wait l v) rest s =
      if readLine env l.line s = v then { microPoll l v s with pc := rest }
      else microPoll l (!v) s := by
  simp only [perform]
  split
  · next h => rw [h]
  · next h => rw [show readLine env l.line s = !v by cases v <;> simp_all]

/-! ### What no step touches -/

@[simp] theorem perform_cfg (env : Oracle) (op : MicroOp) (rest : List MicroStep) (s : State) : (perform env op rest s).cfg = s.cfg := by
  cases op <;> simp [perform]
  split <;> simp
@[simp] theorem perform_fault (env : Oracle) (op : MicroOp) (rest : List MicroStep) (s : State) : (perform env op rest s).fault = s.fault := by
  cases op <;> simp [perform]
  split <;> simp
@[simp] theorem perform_fcode (env : Oracle) (op : MicroOp) (rest : List MicroStep) (s : State) : (perform env op rest s).fcode = s.fcode := by
  cases op <;> simp [perform]
  split <;> simp
@[simp] theorem perform_bus (env : Oracle) (op : MicroOp) (rest : List MicroStep) (s : State) : (perform env op rest s).bus = s.bus := by
  cases op <;> simp [perform]
  split <;> simp
@[simp] theorem perform_host (env : Oracle) (op : MicroOp) (rest : List MicroStep) (s : State) : (perform env op rest s).host = s.host := by
  cases op <;> simp [perform]
  split <;> simp
@[simp] theorem perform_composing (env : Oracle) (op : MicroOp) (rest : List MicroStep) (s : State) : (perform env op rest s).composing = s.composing := by
  cases op <;> simp [perform]
  split <;> simp
@[simp] theorem perform_spoiled (env : Oracle) (op : MicroOp) (rest : List MicroStep) (s : State) : (perform env op rest s).spoiled = s.spoiled := by
  cases op <;> simp [perform]
  split <;> simp
@[simp] theorem perform_mem (env : Oracle) (op : MicroOp) (rest : List MicroStep) (s : State) : (perform env op rest s).mem = s.mem := by
  cases op <;> simp [perform]
  split <;> simp
@[simp] theorem perform_collected (env : Oracle) (op : MicroOp) (rest : List MicroStep) (s : State) : (perform env op rest s).collected = s.collected := by
  cases op <;> simp [perform]
  split <;> simp
@[simp] theorem perform_received (env : Oracle) (op : MicroOp) (rest : List MicroStep) (s : State) : (perform env op rest s).received = s.received := by
  cases op <;> simp [perform]
  split <;> simp
@[simp] theorem seqStep_cfg (env : Oracle) (s : State) : (seqStep env s).cfg = s.cfg := by
  unfold seqStep; split <;> simp
@[simp] theorem seqStep_fault (env : Oracle) (s : State) : (seqStep env s).fault = s.fault := by
  unfold seqStep; split <;> simp
@[simp] theorem seqStep_fcode (env : Oracle) (s : State) : (seqStep env s).fcode = s.fcode := by
  unfold seqStep; split <;> simp
@[simp] theorem seqStep_bus (env : Oracle) (s : State) : (seqStep env s).bus = s.bus := by
  unfold seqStep; split <;> simp
@[simp] theorem seqStep_host (env : Oracle) (s : State) : (seqStep env s).host = s.host := by
  unfold seqStep; split <;> simp
@[simp] theorem seqStep_composing (env : Oracle) (s : State) : (seqStep env s).composing = s.composing := by
  unfold seqStep; split <;> simp
@[simp] theorem seqStep_spoiled (env : Oracle) (s : State) : (seqStep env s).spoiled = s.spoiled := by
  unfold seqStep; split <;> simp
@[simp] theorem seqStep_mem (env : Oracle) (s : State) : (seqStep env s).mem = s.mem := by
  unfold seqStep; split <;> simp
@[simp] theorem seqStep_collected (env : Oracle) (s : State) : (seqStep env s).collected = s.collected := by
  unfold seqStep; split <;> simp
@[simp] theorem seqStep_received (env : Oracle) (s : State) : (seqStep env s).received = s.received := by
  unfold seqStep; split <;> simp
@[simp] theorem seqRun_cfg (env : Oracle) (n : Nat) (s : State) : (seqRun env n s).cfg = s.cfg := by
  induction n generalizing s with
  | zero => rfl
  | succ n ih => simp [seqRun, ih]
@[simp] theorem seqRun_fault (env : Oracle) (n : Nat) (s : State) : (seqRun env n s).fault = s.fault := by
  induction n generalizing s with
  | zero => rfl
  | succ n ih => simp [seqRun, ih]
@[simp] theorem seqRun_fcode (env : Oracle) (n : Nat) (s : State) : (seqRun env n s).fcode = s.fcode := by
  induction n generalizing s with
  | zero => rfl
  | succ n ih => simp [seqRun, ih]
@[simp] theorem seqRun_bus (env : Oracle) (n : Nat) (s : State) : (seqRun env n s).bus = s.bus := by
  induction n generalizing s with
  | zero => rfl
  | succ n ih => simp [seqRun, ih]
@[simp] theorem seqRun_host (env : Oracle) (n : Nat) (s : State) : (seqRun env n s).host = s.host := by
  induction n generalizing s with
  | zero => rfl
  | succ n ih => simp [seqRun, ih]
@[simp] theorem seqRun_composing (env : Oracle) (n : Nat) (s : State) : (seqRun env n s).composing = s.composing := by
  induction n generalizing s with
  | zero => rfl
  | succ n ih => simp [seqRun, ih]
@[simp] theorem seqRun_spoiled (env : Oracle) (n : Nat) (s : State) : (seqRun env n s).spoiled = s.spoiled := by
  induction n generalizing s with
  | zero => rfl
  | succ n ih => simp [seqRun, ih]
@[simp] theorem seqRun_mem (env : Oracle) (n : Nat) (s : State) : (seqRun env n s).mem = s.mem := by
  induction n generalizing s with
  | zero => rfl
  | succ n ih => simp [seqRun, ih]
@[simp] theorem seqRun_collected (env : Oracle) (n : Nat) (s : State) : (seqRun env n s).collected = s.collected := by
  induction n generalizing s with
  | zero => rfl
  | succ n ih => simp [seqRun, ih]
@[simp] theorem seqRun_received (env : Oracle) (n : Nat) (s : State) : (seqRun env n s).received = s.received := by
  induction n generalizing s with
  | zero => rfl
  | succ n ih => simp [seqRun, ih]

/-! ### Line reads -/

@[simp] theorem readLine_driven_scl (env : Oracle) {s : State} (h : s.dir .scl = .output) :
    readLine env .scl s = false := by simp [readLine, h]
@[simp] theorem readLine_driven_sda (env : Oracle) {s : State} (h : s.dir .sda = .output) :
    readLine env .sda s = false := by simp [readLine, h]
theorem readLine_released_scl (env : Oracle) {s : State} (h : s.dir .scl = .input) :
    readLine env .scl s = env .scl s.hist := by simp [readLine, h]
theorem readLine_released_sda (env : Oracle) {s : State} (h : s.dir .sda = .input) :
    readLine env .sda s = env .sda s.hist := by simp [readLine, h]
@[simp] theorem readLine_miso (env : Oracle) (s : State) : readLine env .miso s = env .miso s.hist := rfl
@[simp] theorem readLine_rx (env : Oracle) (s : State) : readLine env .rx s = env .rx s.hist := rfl

/-! ### The history only grows -/

theorem perform_hist (env : Oracle) (op : MicroOp) (rest : List MicroStep) (s : State) :
    s.hist <+: (perform env op rest s).hist := by
  cases op <;> simp [perform]
  split <;> simp

theorem seqStep_hist (env : Oracle) (s : State) : s.hist <+: (seqStep env s).hist := by
  unfold seqStep; split
  · exact List.prefix_refl _
  · simpa using perform_hist env _ _ (assignAll _ s)

/-! ### Runs -/

@[simp] theorem seqRun_zero (env : Oracle) (s : State) : seqRun env 0 s = s := rfl
theorem seqRun_succ (env : Oracle) (n : Nat) (s : State) : seqRun env (n + 1) s = seqRun env n (seqStep env s) := rfl

theorem seqRun_add (env : Oracle) (m n : Nat) (s : State) : seqRun env (m + n) s = seqRun env n (seqRun env m s) := by
  induction m generalizing s with
  | zero => simp
  | succ m ih => rw [Nat.succ_add, seqRun_succ, ih, seqRun_succ]

theorem seqRun_idle (env : Oracle) (n : Nat) {s : State} (h : s.pc = []) : seqRun env n s = s := by
  induction n with
  | zero => rfl
  | succ n ih => rw [seqRun_succ, seqStep_idle env h, ih]

theorem seqRun_hist (env : Oracle) (n : Nat) (s : State) : s.hist <+: (seqRun env n s).hist := by
  induction n generalizing s with
  | zero => exact List.prefix_refl _
  | succ n ih => exact (seqStep_hist env s).trans (ih _)

/-- An invariant of the sequencer's step holds along a run of it. -/
theorem seqRun_induction {P : State → Prop} {env : Oracle} (hstep : ∀ s, P s → P (seqStep env s)) (n : Nat) {s : State}
    (h : P s) : P (seqRun env n s) := by
  induction n generalizing s with
  | zero => exact h
  | succ n ih => exact ih (hstep s h)

/-! ### Independence of the host's state and of the fault bits -/

theorem readLine_congr (env : Oracle) (l : Line) {s t : State} (hp : s.pins = t.pins) (hh : s.hist = t.hist) :
    readLine env l s = readLine env l t := by
  cases s; cases t
  simp only at hp hh
  subst hp hh
  cases l <;> rfl

end Sys2Proof.Machine
end

