-- ==== Sys2Proof/Laws/Microprogram.lean ====
section
/-! SUPPORT. What every microprogram is made of: the micro-operations allowed to it, then one `μDONE`
(spec/40_sequencer.md R126, R127; spec/10_state.md R37). -/

namespace Sys2Proof.Machine

/-- The register updates of a command's `μDONE`. -/
def doneUpdates (width : Nat) (i : Instr) : List DoneUpdate :=
  match i with
  | .i2cInit => [.init .i2c]
  | .i2cStart => []
  | .i2cStop => []
  | .i2cRestart => []
  | .i2cWrite _ => [.result .ackReceived, .ack]
  | .i2cRead _ => [.result (.shiftLow 8)]
  | .spiInit => [.init .spi]
  | .spiSetMode _ => []
  | .spiGetMode => [.result .spiMode]
  | .spiWriteB _ => []
  | .spiWriteN _ => []
  | .spiReadB => [.result (.shiftLow 8)]
  | .spiReadN => [.result (.shiftLow width)]
  | .spiXmit _ => [.result (.shiftLow 8)]
  | .uartInit => [.init .uart]
  | .uartWrite _ => []
  | .uartRead => [.result (.shiftLow 8)]

/-- The micro-operations that may stand before the `μDONE` of a command: on lines of its unit, and `μSETMODE` where the
command writes `SPICFG`. -/
def allowed (i : Instr) : MicroOp → Prop
  | .input l => l.unit = unitOf i ∧ l ≠ .sck
  | .low l => l.line.unit = unitOf i
  | .out l _ => l.line.unit = unitOf i
  | .sample l _ => l.line.unit = unitOf i
  | .wait l _ => l.line.unit = unitOf i
  | .delay _ => True
  | .setMode _ => writesSpiCfg i = true
  | .done _ => False

/-- The indexes a computation sets are below a bound. -/
def indexesBelow (n : Nat) (as : List Assign) : Prop := ∀ k, Assign.setIndex k ∈ as → k < n

/-- Every step of a text is allowed to a command and sets indexes below a bound. -/
def bodyOk (i : Instr) (n : Nat) (text : List MicroStep) : Prop :=
  ∀ m ∈ text, allowed i m.op ∧ indexesBelow n m.pre

@[simp] theorem bodyOk_nil (i : Instr) (n : Nat) : bodyOk i n [] := by simp [bodyOk]

@[simp] theorem bodyOk_cons (i : Instr) (n : Nat) (m : MicroStep) (text : List MicroStep) :
    bodyOk i n (m :: text) ↔ (allowed i m.op ∧ indexesBelow n m.pre) ∧ bodyOk i n text := by
  simp [bodyOk]

@[simp] theorem bodyOk_append (i : Instr) (n : Nat) (x y : List MicroStep) :
    bodyOk i n (x ++ y) ↔ bodyOk i n x ∧ bodyOk i n y := by
  simp only [bodyOk, List.mem_append, or_imp]
  exact forall_and

@[simp] theorem indexesBelow_nil (n : Nat) : indexesBelow n [] := by simp [indexesBelow]

@[simp] theorem plain_op (op : MicroOp) : (plain op).op = op := rfl
@[simp] theorem plain_pre (op : MicroOp) : (plain op).pre = [] := rfl

theorem bodyOk_before {i : Instr} {n : Nat} {as : List Assign} {text : List MicroStep} (ha : indexesBelow n as)
    (h : bodyOk i n text) : bodyOk i n (before as text) := by
  cases text with
  | nil => simp [before]
  | cons m rest =>
    rw [bodyOk_cons] at h
    rw [before, bodyOk_cons]
    refine ⟨⟨h.1.1, fun k hk => ?_⟩, h.2⟩
    rcases List.mem_append.1 hk with hk | hk
    · exact ha k hk
    · exact h.1.2 k hk

theorem bodyOk_forBits {i : Instr} {n : Nat} {indexes : List Nat} {body : Nat → List MicroStep}
    (hb : ∀ k ∈ indexes, k < n ∧ bodyOk i n (body k)) : bodyOk i n (forBits indexes body) := by
  intro m hm
  obtain ⟨k, hk, hm⟩ := List.mem_flatMap.1 hm
  refine bodyOk_before (fun j hj => ?_) (hb k hk).2 m hm
  have : j = k := by simpa using hj
  exact this ▸ (hb k hk).1

theorem mem_downFrom {n k : Nat} : k ∈ downFrom n ↔ k < n := by
  induction n with
  | zero => simp [downFrom]
  | succ n ih => rw [downFrom, List.mem_cons, ih]; omega

theorem mem_upTo {n k : Nat} : k ∈ upTo n ↔ k < n := by simp [upTo]

theorem bodyOk_shift {i : Instr} {n width : Nat} (hu : unitOf i = .spi) (hw : width ≤ n) (c : SpiCfg) (o : Half)
    (smp : Bool) : bodyOk i n (shiftText c width o smp) := by
  unfold shiftText
  rw [bodyOk_append, bodyOk_append]
  refine ⟨⟨bodyOk_before (by simp [indexesBelow]) (by simp [allowed, hu, PushPullLine.line, Line.unit]),
    bodyOk_forBits fun k hk => ⟨by have := mem_downFrom.1 hk; omega, ?_⟩⟩, by
      simp [allowed, hu, PushPullLine.line, Line.unit]⟩
  unfold shiftBitText
  by_cases hk0 : k = 0 <;> cases smp <;> simp [hk0, allowed, hu, PushPullLine.line, SampledLine.line, Line.unit]

/-- Every microprogram is a body of allowed micro-operations, its indexes below 16 where the width is at most 16, and
then the one `μDONE`. -/
theorem microprogram_shape (c : Config) (spi : SpiCfg) (i : Instr) :
    ∃ body, microprogram c spi i = body ++ [plain (.done (doneUpdates c.spiWidth i))] ∧
      bodyOk i (max 8 c.spiWidth) body := by
  have h8 : 8 ≤ max 8 c.spiWidth := Nat.le_max_left _ _
  have hn : c.spiWidth ≤ max 8 c.spiWidth := Nat.le_max_right _ _
  cases i with
  | i2cInit => exact ⟨[_, _], rfl, by simp [allowed, Line.unit, unitOf]⟩
  | i2cStart =>
    exact ⟨[_, _, _, _, _, _, _, _], rfl, by simp [allowed, Line.unit, unitOf, OpenDrainLine.line]⟩
  | i2cStop => exact ⟨[_, _, _, _, _, _], rfl, by simp [allowed, Line.unit, unitOf, OpenDrainLine.line]⟩
  | i2cRestart => exact ⟨[_, _, _, _, _, _], rfl, by simp [allowed, Line.unit, unitOf, OpenDrainLine.line]⟩
  | i2cWrite b =>
    refine ⟨_, rfl, ?_⟩
    simp only [bodyOk_append]
    refine ⟨⟨bodyOk_forBits fun k hk => ⟨by have := mem_downFrom.1 hk; omega, ?_⟩, ?_⟩, ?_⟩
    · unfold i2cWriteBit setSda
      split <;> simp [allowed, Line.unit, unitOf, OpenDrainLine.line, WaitedLine.line]
    · simp [allowed, Line.unit, unitOf, OpenDrainLine.line, SampledLine.line]
    · simp [pulseText, allowed, Line.unit, unitOf, OpenDrainLine.line, WaitedLine.line]
  | i2cRead ack =>
    refine ⟨before [.clearShift] (forBits (downFrom 8) i2cReadBit) ++
      [plain (.low .scl), setSda (!ack), plain (.delay .i2c)] ++ pulseText ++ [plain (.input .sda)], by
        simp [microprogram, i2cReadText, doneUpdates], ?_⟩
    simp only [bodyOk_append]
    refine ⟨⟨⟨bodyOk_before (by simp [indexesBelow])
      (bodyOk_forBits fun k hk => ⟨by have := mem_downFrom.1 hk; omega, ?_⟩), ?_⟩, ?_⟩, ?_⟩
    · simp [i2cReadBit, allowed, Line.unit, unitOf, OpenDrainLine.line, WaitedLine.line, SampledLine.line]
    · cases ack <;> simp [setSda, allowed, Line.unit, unitOf, OpenDrainLine.line]
    · simp [pulseText, allowed, Line.unit, unitOf, OpenDrainLine.line, WaitedLine.line]
    · simp [allowed, Line.unit, unitOf]
  | spiInit =>
    exact ⟨[_, _, _, _], rfl, by simp [allowed, Line.unit, unitOf, PushPullLine.line, writesSpiCfg]⟩
  | spiSetMode m => exact ⟨[_, _], rfl, by simp [allowed, Line.unit, unitOf, PushPullLine.line, writesSpiCfg]⟩
  | spiGetMode => exact ⟨[], rfl, by simp⟩
  | spiWriteB b => exact ⟨_, rfl, bodyOk_shift rfl h8 _ _ _⟩
  | spiWriteN v => exact ⟨_, rfl, bodyOk_shift rfl hn _ _ _⟩
  | spiReadB => exact ⟨_, rfl, bodyOk_shift rfl h8 _ _ _⟩
  | spiReadN => exact ⟨_, rfl, bodyOk_shift rfl hn _ _ _⟩
  | spiXmit b => exact ⟨_, rfl, bodyOk_shift rfl h8 _ _ _⟩
  | uartInit => exact ⟨[_, _], rfl, by simp [allowed, Line.unit, unitOf, PushPullLine.line]⟩
  | uartWrite b =>
    refine ⟨_, rfl, ?_⟩
    simp only [bodyOk_append]
    refine ⟨⟨?_, bodyOk_forBits fun k hk => ⟨by have := mem_upTo.1 hk; omega, ?_⟩⟩, ?_⟩ <;>
      simp [uartLevel, allowed, Line.unit, unitOf, PushPullLine.line]
  | uartRead =>
    refine ⟨_, rfl, ?_⟩
    simp only [bodyOk_append]
    refine ⟨⟨bodyOk_before (by simp [indexesBelow]) ?_, ?_⟩,
      bodyOk_forBits fun k hk => ⟨by have := mem_upTo.1 hk; omega, ?_⟩⟩
    · unfold startDetectText
      split <;> simp [allowed, Line.unit, unitOf, WaitedLine.line]
    · simp [allowed]
    · unfold uartReadBit
      split <;> simp [allowed, Line.unit, unitOf, SampledLine.line]

/-- A position in a microprogram is its `μDONE`, or an allowed micro-operation with a position after it. -/
theorem microprogram_position {c : Config} {spi : SpiCfg} {i : Instr} {m : MicroStep} {rest : List MicroStep}
    (h : m :: rest <:+ microprogram c spi i) :
    (m = plain (.done (doneUpdates c.spiWidth i)) ∧ rest = []) ∨
      (allowed i m.op ∧ indexesBelow (max 8 c.spiWidth) m.pre ∧ rest ≠ [] ∧ rest <:+ microprogram c spi i) := by
  obtain ⟨body, hb, hok⟩ := microprogram_shape c spi i
  have hrest : rest <:+ microprogram c spi i := (List.suffix_cons m rest).trans h
  rw [hb] at h
  obtain ⟨pre, hp⟩ := h
  rcases List.eq_nil_or_concat rest with rfl | ⟨init, x, rfl⟩
  · left
    have := List.append_inj_right' hp rfl
    exact ⟨by simpa using this, rfl⟩
  · right
    have hm : m ∈ body := by
      have : pre ++ m :: init = body := by
        exact List.append_inj_left' (s₁ := pre ++ m :: init) (t₁ := [x])
          (t₂ := [plain (.done (doneUpdates c.spiWidth i))]) (by simpa using hp) rfl
      rw [← this]; simp
    exact ⟨(hok m hm).1, (hok m hm).2, by simp, hrest⟩

end Sys2Proof.Machine
end

