-- ==== Sys2Proof/Laws/PerInstr.lean ====
section
/-! SUPPORT. Facts about every command as syntax, one lemma per constructor. -/

/-- A command's word has its reserved bits 0, and its `UNIT` and `OP` name the command's row of the opcode table
(spec/30_encoding.md R83, R87). -/
def Sys2Proof.Laws.OpcodeFields.Statement (i : Sys2Proof.Instr) : Prop :=
  Sys2Proof.Field.reserved (Sys2Proof.encode i) = 0 ∧
    Sys2Proof.opTable (Sys2Proof.Field.unit (Sys2Proof.encode i)) (Sys2Proof.Field.op (Sys2Proof.encode i)) =
      some (Sys2Proof.opcodeOf i)

namespace Sys2Proof.Laws.OpcodeFields

open Sys2Proof

theorem i2cInit : Statement .i2cInit := by simp [Statement, encode, opcodeOf, opTable]
theorem i2cStart : Statement .i2cStart := by simp [Statement, encode, opcodeOf, opTable]
theorem i2cStop : Statement .i2cStop := by simp [Statement, encode, opcodeOf, opTable]
theorem i2cRestart : Statement .i2cRestart := by simp [Statement, encode, opcodeOf, opTable]
theorem i2cWrite (b : Byte) : Statement (.i2cWrite b) := by simp [Statement, encode, opcodeOf, opTable]
theorem i2cRead (ack : Bool) : Statement (.i2cRead ack) := by simp [Statement, encode, opcodeOf, opTable]
theorem spiInit : Statement .spiInit := by simp [Statement, encode, opcodeOf, opTable]
theorem spiSetMode (m : BitVec 2) : Statement (.spiSetMode m) := by simp [Statement, encode, opcodeOf, opTable]
theorem spiGetMode : Statement .spiGetMode := by simp [Statement, encode, opcodeOf, opTable]
theorem spiWriteB (b : Byte) : Statement (.spiWriteB b) := by simp [Statement, encode, opcodeOf, opTable]
theorem spiWriteN (v : Half) : Statement (.spiWriteN v) := by simp [Statement, encode, opcodeOf, opTable]
theorem spiReadB : Statement .spiReadB := by simp [Statement, encode, opcodeOf, opTable]
theorem spiReadN : Statement .spiReadN := by simp [Statement, encode, opcodeOf, opTable]
theorem spiXmit (b : Byte) : Statement (.spiXmit b) := by simp [Statement, encode, opcodeOf, opTable]
theorem uartInit : Statement .uartInit := by simp [Statement, encode, opcodeOf, opTable]
theorem uartWrite (b : Byte) : Statement (.uartWrite b) := by simp [Statement, encode, opcodeOf, opTable]
theorem uartRead : Statement .uartRead := by simp [Statement, encode, opcodeOf, opTable]

end Sys2Proof.Laws.OpcodeFields
end

