-- ==== Sys2Proof/Laws/Step.lean ====
section
/-! SUPPORT. What a command's meaning and a step of the machine can do: the inversion lemmas that claims about every
step cite. -/

namespace Sys2Proof.Machine

/-- Every command's meaning is the issue of its word with its microprogram; an ill-formed `SPI.WRITEN` is an illegal
word (R112, R208). -/
theorem exec_eq (i : Instr) (s : State) :
    exec i s =
      if wellFormed s.cfg.spiWidth i then issue i (microprogram s.cfg s.spi i) s else issueIllegal s := by
  cases i <;> rfl

theorem exec_wellFormed {i : Instr} {s : State} (h : wellFormed s.cfg.spiWidth i = true) :
    exec i s = issue i (microprogram s.cfg s.spi i) s := by simp [exec_eq, h]

/-- A command of a free block whose unit is initialised, or an `INIT`, is accepted. -/
theorem exec_accepts {i : Instr} {s : State} (hw : wellFormed s.cfg.spiWidth i = true) (hf : s.fault = false)
    (hb : s.busy = false) (hi : isInit i = true ∨ s.initFlag (unitOf i) = true) :
    exec i s = .next (accept i (microprogram s.cfg s.spi i) s) := by
  rw [exec_wellFormed hw, issue_accepts _ hf hb hi]

/-- Everything a command's meaning can do: it answers a next state, in which nothing changed, or a fault was raised,
or the command was accepted. -/
theorem exec_cases (i : Instr) (s : State) :
    (∃ c, c ≠ .none ∧ exec i s = .next (raiseFault c s)) ∨
    (wellFormed s.cfg.spiWidth i = true ∧ s.fault = false ∧ s.busy = false ∧
      (isInit i = true ∨ s.initFlag (unitOf i) = true) ∧
      exec i s = .next (accept i (microprogram s.cfg s.spi i) s)) := by
  cases hw : wellFormed s.cfg.spiWidth i
  · refine .inl ?_
    rcases issueIllegal_cases s with h | h | h
    · exact ⟨.illegalCommand, by decide, by simp [exec_eq, hw, h.2, raiseFault_of_fault _ h.1]⟩
    · exact ⟨.cmdWhileBusy, by decide, by simp [exec_eq, hw, h.2.2]⟩
    · exact ⟨.illegalCommand, by decide, by simp [exec_eq, hw, h.2.2]⟩
  · rcases issue_cases i (microprogram s.cfg s.spi i) s with h | h | h | h
    · exact .inl ⟨.illegalCommand, by decide, by simp [exec_eq, hw, h.2, raiseFault_of_fault _ h.1]⟩
    · exact .inl ⟨.cmdWhileBusy, by decide, by simp [exec_eq, hw, h.2.2]⟩
    · exact .inl ⟨.notInitialised, by decide, by simp [exec_eq, hw, h.2.2.2.2]⟩
    · exact .inr ⟨rfl, h.1, h.2.1, h.2.2.1, by simp [exec_eq, hw, h.2.2.2]⟩

/-- `HostWriteCMD` does what the meaning of some command does, or raises a fault (R112). -/
theorem hostWriteCmd_cases (w : Word) (s : State) :
    (∃ i, decode s.cfg.spiWidth w = .ok i ∧ hostWriteCmd w s = exec i s) ∨
    (∃ c, c ≠ .none ∧ hostWriteCmd w s = .next (raiseFault c s)) := by
  cases hd : decode s.cfg.spiWidth w with
  | ok i => exact .inl ⟨i, rfl, by simp [hostWriteCmd, hd]⟩
  | error e =>
    refine .inr ?_
    rcases issueIllegal_cases s with h | h | h
    · exact ⟨.illegalCommand, by decide, by simp [hostWriteCmd, hd, h.2, raiseFault_of_fault _ h.1]⟩
    · exact ⟨.cmdWhileBusy, by decide, by simp [hostWriteCmd, hd, h.2.2]⟩
    · exact ⟨.illegalCommand, by decide, by simp [hostWriteCmd, hd, h.2.2]⟩

/-- The two states differ at most in the host's own state, and host memory is the same or has one byte written. -/
def HostOnly (s t : State) : Prop :=
  ∃ host composing spoiled mem collected received,
    t = { s with host := host, composing := composing, spoiled := spoiled, mem := mem, collected := collected,
                 received := received } ∧
    (mem = s.mem ∨ ∃ a b, mem = s.mem.write a b)

/-- A change of the host's own state that leaves host memory alone. -/
theorem HostOnly.update (s : State) (host : List HostAccess) (composing : List HostOp) (spoiled : Bool)
    (collected : List Half) (received : List HostValue) :
    HostOnly s { s with host := host, composing := composing, spoiled := spoiled, collected := collected,
                        received := received } :=
  ⟨host, composing, spoiled, s.mem, collected, received, rfl, .inl rfl⟩

theorem HostOnly.refl (s : State) : HostOnly s s := .update s s.host s.composing s.spoiled s.collected s.received

/-- What a step of the machine does to the block, the host's own state apart. `resets` says when the reset input may
be asserted. -/
inductive BlockMove (env : Oracle) (resets : Prop) (s : State) : State → Prop where
  /-- The sequencer takes a step. -/
  | sequencer : BlockMove env resets s (seqStep env s)
  /-- The block stays as it is. -/
  | still : BlockMove env resets s s
  /-- A fault is raised. -/
  | raise (c : FaultCode) (h : c ≠ .none) : BlockMove env resets s (raiseFault c s)
  /-- A command is accepted. -/
  | accepts (i : Instr) (hw : wellFormed s.cfg.spiWidth i = true) (hf : s.fault = false) (hb : s.busy = false)
      (hi : isInit i = true ∨ s.initFlag (unitOf i) = true) :
      BlockMove env resets s (accept i (microprogram s.cfg s.spi i) s)
  /-- The reset input is asserted. -/
  | reset (h : resets) : BlockMove env resets s (assertReset s)

theorem exec_move (env : Oracle) (resets : Prop) {i : Instr} {s t : State} (h : exec i s = .next t) : BlockMove env resets s t := by
  rcases exec_cases i s with ⟨c, hc, he⟩ | ⟨hw, hf, hb, hi, he⟩
  · rw [he] at h; cases h; exact .raise c hc
  · rw [he] at h; cases h; exact .accepts i hw hf hb hi

theorem hostWrite_move (env : Oracle) (resets : Prop) {reg : Nat} {w : Word} {s t : State} (h : hostWrite reg w s = .next t) :
    BlockMove env resets s t := by
  unfold hostWrite at h
  split at h
  · rcases hostWriteCmd_cases w s with ⟨i, _, he⟩ | ⟨c, hc, he⟩
    · exact exec_move env resets (he ▸ h)
    · rw [he] at h; cases h; exact .raise c hc
  · cases h; exact .raise _ (by decide)

/-- Reading a register leaves the block as it is or raises a fault, and hands the host a value (R113). -/
theorem hostRead_cases (reg : Nat) (s : State) :
    (hostRead reg s).2 = s ∨ hostRead reg s = (0, raiseFault .badRegister s) := by
  unfold hostRead
  split <;> simp

/-- A composite command's result is handed over in the host's own state. -/
theorem deliverResult_hostOnly (d : Delivery) (s : State) : HostOnly s (deliverResult d s) := by
  cases d <;> exact .update s s.host s.composing s.spoiled [] _

/-- Everything a host access can do when it answers a next state: the host's own state changes, and then the block
makes at most one move. -/
theorem hostStep_cases (env : Oracle) {op : HostOp} {s t : State} (h : hostStep op s = .next t) :
    ∃ u, HostOnly s u ∧ BlockMove env (op = .assertReset) u t := by
  cases op with
  | write reg w => exact ⟨s, .refl s, hostWrite_move env _ h⟩
  | read reg =>
    simp only [hostStep] at h
    cases h
    rcases hostRead_cases reg s with he | he
    · rw [he]; exact ⟨_, .update s s.host s.composing s.spoiled s.collected _, .still⟩
    · rw [he, ← raiseFault_receive]
      exact ⟨s.receive _, .update s s.host s.composing s.spoiled s.collected _, .raise _ (by decide)⟩
  | wait => cases h; exact ⟨_, .refl s, .still⟩
  | assertReset => cases h; exact ⟨s, .refl s, .reset rfl⟩
  | composite c => cases h; exact ⟨_, .update s s.host _ false [] s.received, .still⟩
  | sendFrom u a =>
    simp only [hostStep, sendFromMemory] at h
    rcases memRead_cases a s (fun b => .next (s.compose (commandOps (sendByte u b)))) with ⟨b, _, _, he⟩ | ⟨_, _, he⟩ | ⟨_, he⟩
    · rw [he] at h; cases h; exact ⟨_, .update s s.host _ s.spoiled s.collected s.received, .still⟩
    · rw [he] at h; cases h
    · rw [he] at h; cases h
  | putsFrom a =>
    simp only [hostStep, putsTurn] at h
    rcases memRead_cases a s (fun b => if b = 0 then .next s
      else .next (s.compose (commandOps (.uartWrite b) ++ [.putsFrom (hostAddress s.cfg a 1)])))
      with ⟨b, _, _, he⟩ | ⟨_, _, he⟩ | ⟨_, he⟩
    · rw [he] at h
      split at h
      · cases h; exact ⟨s, .refl s, .still⟩
      · cases h; exact ⟨_, .update s s.host _ s.spoiled s.collected s.received, .still⟩
    · rw [he] at h; cases h
    · rw [he] at h; cases h
  | collect =>
    simp only [hostStep, unlessFaulted] at h
    split at h
    · cases h
    · cases h; exact ⟨_, .update s s.host s.composing s.spoiled _ s.received, .still⟩
  | store a =>
    simp only [hostStep, unlessFaulted] at h
    split at h
    · cases h
    · have := memWrite_next h
      exact ⟨t, ⟨s.host, s.composing, s.spoiled, _, s.collected, s.received, this, .inr ⟨_, _, rfl⟩⟩, .still⟩
  | deliver d =>
    simp only [hostStep, unlessFaulted] at h
    split at h
    · cases h
    · cases h; exact ⟨_, deliverResult_hostOnly d s, .still⟩

/-- The meaning of a command keeps what a composite remembers of its faults. -/
theorem exec_spoiled {i : Instr} {s t : State} (h : exec i s = .next t) : t.spoiled = s.spoiled := by
  rcases exec_cases i s with ⟨c, _, he⟩ | ⟨_, _, _, _, he⟩ <;> rw [he] at h <;> cases h <;> simp

theorem hostWrite_spoiled {reg : Nat} {w : Word} {s t : State} (h : hostWrite reg w s = .next t) :
    t.spoiled = s.spoiled := by
  unfold hostWrite at h
  split at h
  · rcases hostWriteCmd_cases w s with ⟨i, _, he⟩ | ⟨c, _, he⟩
    · exact exec_spoiled (he ▸ h)
    · rw [he] at h; cases h; simp
  · cases h; simp

/-- Everything a host access can do to what a composite remembers of its faults: the beginning of a composite clears it,
the reset input adds the fault it clears, and every other access keeps it. -/
theorem hostStep_spoiled {op : HostOp} {s t : State} (h : hostStep op s = .next t) :
    (∃ c, op = .composite c ∧ t.spoiled = false) ∨
    (op = .assertReset ∧ t.spoiled = (s.spoiled || (s.fault && !s.composing.isEmpty))) ∨ t.spoiled = s.spoiled := by
  cases op with
  | write reg w => exact .inr (.inr (hostWrite_spoiled h))
  | read reg =>
    cases h
    rcases hostRead_cases reg s with he | he <;> simp [he]
  | wait => cases h; exact .inr (.inr rfl)
  | assertReset => cases h; exact .inr (.inl ⟨rfl, rfl⟩)
  | composite c => cases h; exact .inl ⟨c, rfl, rfl⟩
  | sendFrom u a =>
    simp only [hostStep, sendFromMemory, memRead] at h
    split at h
    · split at h <;> cases h
      exact .inr (.inr rfl)
    · cases h
  | putsFrom a =>
    simp only [hostStep, putsTurn, memRead] at h
    split at h
    · split at h
      · split at h <;> cases h <;> exact .inr (.inr rfl)
      · cases h
    · cases h
  | collect =>
    simp only [hostStep, unlessFaulted] at h
    split at h <;> cases h
    exact .inr (.inr rfl)
  | store a =>
    simp only [hostStep, unlessFaulted] at h
    split at h
    · cases h
    · rw [memWrite_next h]; exact .inr (.inr rfl)
  | deliver d =>
    simp only [hostStep, unlessFaulted] at h
    split at h <;> cases h
    cases d <;> exact .inr (.inr rfl)

/-- Everything the host's next turn can be: the next access of its list, or the running composite's next access. -/
theorem nextTurn_cases {s : State} {x : Turn} (h : nextTurn s = some x) :
    (∃ a rest, s.host = a :: rest ∧ (s.composing = [] ∨ a.fallsHere = true) ∧ x = listTurn a rest s) ∨
    (∃ op ops, s.composing = op :: ops ∧ (∀ a ∈ s.host.head?, a.fallsHere = false) ∧ x = compositeTurn op ops s) := by
  unfold nextTurn at h
  split at h
  · cases h
  · next a rest hc hh => cases h; exact .inl ⟨a, rest, hh, .inl hc, rfl⟩
  · next op ops hc hh => cases h; exact .inr ⟨op, ops, hc, by simp [hh], rfl⟩
  · next op ops a rest hc hh =>
    cases h
    cases hf : a.fallsHere
    · exact .inr ⟨op, ops, hc, by simp [hh, hf], rfl⟩
    · exact .inl ⟨a, rest, hh, .inr hf, rfl⟩

/-- Taking the host's next access, or letting a sequencer step go before it, changes only the host's own state. -/
theorem nextTurn_hostOnly {s : State} {x : Turn} (h : nextTurn s = some x) :
    HostOnly s x.taken ∧ HostOnly s x.delayed := by
  rcases nextTurn_cases h with ⟨a, rest, _, _, rfl⟩ | ⟨op, ops, _, _, rfl⟩
  · exact ⟨.update s rest s.composing s.spoiled s.collected s.received, .update s _ s.composing s.spoiled s.collected s.received⟩
  · exact ⟨.update s _ ops s.spoiled s.collected s.received, .refl s⟩

theorem HostOnly.trans_update {s t u : State} {host : List HostAccess} {composing : List HostOp}
    (ht : t = { s with host := host, composing := composing }) (hu : HostOnly t u) : HostOnly s u := by
  obtain ⟨h, c, spoiled, mem, collected, received, rfl, hm⟩ := hu
  subst ht
  exact ⟨h, c, spoiled, mem, collected, received, rfl, hm⟩

/-- A due access is taken from the state without it: what is left of the host's program is all that differs. -/
theorem nextTurn_taken {s : State} {x : Turn} (h : nextTurn s = some x) :
    x.taken = { s with host := x.taken.host, composing := x.taken.composing } := by
  rcases nextTurn_cases h with ⟨a, rest, _, _, rfl⟩ | ⟨op, ops, _, _, rfl⟩ <;> rfl

theorem BlockMove.imp {env : Oracle} {p q : Prop} (hpq : p → q) {s t : State} (h : BlockMove env p s t) :
    BlockMove env q s t := by
  cases h with
  | sequencer => exact .sequencer
  | still => exact .still
  | raise c h => exact .raise c h
  | accepts i hw hf hb hi => exact .accepts i hw hf hb hi
  | reset h => exact .reset (hpq h)

/-- A due access is taken from the state itself, but for what is left of the host's program. -/
theorem State.due_state {s t : State} {op : HostOp} (h : s.due op t) :
    t = { s with host := t.host, composing := t.composing } := by
  obtain ⟨x, hx, _, rfl, _⟩ := h
  exact nextTurn_taken hx

/-- A step of a machine that may run takes the access that is due. -/
theorem stepWith_due {env : Oracle} {s t : State} {op : HostOp} (hr : s.runnable = true) (hd : s.due op t) :
    stepWith env s = hostStep op t := by
  obtain ⟨x, hx, rfl, rfl, hm⟩ := hd
  simp only [State.runnable, Bool.and_eq_true] at hr
  simp [stepWith, hr, stepAgents, hx, hm]

theorem step_due {s t : State} {op : HostOp} (hr : s.runnable = true) (hd : s.due op t) : step s = hostStep op t :=
  stepWith_due hr hd

/-- Everything a step can do when it answers a next state. -/
theorem stepWith_cases {env : Oracle} {s t : State} (h : stepWith env s = .next t) :
    s.cfg.valid = true ∧ ∃ u, HostOnly s u ∧ BlockMove env (∃ v, s.due .assertReset v) u t := by
  unfold stepWith at h
  split at h
  · next hv =>
    refine ⟨hv, ?_⟩
    split at h
    · unfold stepAgents at h
      split at h
      · cases h; exact ⟨s, .refl s, .sequencer⟩
      · next x hx =>
        split at h
        · cases h; exact ⟨_, (nextTurn_hostOnly hx).2, .sequencer⟩
        · next hm =>
          obtain ⟨u, hu, hb⟩ := hostStep_cases env h
          exact ⟨u, hu.trans_update (nextTurn_taken hx), hb.imp fun hop =>
            ⟨x.taken, x, hx, hop, rfl, by simpa using hm⟩⟩
    · cases h
  · cases h

theorem step_cases {s t : State} (h : step s = .next t) :
    s.cfg.valid = true ∧ ∃ u, HostOnly s u ∧ BlockMove s.bus.oracle (∃ v, s.due .assertReset v) u t := stepWith_cases h

/-- An invariant of the block that does not speak of the host's own state, and that every move of the block keeps, is
kept by every step. -/
theorem step_keeps {P : State → Prop} (hhost : ∀ s u, HostOnly s u → P s → P u)
    (hmove : ∀ env resets s t, s.cfg.valid = true → BlockMove env resets s t → P s → P t) {s t : State} (hp : P s)
    (h : step s = .next t) : P t := by
  obtain ⟨hv, u, hu, hm⟩ := step_cases h
  have hcfg : u.cfg.valid = true := by
    obtain ⟨_, _, _, _, _, _, rfl, _⟩ := hu; exact hv
  exact hmove _ _ _ _ hcfg hm (hhost _ _ hu hp)

end Sys2Proof.Machine
end

