-- ==== Sys2Proof/Tests/Slice0.lean ====
section
/-! SUPPORT. Tests, their expected results taken from the spec (spec/30_encoding.md R89, spec/95_test_vectors.md and the
examples of the rules), and the witnesses of the statements' hypotheses. -/

namespace Sys2Proof.Tests

open Sys2Proof Sys2Proof.Machine

/-! ### Decoding: words written out from R81 to R89 -/

theorem test_word_i2cInit : decode 8 0b00000000000000000000000000000000 = .ok .i2cInit := by decide
theorem test_word_i2cStart : decode 8 0b00000100000000000000000000000000 = .ok .i2cStart := by decide
theorem test_word_i2cStop : decode 8 0b00001000000000000000000000000000 = .ok .i2cStop := by decide
theorem test_word_i2cRestart : decode 8 0b00001100000000000000000000000000 = .ok .i2cRestart := by decide
theorem test_word_i2cWrite : decode 8 0b00010000000000000000000010100101 = .ok (.i2cWrite 0xA5) := by decide
theorem test_word_i2cRead_ack : decode 8 0b00010110000000000000000000000000 = .ok (.i2cRead true) := by decide
theorem test_word_i2cRead_nack : decode 8 0b00010100000000000000000000000000 = .ok (.i2cRead false) := by decide
theorem test_word_spiInit : decode 8 0b01000000000000000000000000000000 = .ok .spiInit := by decide
theorem test_word_spiSetMode : decode 8 0b01000100000000100000000000000000 = .ok (.spiSetMode 2) := by decide
theorem test_word_spiGetMode : decode 8 0b01001000000000000000000000000000 = .ok .spiGetMode := by decide
theorem test_word_spiWriteB : decode 8 0b01001100000000000000000010100101 = .ok (.spiWriteB 0xA5) := by decide
theorem test_word_spiWriteN : decode 12 0b01010000000000000000101010111100 = .ok (.spiWriteN 0xABC) := by decide
theorem test_word_spiReadB : decode 8 0b01010100000000000000000000000000 = .ok .spiReadB := by decide
theorem test_word_spiReadN : decode 8 0b01011000000000000000000000000000 = .ok .spiReadN := by decide
theorem test_word_spiXmit : decode 8 0b01011100000000000000000010011111 = .ok (.spiXmit 0x9F) := by decide
theorem test_word_uartInit : decode 8 0b10000000000000000000000000000000 = .ok .uartInit := by decide
theorem test_word_uartWrite : decode 8 0b10000100000000000000000001000001 = .ok (.uartWrite 0x41) := by decide
theorem test_word_uartRead : decode 8 0b10001000000000000000000000000000 = .ok .uartRead := by decide

/-- V1 to V20. -/
theorem test_vector_words : Obligations.VectorWordsDecode := by unfold Obligations.VectorWordsDecode; decide

/-- The table's numbering of the bits, and the shorter and longer words it could give. -/
theorem test_table_word : decodeTableWord 32 0x10000041 = some (.i2cWrite 0x41) ∧
    decodeTableWord 32 0xC0000000 = none ∧ decodeTableWord 40 0x10000041 = none := by decide

/-- No two rows of the opcode map share a word: some bit that both fix differs (R89). -/
theorem test_rows_disjoint :
    opcodeRows.Pairwise (fun x y => (x.matchBits ^^^ y.matchBits) &&& x.mask &&& y.mask ≠ 0) := by decide

/-! ### The well-formedness of commands and the validity of configurations -/

/-- `DATA[15:W]` must be 0 (R87): the value one bit too wide is refused at every boundary of the width. -/
theorem test_wellFormed_smoke : wellFormed 12 (.spiWriteN 0x1ABC) = false ∧ wellFormed 1 (.spiWriteN 2) = false ∧
    wellFormed 15 (.spiWriteN 0x8000) = false ∧ wellFormed 12 (.spiWriteN 0xFFF) = true ∧
    wellFormed 1 (.spiWriteN 1) = true ∧ wellFormed 16 (.spiWriteN 0xFFFF) = true := by decide

/-- R8: each condition of a valid configuration refuses the configuration that breaks it alone. -/
theorem test_config_smoke : Config.initial.valid = true ∧
    { Config.initial with spiWidth := 0 }.valid = false ∧ { Config.initial with spiWidth := 17 }.valid = false ∧
    { Config.initial with spiInitMode := 4 }.valid = false ∧
    { Config.initial with pinMap := { Config.initial.pinMap with rx := 0 } }.valid = false ∧
    { Config.initial with baud := 0 }.valid = false ∧ { Config.initial with fClk := 0 }.valid = false ∧
    { Config.initial with tI2c := -1 }.valid = false ∧ { Config.initial with tStep := 2 }.valid = false := by decide

/-! ### Small states -/

/-- The configuration of spec/95_test_vectors.md. -/
def vectorConfig : Config := { Config.initial with spiWidth := 8 }

/-- The block of the test vectors right after reset. -/
def afterReset : State := State.resetOf vectorConfig

/-- The block with its three units initialised, SPI in the given mode, and no command running. -/
def ready (m : BitVec 2) : State :=
  { afterReset with i2cInit := true, spiInit := true, uartInit := true, spi := modeCfg m }

/-- A bus on which every line reads 1. -/
def high : Oracle := fun _ _ => true

/-- A bus on which every line reads 0. -/
def low : Oracle := fun _ _ => false

/-- The micro-operations of a command, without the computation between them. -/
def ops (s : State) (i : Instr) : List MicroOp := (microprogram s.cfg s.spi i).map MicroStep.op

/-- The state before the last micro-operation of a command: its `μDONE`. -/
def atDone (s : State) (i : Instr) : State :=
  let text := microprogram s.cfg s.spi i
  { s with busy := true, cmd := some (encode i), pc := text.drop (text.length - 1) }

/-- `UART.READ` is running and waits for its start bit, after the given history. -/
def waiting (h : List Event) : State :=
  { afterReset with uartInit := true, busy := true, cmd := some 0x88000000, pc := uartReadText .level, hist := h }

/-- What a step or an access answers, when it is a next state. -/
def nextState : Host.Outcome State Fault Refusal → Option State
  | .next s => some s
  | .fault _ => none
  | .refused _ => none

/-- What a step or an access answers, when it is a fault of the model. -/
def faultOf : Host.Outcome State Fault Refusal → Option Fault
  | .next _ => none
  | .fault f => some f
  | .refused _ => none

/-- What a step or an access answers, when it is a refusal. -/
def refusal : Host.Outcome State Fault Refusal → Option Refusal
  | .next _ => none
  | .fault _ => none
  | .refused r => some r

/-- `STATUS`, `RESULT` and `SPICFG` after a `μDONE`. -/
def wordsAfterDone (s : State) (i : Instr) : Word × Word × Word :=
  let t := seqStep high (atDone s i)
  (t.statusWord, t.resultWord, t.spicfgWord)

/-- `STATUS` after a host write of a word to `CMD`. -/
def statusAfter (w : Word) (s : State) : Option Word := (nextState (hostWrite 0 w s)).map State.statusWord

/-! ### Commands: micro-operations, and the registers after `μDONE` -/

/-- V21. -/
theorem test_i2cInit_ops : ops (ready 0) .i2cInit = [.input .scl, .input .sda, .done [.init .i2c]] := by decide
theorem test_i2cInit_done : wordsAfterDone afterReset .i2cInit = (0x00000100, 0, 0) := by decide

/-- V22. -/
theorem test_i2cStart_ops : ops (ready 0) .i2cStart =
    [.input .sda, .delay .i2c, .input .scl, .delay .i2c, .low .sda, .delay .i2c, .low .scl, .delay .i2c, .done []] := by
  decide

/-- V25. -/
theorem test_i2cStop_ops : ops (ready 0) .i2cStop =
    [.low .sda, .delay .i2c, .input .scl, .delay .i2c, .input .sda, .delay .i2c, .done []] := by decide

/-- V26. -/
theorem test_i2cRestart_ops : ops (ready 0) .i2cRestart =
    [.input .sda, .delay .i2c, .input .scl, .delay .i2c, .low .sda, .delay .i2c, .done []] := by decide

/-- V23: bit 7 (1), bit 6 (0), and the acknowledge slot. -/
theorem test_i2cWrite_ops : (ops (ready 0) (.i2cWrite 0xA5)).take 12 =
      [.low .scl, .delay .i2c, .input .sda, .input .scl, .wait .scl true, .delay .i2c,
        .low .scl, .delay .i2c, .low .sda, .input .scl, .wait .scl true, .delay .i2c] ∧
    (ops (ready 0) (.i2cWrite 0xA5)).drop 48 =
      [.low .scl, .input .sda, .sample .sda .ackBit, .input .scl, .wait .scl true, .delay .i2c, .low .scl,
        .done [.result .ackReceived, .ack]] := by decide

/-- V23 (SDA low at the sample: ACK) and V28 (SDA high: NACK, no fault). -/
theorem test_i2cWrite_done :
    wordsAfterDone { ready 0 with a := false, spiInit := false, uartInit := false } (.i2cWrite 0xA5) =
      (0x00000102, 1, 0x28) ∧
    wordsAfterDone { ready 0 with a := true, ack := true, value := 7, spiInit := false, uartInit := false }
      (.i2cWrite 0x5A) = (0x00000100, 0, 0x28) := by decide

/-- V24: the last data bit and the acknowledge slot of `READ nack`; the slot of `READ ack`. -/
theorem test_i2cRead_ops : (ops (ready 0) (.i2cRead false)).drop 42 =
      [.low .scl, .delay .i2c, .input .scl, .wait .scl true, .delay .i2c, .sample .sda .shiftBit,
        .low .scl, .input .sda, .delay .i2c, .input .scl, .wait .scl true, .delay .i2c, .low .scl, .input .sda,
        .done [.result (.shiftLow 8)]] ∧
    ((ops (ready 0) (.i2cRead true)).drop 48).take 3 = [.low .scl, .low .sda, .delay .i2c] := by decide

/-- V24: the result is `s.r[7:0]`, and `STATUS.ACK` stays. -/
theorem test_i2cRead_done :
    wordsAfterDone { ready 0 with r := 0xFF3C, ack := true } (.i2cRead false) = (0x00000702, 0x3C, 0x28) := by decide

/-- `SPI.INIT` with `SPI_INIT_MODE = 3` (R203). -/
theorem test_spiInit_ops : ops { ready 0 with cfg := { vectorConfig with spiInitMode := 3 } } .spiInit =
    [.setMode 3, .out .mosi false, .input .miso, .out .sck true, .done [.init .spi]] := by decide
theorem test_spiInit_done : wordsAfterDone { afterReset with spi := modeCfg 3 } .spiInit = (0x00000200, 0, 0x2F) := by
  decide

/-- V34. -/
theorem test_spiSetMode_ops : ops (ready 0) (.spiSetMode 2) = [.setMode 2, .out .sck true, .done []] := by decide
theorem test_spiSetMode_step : ((nextState (exec (.spiSetMode 2) (ready 0))).map fun t =>
    (seqStep high t).spicfgWord) = some 0x36 := by decide

/-- V35. -/
theorem test_spiGetMode_done : wordsAfterDone (ready 2) .spiGetMode = (0x00000700, 2, 0x36) := by decide

/-- `SPI.WRITEB 0xA5` in mode 1 (spec/95_test_vectors.md section 2.3): `SCK↑ MOSI:1 SCK↓ SCK↑ MOSI:0` and the end. -/
theorem test_spiWriteB_ops : (ops (ready 1) (.spiWriteB 0xA5)).take 5 =
      [.out .sck true, .out .mosi true, .out .sck false, .out .sck true, .out .mosi false] ∧
    (ops (ready 1) (.spiWriteB 0xA5)).drop 22 =
      [.out .mosi true, .out .sck false, .out .sck false, .done []] := by decide

/-- V39. -/
theorem test_spiWriteN_ops : ops { ready 0 with cfg := { vectorConfig with spiWidth := 1 } } (.spiWriteN 1) =
    [.out .sck false, .out .mosi true, .out .sck true, .out .sck false, .done []] := by decide

/-- V36: the bits of 0xABC on MOSI with `SPI_WIDTH = 12`. -/
theorem test_spiWriteN_bits :
    ((ops { ready 0 with cfg := { vectorConfig with spiWidth := 12 } } (.spiWriteN 0xABC)).filterMap fun o =>
      match o with
      | .out .mosi v => some v
      | _ => none) =
      [true, false, true, false, true, false, true, true, true, true, false, false] := by decide

/-- V32 and V41: in mode 3 MISO is sampled right after the drive to the sampling level, MOSI held at the fill. -/
theorem test_spiReadB_ops : (ops (ready 3) .spiReadB).take 5 =
      [.out .sck false, .out .mosi true, .out .sck true, .sample .miso .shiftBit, .out .sck false] ∧
    (ops { ready 3 with cfg := { vectorConfig with spiReadFill := false } } .spiReadB).take 2 =
      [.out .sck false, .out .mosi false] := by decide
theorem test_spiReadB_done : wordsAfterDone { ready 3 with r := 0x5A } .spiReadB = (0x00000700, 0x5A, 0x2F) := by decide

/-- V38. -/
theorem test_spiReadN_done :
    wordsAfterDone { ready 0 with cfg := { vectorConfig with spiWidth := 10 }, r := 0xFFFF } .spiReadN =
      (0x00000700, 0x3FF, 0x28) := by decide
theorem test_spiReadN_steps :
    (ops { ready 0 with cfg := { vectorConfig with spiWidth := 10 } } .spiReadN).length = 42 := by decide

/-- E3: the start of the trace of `SPI.XMIT 0x9F` in mode 0. -/
theorem test_spiXmit_ops : (ops (ready 0) (.spiXmit 0x9F)).take 7 =
    [.out .sck false, .out .mosi true, .out .sck true, .sample .miso .shiftBit, .out .sck false, .out .mosi false,
      .out .sck true] := by decide
theorem test_spiXmit_done : wordsAfterDone { ready 1 with r := 0x42 } (.spiXmit 0x9F) = (0x00000700, 0x42, 0x31) := by
  decide

/-- V42. -/
theorem test_uartInit_ops : ops (ready 0) .uartInit = [.out .tx true, .input .rx, .done [.init .uart]] := by decide
theorem test_uartInit_done : wordsAfterDone afterReset .uartInit = (0x00000400, 0, 0) := by decide

/-- V43: the frame of 0x41. -/
theorem test_uartWrite_ops : ((ops (ready 0) (.uartWrite 0x41)).filterMap fun o =>
      match o with
      | .out .tx v => some v
      | _ => none) = [false, true, false, false, false, false, false, true, false, true] ∧
    (ops (ready 0) (.uartWrite 0x41)).length = 21 := by decide

/-- V44 and V45: the waits, the delay, the first samples and the end. -/
theorem test_uartRead_ops : (ops (ready 0) .uartRead).take 5 =
      [.wait .rx false, .delay .bit15, .sample .rx .shiftBit, .delay .bit, .sample .rx .shiftBit] ∧
    (ops (ready 0) .uartRead).drop 15 = [.delay .bit, .sample .rx .shiftBit, .done [.result (.shiftLow 8)]] ∧
    (ops { ready 0 with cfg := { vectorConfig with uartStartDetect := .edge } } .uartRead).take 3 =
      [.wait .rx true, .wait .rx false, .delay .bit15] := by decide
theorem test_uartRead_done : wordsAfterDone { ready 0 with r := 0x42 } .uartRead = (0x00000700, 0x42, 0x28) := by decide

/-! ### Single micro-operations -/

/-- R117: sample number 5 of a read goes to bit 5, with the index taken together with the micro-operation. -/
theorem test_sample_bit : (seqStep high { ready 0 with r := 0x0F00, pc :=
    [{ pre := [.setIndex 5], op := .sample .miso .shiftBit }] }).r = 0x0F20 := by decide

/-- R121: SDA driven low reads 0 whatever the bus answers. -/
theorem test_sample_driven_low : (seqStep high { ready 0 with r := 0xFFFF, i := 7, pins :=
    { afterReset.pins with sda := { dir := .output, latch := some false } }, pc :=
    [plain (.sample .sda .shiftBit)] }).r = 0xFF7F := by decide

/-- E5: a poll that reads 0 leaves `pc`; one that reads 1 moves it. -/
theorem test_wait_polls :
    (seqStep low { ready 0 with pc := [plain (.wait .scl true), plain (.delay .i2c)] }).pc.length = 2 ∧
    (seqStep low { ready 0 with pc := [plain (.wait .scl true)] }).hist = [.poll .scl false] ∧
    (seqStep high { ready 0 with pc := [plain (.wait .scl true), plain (.delay .i2c)] }).pc = [plain (.delay .i2c)] := by
  decide

/-- R114: releasing a line keeps its latch. -/
theorem test_input_keeps_latch : (seqStep high { ready 0 with pins :=
    { afterReset.pins with sda := { dir := .output, latch := some false } }, pc := [plain (.input .sda)] }).pins.sda =
    { dir := .input, latch := some false } := by decide

/-! ### Faults (spec/95_test_vectors.md section 2.5) -/

/-- V49, V50, V51, V52, V53. -/
theorem test_fault_words : statusAfter 0x04000000 afterReset = some 0x00000034 ∧
    statusAfter 0x00000000 { afterReset with fault := true, fcode := .notInitialised } = some 0x00000034 ∧
    statusAfter 0xC0000000 afterReset = some 0x00000014 ∧ statusAfter 0x8C000000 afterReset = some 0x00000014 ∧
    statusAfter 0x10000100 { afterReset with i2cInit := true } = some 0x00000114 := by decide

/-- V54: the word is discarded and `UART.READ` keeps running. -/
theorem test_fault_while_busy :
    (nextState (hostWrite 0 0x84000041 (waiting []))).map (fun t => (t.statusWord, t.pc)) =
      some (0x00000425, uartReadText .level) := by decide

/-- V55 and V56: a read of register 4 and of `CMD`. -/
theorem test_fault_reads :
    (hostRead 4 { afterReset with i2cInit := true }).1 = 0 ∧
    (hostRead 4 { afterReset with i2cInit := true }).2.statusWord = 0x00000144 ∧
    (hostRead 0 { afterReset with i2cInit := true }).2.statusWord = 0x00000144 := by decide

/-- V37: data above the width. -/
theorem test_fault_width : statusAfter 0x50001ABC { afterReset with spiInit := true, cfg :=
    { vectorConfig with spiWidth := 12 } } = some 0x00000214 := by decide

/-- V59. -/
theorem test_reset : ((assertReset { ready 3 with busy := true, fault := true }).statusWord,
    (assertReset { ready 3 with hist := [.low .scl] }).hist) = (0x00000000, []) := by decide

/-- A step from reset runs the word placed for it. -/
theorem test_step_runs_word : (nextState (step (State.reset.withFetchWord 32 0x80000000))).map (fun t =>
    (t.statusWord, t.cmd)) = some (0x00000001, some 0x80000000) := by decide

/-! ### Composite commands (spec/95_test_vectors.md section 2.6) -/

/-- V60: `i2c.write16 0x1234`. -/
theorem test_i2cWrite16 : expand vectorConfig (.i2cWrite (.value (.u16 0x1234))) =
    [.wait, .write 0 0x10000034, .wait, .collect, .wait, .write 0 0x10000012, .wait, .collect, .deliver .acks] := by
  decide

/-- V61: `i2c.read16 nack`. -/
theorem test_i2cRead16 : expand vectorConfig (.i2cRead .u16 false .value) =
    [.wait, .write 0 0x16000000, .wait, .collect, .wait, .write 0 0x14000000, .wait, .collect, .deliver (.value .u16)] := by
  decide

/-- V62: the value of the bytes 01 02 03 04; under `BIG` the first byte is the most significant (R291). -/
theorem test_joinBytes : joinBytes .little [1, 2, 3, 4] = 0x04030201 ∧ joinBytes .big [1, 2, 3, 4] = 0x01020304 := by
  decide

/-- V63: `spi.write32 0xDEADBEEF`. -/
theorem test_spiWrite32 : valueBytes .little 4 0xDEADBEEF = [0xEF, 0xBE, 0xAD, 0xDE] ∧
    expand vectorConfig (.spiWrite (.value (.u16 0xBEEF))) =
      [.wait, .write 0 0x4C0000EF, .wait, .wait, .write 0 0x4C0000BE, .wait, .deliver .nothing] := by decide

/-- V64: `uart.write24 0x0A0B0C`. -/
theorem test_uartWrite24 : expand vectorConfig (.uartWrite (.value (.u24 0x0A0B0C))) =
    [.wait, .write 0 0x8400000C, .wait, .wait, .write 0 0x8400000B, .wait, .wait, .write 0 0x8400000A, .wait,
      .deliver .nothing] := by decide

/-- V66 and V67: `uart.gets a, cap, n`; the program of V67 is refused before its first access runs. -/
theorem test_gets : expand vectorConfig (.gets 16 8 1) = [.wait, .write 0 0x88000000, .wait, .store 16, .deliver .nothing] ∧
    refusal (step { afterReset with host := [⟨0, none, .write 0 0x80000000⟩, ⟨0, none, .composite (.gets 16 2 3)⟩] }) =
      some .getsOverCapacity ∧
    refusal (step { afterReset with host := [⟨0, none, .composite (.gets 16 3 3)⟩] }) = none := by decide

/-- V65: the NUL of an empty string sends nothing; P4: the first byte of "AB"; the last address is followed by 0. -/
theorem test_puts : (nextState (putsTurn 8 { afterReset with mem := [(8, 0)] })).map State.composing = some [] ∧
    (nextState (putsTurn 8 { afterReset with mem := [(8, 0x41)] })).map State.composing =
      some [.wait, .write 0 0x84000041, .wait, .putsFrom 9] ∧
    (nextState (putsTurn 0xFFFFFFFF { afterReset with mem := [(0xFFFFFFFF, 0x41)] })).map State.composing =
      some [.wait, .write 0 0x84000041, .wait, .putsFrom 0] := by decide

/-- R290: a read of `STATUS` falls between a composite's accesses, after one of them, and the composite goes on. -/
theorem test_composite_interleaved :
    (nextState (step { afterReset with composing := [.collect, .wait], host := [⟨0, some 1, .read 2⟩] })).map (fun t =>
      (t.composing, t.host)) = some ([.wait], [⟨0, some 0, .read 2⟩]) ∧
    (nextState (step { afterReset with composing := [.wait], host := [⟨0, some 0, .read 2⟩] })).map (fun t =>
      (t.composing, t.host, t.received)) = some ([.wait], [], [.reg 2 0]) := by decide

/-- A composite starts with no result kept, and leaves none. -/
theorem test_composite_keeps_nothing :
    (beginComposite (.spiRead .u16 .value) { afterReset with collected := [7] }).collected = [] ∧
    (deliverResult (.value .u16) { afterReset with collected := [0x34, 0x12] }).collected = [] ∧
    (deliverResult (.value .u16) { afterReset with collected := [0x34, 0x12] }).received = [.value .u16 0x1234] := by
  decide
/-- V68: a NACK is delivered as 0 and stops nothing. -/
theorem test_acks_delivered : (deliverResult .acks { afterReset with collected := [0, 1] }).received =
    [.acks [false, true]] := by decide

/-- R290, I20: a fault part-way in a composite, cleared by the reset input before its end, still faults its end; a fault
from before the composite, cleared before it began, does not. -/
theorem test_composite_remembers_fault :
    (nextState (step { afterReset with composing := [.deliver .nothing], host := [⟨0, some 0, .read 4⟩] })).map (fun t =>
      (t.fault, t.spoiled, t.composing)) = some (true, false, [.deliver .nothing]) ∧
    (nextState (step { afterReset with
      fault := true, fcode := .badRegister, composing := [.deliver .nothing], host := [⟨0, some 0, .assertReset⟩] })).map
      (fun t => (t.fault, t.spoiled, t.composing)) = some (false, true, [.deliver .nothing]) ∧
    faultOf (step { afterReset with spoiled := true, composing := [.deliver .nothing] }) = some .compositeAfterFault ∧
    (assertReset { afterReset with fault := true, fcode := .badRegister }).spoiled = false := by decide

/-! ### Assembler syntax (R93, R94) -/

theorem test_assemble_commands :
    assemble 8 "i2c.write 0xA5 ; a byte" = some [.write 0 0x100000A5] ∧
    assemble 8 "i2c.read ack" = some [.write 0 0x16000000] ∧
    assemble 8 "spi.setmode 3" = some [.write 0 0x44030000] ∧
    assemble 8 "uart.init" = some [.write 0 0x80000000] ∧
    assemble 8 "rd STATUS" = some [.read 2] ∧ assemble 8 "wait" = some [.wait] := by decide

/-- Operands out of range are rejected. -/
theorem test_assemble_rejects :
    assemble 8 "i2c.write 256" = none ∧ assemble 8 "spi.setmode 4" = none ∧ assemble 8 "spi.writen 256" = none ∧
    assemble 9 "spi.writen 256" = some [.write 0 0x50000100] ∧ assemble 8 "i2c.read maybe" = none ∧
    assemble 8 "uart.write" = none ∧ assemble 8 "uart.gets 16, 2, 3" = none := by decide

theorem test_assemble_pseudo :
    assemble 8 "i2c.write16 0x1234" = some [.composite (.i2cWrite (.value (.u16 0x1234)))] ∧
    assemble 8 "uart.gets 16, 8, 3" = some [.composite (.gets 16 8 3)] ∧
    assemble 8 "i2c.readf32 nack" = some [.composite (.i2cRead .f32 false .value)] := by decide

/-! ### Witnesses: states, operands and buses that meet the hypotheses of each statement -/

/-- A bus whose answers do not depend on the history. -/
def steady (f : Line → Bool) : Oracle := fun l _ => f l

/-- Every read in a piece of history is answered as the steady bus answers. -/
def steadyReads (f : Line → Bool) (events : List Event) : Bool :=
  events.all fun e => match e with
    | .poll l v => f l == v
    | .sample l v => f l == v
    | _ => true

theorem agrees_steady {f : Line → Bool} {h events : List Event} (hr : steadyReads f events = true) :
    Agrees (steady f) h events := by
  intro k l v hk
  have hall := List.all_eq_true.1 hr
  rcases hk with hk | hk
  · simpa [steady] using hall _ (List.mem_of_getElem? hk)
  · simpa [steady] using hall _ (List.mem_of_getElem? hk)

/-- A bus on which SCL reads 1 and every other line 0: a peer that acknowledges, and does not stretch. -/
def acking : Line → Bool := fun l => decide (l = .scl)

/-- A bus on which RX reads 0 right after a poll of RX that read 1, and 1 otherwise; every other line reads 1. -/
def toggling : Oracle := fun l h => if l = .rx then decide (h.getLast? ≠ some (.poll .rx true)) else true

/-- Commands whose boundary operands the witnesses use, one of each kind. -/
def commands : List Instr :=
  [.i2cInit, .i2cStart, .i2cStop, .i2cRestart, .i2cWrite 0xFF, .i2cRead true, .spiInit, .spiSetMode 3, .spiGetMode] ++
  [.spiWriteB 0xFF, .spiWriteN 0xFF, .spiReadB, .spiReadN, .spiXmit 0, .uartInit, .uartWrite 0, .uartRead]

/-- The command is accepted by the block with its units initialised. -/
def accepted (i : Instr) : Bool := ((nextState (exec i (ready 0))).map State.busy) == some true

theorem exec_next {i : Instr} {s : State} {t : State} (h : nextState (exec i s) = some t) : exec i s = .next t := by
  revert h
  cases exec i s <;> simp [nextState]

/-- Some step from the state answers a next state. -/
def steps (s : State) : Bool := (nextState (step s)).isSome

theorem step_next {s : State} (h : steps s = true) : ∃ t, step s = .next t := by
  revert h
  unfold steps
  cases step s <;> simp [nextState]

/-- The state with a host program of one access. -/
def withOp (s : State) (op : HostOp) : State := { s with host := [⟨0, none, op⟩] }

/-- Outside a composite, an access that waits for nothing is due at once. -/
theorem due_withOp {s : State} (op : HostOp) (hc : s.composing = []) (hw : op.waitsOn s = false) :
    (withOp s op).due op { s with host := [] } := by
  refine ⟨listTurn ⟨0, none, op⟩ [] (withOp s op), ?_, rfl, rfl, ?_⟩
  · simp [nextTurn, withOp, hc]
  · have : op.waitsOn (withOp s op) = op.waitsOn s := by cases op <;> rfl
    simp [sequencerMoves, listTurn, this, hw]
/-- A block that runs `SPI.WRITEB 0xFF`. -/
def shifting : State := accept (.spiWriteB 0xFF) (spiWriteBText (modeCfg 2) 0xFF)
  { ready 2 with pins := { afterReset.pins with sck := { dir := .output, latch := some true } } }

/-- A block with a recorded fault. -/
def faulted : State := { ready 0 with fault := true, fcode := .badRegister }

theorem witness_DecodeOfEncode : wellFormed 1 (.spiWriteN 1) = true ∧ wellFormed 16 (.spiWriteN 0xFFFF) = true ∧
    (commands.all fun i => wellFormed 8 i) = true := by decide
theorem witness_EncodeOfDecode : decode 16 0x5000FFFF = .ok (.spiWriteN 0xFFFF) := by decide
theorem witness_LegalWordsAreTheOpcodeMap : ∃ row ∈ opcodeRows, row.matchesWord 0x16000000 = true :=
  ⟨⟨.i2cRead, 0x14000000, 0xFDFFFFFF⟩, by decide, by decide⟩
theorem witness_IllegalWordsFault : (decode 8 0xC0000000 = .error .reservedCommand) ∧ (ready 0).cfg.spiWidth = 8 := by
  decide
theorem witness_StepRunsDecodedCommand : (withOp (ready 0) (.write 0 0x5C0000FF)).runnable = true ∧
    (withOp (ready 0) (.write 0 0x5C0000FF)).due (.write 0 0x5C0000FF) (ready 0) ∧
    decode (ready 0).cfg.spiWidth 0x5C0000FF = .ok (.spiXmit 0xFF) :=
  ⟨by decide, due_withOp _ rfl rfl, by decide⟩

/-- A state for each clause: no access left, and the end of the run; and, on the host's list, a wait, and an access whose
steps are not over, each of them with no composite running and falling inside a running one. -/
theorem witness_SequencerStepsWhileHostWaits : ((waiting []).runnable = true ∧ (waiting []).pc ≠ [] ∧
      (waiting []).busy = true ∧ (waiting []).host = [] ∧ (waiting []).composing = []) ∧ (ready 0).ended ∧
    (∀ op : HostOp, op = .wait ∨ op = .read 2 → ∀ composing : List HostOp, composing = [] ∨ composing = [.collect] →
      ({ waiting [] with composing := composing, host := [⟨1, some 0, op⟩] } : State).runnable = true ∧
      ∀ c, op ≠ .composite c) :=
  ⟨⟨by decide, by decide, rfl, rfl, rfl⟩, ⟨rfl, rfl, rfl⟩, by
    rintro op (rfl | rfl) composing (rfl | rfl) <;> exact ⟨by decide, by simp⟩⟩
/-- A state for each clause about a composite's turn: its wait while `BUSY` is 1, and its due access; before an access of
the list that falls later, and before a composite that is next in the list. -/
theorem witness_SequencerStepsWhileHostWaits_composite : ∀ a : HostAccess,
    a = ⟨0, some 1, .read 2⟩ ∨ a = ⟨0, some 0, .composite (.puts 0)⟩ →
      (a.within ≠ some 0 ∨ ∃ c, a.op = .composite c) ∧
      ({ waiting [] with composing := [.wait, .collect], host := [a] } : State).runnable = true ∧
      (waiting []).busy = true ∧ ({ ready 0 with composing := [.wait], host := [a] } : State).runnable = true ∧
      (ready 0).busy = false := by
  rintro a (rfl | rfl)
  · exact ⟨.inl (by decide), by decide, rfl, by decide, rfl⟩
  · exact ⟨.inr ⟨_, rfl⟩, by decide, rfl, by decide, rfl⟩
/-- A wait that is due, and an access that falls inside a composite and is due. -/
theorem witness_SequencerStepsWhileHostWaits_due : (withOp (ready 0) .wait).due .wait (ready 0) ∧
    ∃ s t : State, s.runnable = true ∧ s.composing = [.wait] ∧ s.host = [⟨0, some 0, .read 2⟩] ∧ s.due (.read 2) t :=
  ⟨due_withOp _ rfl rfl, { ready 0 with composing := [.wait], host := [⟨0, some 0, .read 2⟩] }, _, by decide, rfl, rfl,
    ⟨_, rfl, rfl, rfl, by decide⟩⟩
theorem witness_HostRegisterAccesses : (∀ reg, (withOp (ready 0) (.read reg)).runnable = true ∧
      (withOp (ready 0) (.read reg)).due (.read reg) (ready 0)) ∧
    (∀ reg w, (withOp (waiting []) (.write reg w)).runnable = true ∧
      (withOp (waiting []) (.write reg w)).due (.write reg w) (waiting [])) := by
  have hv : vectorConfig.valid = true := by decide
  refine ⟨fun reg => ⟨?_, due_withOp _ rfl rfl⟩, fun reg w => ⟨?_, due_withOp _ rfl rfl⟩⟩
  · show (vectorConfig.valid && true) = true; rw [hv]; rfl
  · show (vectorConfig.valid && true) = true; rw [hv]; rfl
theorem witness_RegisterWordLayout : afterReset.spi.valid = false ∧ (ready 0).spi.valid = true ∧
    ∀ m, (ready m).spi = modeCfg m := ⟨rfl, rfl, fun _ => rfl⟩
theorem witness_CommandWriteFollowsAcceptance : (withOp (ready 0) (.write 0 0xC0000000)).runnable = true ∧
    (withOp (ready 0) (.write 0 0xC0000000)).due (.write 0 0xC0000000) (ready 0) ∧
    decode (ready 0).cfg.spiWidth 0xC0000000 = .error .reservedCommand := ⟨by decide, due_withOp _ rfl rfl, by decide⟩
theorem witness_CommandsTurnedAway : faulted.fault = true ∧ ((waiting []).fault = false ∧ (waiting []).busy = true) ∧
    (afterReset.free ∧ wellFormed 8 .i2cStart = true ∧ afterReset.initFlag .i2c = false) ∧
    ((ready 0).free ∧ wellFormed (ready 0).cfg.spiWidth (.spiWriteN 0x100) = false) :=
  ⟨rfl, ⟨rfl, rfl⟩, ⟨⟨rfl, rfl⟩, rfl, rfl⟩, ⟨rfl, rfl⟩, by decide⟩
theorem witness_AcceptanceFrame : (afterReset.free ∧ isInit .uartInit = true) ∧
    ((ready 0).free ∧ (ready 0).initFlag (unitOf (.uartWrite 0)) = true) ∧ commands.all accepted = true :=
  ⟨⟨⟨rfl, rfl⟩, rfl⟩, ⟨⟨rfl, rfl⟩, rfl⟩, by decide⟩
/-- A step that keeps the fault; one that takes the reset; and one of the sequencer's while a reset is pending. -/
theorem witness_FaultStaysUntilReset : faulted.fault = true ∧ (∃ t, step (withOp faulted (.read 4)) = .next t) ∧
    (∃ t, step (withOp faulted .assertReset) = .next t) ∧ (withOp faulted .assertReset).due .assertReset faulted ∧
    ∃ t, step { waiting [] with fault := true, fcode := .badRegister, host := [⟨1, none, .assertReset⟩] } = .next t :=
  ⟨rfl, step_next (by decide), step_next (by decide), due_withOp _ rfl rfl, step_next (by decide)⟩
theorem witness_InvalidConfigurationRefused :
    { Config.initial with spiWidth := 0 }.spiWidth < 1 ∧ 16 < { Config.initial with spiWidth := 17 }.spiWidth ∧
    3 < { Config.initial with spiInitMode := 4 }.spiInitMode ∧
    ¬ ({ Config.initial.pinMap with rx := 0 } : PinMap).pins.Nodup := by decide
theorem witness_ResetInputResetsTheBlock : (withOp shifting .assertReset).runnable = true ∧
    (withOp shifting .assertReset).due .assertReset shifting := ⟨by decide, due_withOp _ rfl rfl⟩
theorem witness_DrivingMicroOperations : ∀ op rest, ({ ready 0 with pc := ⟨[], op⟩ :: rest } : State).pc = ⟨[], op⟩ :: rest :=
  fun _ _ => rfl
theorem witness_ReadingMicroOperations : (ready 0).dir .sda = .input ∧
    ({ ready 0 with pins := { afterReset.pins with sda := { dir := .output, latch := some false } } } : State).dir .sda =
      .output := by decide
theorem witness_ready_and_free : ∀ m u, (ready m).ready u ∧ (ready m).free ∧ (ready m).cfg.valid = true := by
  intro m u
  refine ⟨⟨⟨rfl, rfl⟩, by cases u <;> rfl⟩, ⟨rfl, rfl⟩, by show vectorConfig.valid = true; decide⟩
theorem witness_I2cWriteShiftsByteOut : (ready 0).ready .i2c ∧ ∀ h, high .scl h = true :=
  ⟨⟨⟨rfl, rfl⟩, rfl⟩, fun _ => rfl⟩
theorem witness_I2cReadShiftsByteIn : (ready 0).ready .i2c ∧ (ready 0).dir .sda = .input ∧ ∀ h, high .scl h = true :=
  ⟨⟨⟨rfl, rfl⟩, rfl⟩, rfl, fun _ => rfl⟩
theorem witness_I2cReadWithSdaDrivenReadsZero : ∃ s : State, s.ready .i2c ∧ s.dir .sda = .output :=
  ⟨{ ready 0 with pins := { afterReset.pins with sda := { dir := .output, latch := some false } } }, ⟨⟨rfl, rfl⟩, rfl⟩, rfl⟩
theorem witness_I2cLoopbackReturnsTheByte : (ready 0).ready .i2c ∧ (ready 0).dir .sda = .input ∧
    Agrees (steady acking) (ready 0).hist (i2cWriteEvents 0xA5 false) ∧
    Agrees (steady acking) (ready 0).hist (i2cReadEvents true 0) ∧
    Agrees (steady fun _ => true) (ready 0).hist (i2cReadEvents false 0xFF) :=
  ⟨⟨⟨rfl, rfl⟩, rfl⟩, rfl, agrees_steady (by decide), agrees_steady (by decide), agrees_steady (by decide)⟩

/-- Each I2C command is accepted and, on a bus that reads 1, has ended after 57 steps. -/
theorem witness_I2cEndLineStates : ((commands.take 6).all fun i =>
    (nextState (exec i (ready 0))).map (fun t => (t.busy, (seqRun high 57 t).busy)) == some (true, false)) = true := by
  decide
theorem witness_NoConditionInsideAByte : (ready 0).free ∧ accepted (.i2cWrite 0xFF) = true ∧
    accepted (.i2cRead true) = true := ⟨⟨rfl, rfl⟩, by decide, by decide⟩
theorem witness_ConditionCommandsMakeTheirCondition : ∃ s : State, s.ready .i2c ∧ s.dir .sda = .output :=
  ⟨{ ready 0 with pins := { afterReset.pins with sda := { dir := .output, latch := some false } } }, ⟨⟨rfl, rfl⟩, rfl⟩, rfl⟩

/-- No unanswered poll (k = 0), and one (k = 1). -/
theorem witness_WaitPollsUntilTheLevel :
    (high .scl ([] ++ List.replicate 0 (.poll .scl false)) = true) ∧
    (∀ j < 1, toggling .rx ([] ++ List.replicate j (.poll .rx true)) = true) ∧
    toggling .rx ([] ++ List.replicate 1 (.poll .rx true)) = false ∧ (ready 0).dir .scl = .input ∧
    (ready 0).dir .rx = .input := by decide
theorem witness_UnansweredWaitsHang : (ready 0).free ∧ accepted (.i2cWrite 0xFF) = true ∧ accepted (.i2cRead true) = true ∧
    accepted .uartRead = true ∧ (∀ h, low .scl h = false) ∧ ∀ h, high .rx h = true :=
  ⟨⟨rfl, rfl⟩, by decide, by decide, by decide, fun _ => rfl, fun _ => rfl⟩

/-- The toggling bus answers each wait within one poll. -/
theorem witness_CommandsEndOnAResponsiveBus : commands.all accepted = true ∧ Responsive toggling .scl true ∧
    Responsive toggling .rx false ∧ Responsive toggling .rx true := by
  refine ⟨by decide, fun h => ⟨0, rfl⟩, fun h => ?_, fun h => ?_⟩
  · by_cases hl : h.getLast? = some (.poll .rx true)
    · exact ⟨0, by simp [toggling, WaitedLine.line, hl]⟩
    · exact ⟨1, by simp [toggling, WaitedLine.line]⟩
  · by_cases hl : h.getLast? = some (.poll .rx true)
    · exact ⟨1, by simp [toggling, WaitedLine.line]⟩
    · exact ⟨0, by simp [toggling, WaitedLine.line, hl]⟩
theorem witness_SpiWritesShiftTheirOperand : ∃ s : State, s.ready .spi ∧ s.cfg.valid = true ∧
    (1 : Half) >>> s.cfg.spiWidth = 0 ∧ s.cfg.spiWidth = 1 :=
  ⟨{ ready 0 with cfg := { vectorConfig with spiWidth := 1 } }, ⟨⟨rfl, rfl⟩, rfl⟩, by decide⟩
theorem witness_SpiWritesShiftTheirOperand_widest : ∃ s : State, s.ready .spi ∧ s.cfg.valid = true ∧
    (0xFFFF : Half) >>> s.cfg.spiWidth = 0 ∧ s.cfg.spiWidth = 16 :=
  ⟨{ ready 0 with cfg := Config.initial }, ⟨⟨rfl, rfl⟩, rfl⟩, by decide⟩
theorem witness_SpiLoopbackReturnsTheByte : (ready 3).ready .spi ∧
    ∀ h v, lastDriven .mosi h = some v → (fun _ h => (lastDriven .mosi h).getD false : Oracle) .miso h = v := by
  refine ⟨⟨⟨rfl, rfl⟩, rfl⟩, fun h v hv => ?_⟩
  simp [hv]

/-- SPI in a mode of each phase, SCK at the idle level, for each transfer, at the narrowest and the widest word. -/
theorem witness_SpiTransferMakesTwoEdgesPerBit : ∀ m width, width = 1 ∨ width = 16 → ∃ s : State, s.ready .spi ∧
    s.cfg.valid = true ∧ s.spi = modeCfg m ∧ s.latch .sck = some s.spi.idle ∧ s.cfg.spiWidth = width ∧
    wellFormed s.cfg.spiWidth (.spiWriteN 1) = true ∧
    [.spiWriteB 0xFF, .spiWriteN 1, .spiReadB, .spiReadN, .spiXmit 0].map (transferBits s.cfg) =
      [some 8, some width, some 8, some width, some 8] := by
  intro m width hw
  refine ⟨{ ready m with
      cfg := { vectorConfig with spiWidth := width }
      pins := { afterReset.pins with sck := { dir := .output, latch := some (modeCfg m).idle } } },
    ⟨⟨rfl, rfl⟩, rfl⟩, ?_, rfl, rfl, rfl, ?_, rfl⟩
  · show ({ vectorConfig with spiWidth := width } : Config).valid = true
    rcases hw with rfl | rfl <;> decide
  · show wellFormed width (.spiWriteN 1) = true
    rcases hw with rfl | rfl <;> decide
theorem witness_UartReadReturnsSampledByte : (ready 0).ready .uart ∧
    Agrees (steady fun _ => false) (ready 0).hist (startPolls .level 0 0) ∧ Agrees toggling [] (startPolls .edge 0 0) ∧
    Agrees toggling [] (startPolls .level 0 1) := by
  refine ⟨⟨⟨rfl, rfl⟩, rfl⟩, agrees_steady (by decide), ?_, ?_⟩
  all_goals
    intro k l v hk
    match k with
    | 0 => simp [startPolls] at hk; obtain ⟨rfl, rfl⟩ := hk; rfl
    | 1 => simp [startPolls] at hk; obtain ⟨rfl, rfl⟩ := hk; rfl
    | k + 2 => simp [startPolls] at hk
theorem witness_CommandsTouchOnlyTheirUnitsLines : (ready 0).pc = [] ∧ accepted .spiReadB = true ∧
    Line.unit .tx ≠ unitOf .spiReadB := by decide
theorem witness_CommandFrame : (ready 0).free ∧ commands.all accepted = true := ⟨⟨rfl, rfl⟩, by decide⟩
theorem witness_SpiCfgStaysLegal : shifting.SpiCfgLegal ∧ shifting.spi.valid = true ∧ (∃ t, step shifting = .next t) ∧
    afterReset.SpiCfgLegal := ⟨.inr ⟨2, rfl⟩, rfl, step_next (by decide), .inl rfl⟩
theorem witness_DriveConventionsAreKept : shifting.PinsLegal ∧ ∃ t, step shifting = .next t :=
  ⟨⟨by decide, by decide, fun l => by cases l <;> decide, rfl, rfl⟩, step_next (by decide)⟩
theorem witness_FaultCodeMatchesFaultBit : faulted.FaultLegal ∧ (∃ t, step faulted = .next t) ∧ shifting.FaultLegal := by
  refine ⟨?_, step_next (by decide), ?_⟩
  · simp [State.FaultLegal, faulted]
  · simp [State.FaultLegal, shifting, accept, ready, afterReset, State.resetOf]
theorem witness_LoopIndexStaysInRange : (waiting []).IndexLegal ∧ ∃ t, step (withOp (waiting []) (.read 1)) = .next t := by
  refine ⟨⟨by decide, ?_⟩, step_next (by decide)⟩
  intro m hm n hn
  have hall : (waiting []).pc.all (fun m => m.pre.all fun a => match a with
      | .setIndex n => decide (n ≤ 16)
      | .clearShift => true) = true := by decide
  simpa using List.all_eq_true.1 (List.all_eq_true.1 hall m hm) _ hn
theorem witness_RunningCommandStaysLegal : shifting.RunLegal ∧ shifting.DriveLegal ∧ (∃ t, step shifting = .next t) ∧
    (ready 0).RunLegal := by
  refine ⟨.inr ⟨rfl, by decide, .spiWriteB 0xFF, rfl, rfl, List.suffix_refl _, .inr rfl⟩, fun l _ => ?_,
    step_next (by decide), .inl ⟨rfl, rfl, rfl⟩⟩
  cases l <;> exact .inl rfl
theorem witness_ClockReturnsToIdle : shifting.ClockIdle ∧ ∃ s : State, s.ClockIdle ∧ s.spiInit = true ∧ s.pc = [] :=
  ⟨fun _ => by decide, { ready 2 with pins := shifting.pins }, fun _ => rfl, rfl, rfl⟩
theorem witness_HostMemoryStaysCanonical : ∃ s : State, s.MemoryLegal ∧ ∃ t, step (withOp s (.store 0)) = .next t :=
  ⟨{ ready 0 with mem := [(8, 0x41), (9, 0)] }, rfl, step_next (by decide)⟩
theorem witness_HistoryOnlyGrows : (∃ t, step shifting = .next t) ∧ ∃ t, step (withOp shifting .assertReset) = .next t :=
  ⟨step_next (by decide), step_next (by decide)⟩
/-- The value of a read under each byte order; the acknowledges of a write; nothing; a result kept. -/
theorem witness_CompositeResultsAreDelivered : (∀ order, ∃ s t : State, s.runnable = true ∧ s.fault = false ∧ s.spoiled = false ∧
      s.cfg.hostByteOrder = order ∧ s.due (.deliver (.value (Value.u16 0x1234).kind)) t ∧
      s.collected = (wireBytes s.cfg.hostByteOrder (.u16 0x1234)).map fun b => b.setWidth 16) ∧
    (withOp (ready 0) (.deliver .acks)).due (.deliver .acks) (ready 0) ∧
    (withOp (ready 0) (.deliver .nothing)).due (.deliver .nothing) (ready 0) ∧
    (withOp (ready 0) .collect).due .collect (ready 0) ∧ (withOp (ready 0) .collect).runnable = true ∧
    (ready 0).fault = false ∧ (ready 0).spoiled = false := by
  refine ⟨fun order => ?_, due_withOp _ rfl rfl, due_withOp _ rfl rfl, due_withOp _ rfl rfl, by decide, rfl, rfl⟩
  refine ⟨withOp { ready 0 with
    cfg := { vectorConfig with hostByteOrder := order }
    collected := (wireBytes order (.u16 0x1234)).map fun b => b.setWidth 16 } (.deliver (.value .u16)), _, ?_, rfl, rfl, rfl,
    due_withOp _ rfl rfl, rfl⟩
  cases order <;> decide

/-- A reset that falls inside a composite in which a fault is recorded. -/
theorem witness_CompositeCommandsStop_reset : ∃ s t : State, s.runnable = true ∧ s.cfg.valid = true ∧ s.fault = true ∧
    s.due .assertReset t ∧ t.composing ≠ [] :=
  ⟨{ faulted with composing := [.collect, .deliver .acks], host := [⟨0, some 0, .assertReset⟩] },
    { faulted with composing := [.collect, .deliver .acks], host := [] }, by decide, by decide, rfl,
    ⟨_, rfl, rfl, rfl, by decide⟩, by decide⟩

/-- A composite left spoiled by a reset comes to its end; a step that is neither a reset nor the beginning of a
composite. -/
theorem witness_CompositeCommandsStop_spoiled :
    (∃ s t : State, s.runnable = true ∧ s.fault = false ∧ s.spoiled = true ∧ s.due (.deliver .acks) t) ∧
    (∃ u, step shifting = .next u) ∧ ∀ op t, ¬ shifting.due op t := by
  refine ⟨⟨{ ready 0 with spoiled := true, composing := [.deliver .acks] }, { ready 0 with spoiled := true }, by decide,
    rfl, rfl, ⟨_, rfl, rfl, rfl, by decide⟩⟩, step_next (by decide), ?_⟩
  rintro op t ⟨x, hx, _⟩
  exact absurd hx (by simp [show nextTurn shifting = none from rfl])

/-- `gets` with n = cap and with n just beyond it; each access that stops once a fault is recorded. -/
theorem witness_CompositeCommandsStop : (withOp (ready 0) (.composite (.gets 0 3 3))).runnable = true ∧
    (withOp (ready 0) (.composite (.gets 0 2 3))).cfg.valid = true ∧
    refusal (step (withOp (ready 0) (.composite (.gets 0 2 3)))) = some .getsOverCapacity ∧ faulted.fault = true ∧
    (withOp faulted .collect).due .collect faulted ∧ (withOp faulted (.store 0)).due (.store 0) faulted ∧
    (withOp faulted (.deliver .acks)).due (.deliver .acks) faulted ∧ (withOp faulted .collect).runnable = true :=
  ⟨by decide, by decide, by decide, rfl, due_withOp _ rfl rfl, due_withOp _ rfl rfl, due_withOp _ rfl rfl, by decide⟩

/-- A host memory of two bytes and no NUL: a string in it never ends. -/
def endless : State := { ready 0 with cfg := { vectorConfig with hostAddrWidth := 1 }, mem := [(0, 0x41), (1, 0x42)] }

/-- The first and the last address, a byte and a NUL there; and a host memory without a NUL. -/
theorem witness_PutsSendsUntilNul : (∃ s t : State, s.runnable = true ∧ s.due (.putsFrom 4294967295) t ∧
      4294967295 < 2 ^ s.cfg.hostAddrWidth ∧ s.mem.read 0 = some 0x41 ∧ s.mem.read 4294967295 = some 0) ∧
    (withOp endless (.putsFrom 1)).runnable = true ∧ (withOp endless (.putsFrom 1)).due (.putsFrom 1) endless ∧
    1 < 2 ^ endless.cfg.hostAddrWidth ∧ ∀ b < 2 ^ endless.cfg.hostAddrWidth, ∃ c, endless.mem.read b = some c ∧ c ≠ 0 := by
  refine ⟨⟨withOp { ready 0 with mem := [(0, 0x41), (4294967295, 0)] } (.putsFrom 4294967295), _, by decide,
    due_withOp _ rfl rfl, by decide, by decide, by decide⟩, by decide, due_withOp _ rfl rfl, by decide, fun b hb => ?_⟩
  have hb : b < 2 := hb
  interval_cases b
  · exact ⟨0x41, by decide⟩
  · exact ⟨0x42, by decide⟩

/-- `puts` at a byte nothing has written, and at an address that does not exist. -/
theorem witness_PutsSendsUntilNul_stops : (∀ a, (withOp (ready 0) (.putsFrom a)).due (.putsFrom a) (ready 0)) ∧
    (withOp (ready 0) (.putsFrom 4294967295)).runnable = true ∧ (ready 0).mem.read 4294967295 = none ∧
    4294967295 < 2 ^ (ready 0).cfg.hostAddrWidth ∧ 2 ^ (ready 0).cfg.hostAddrWidth ≤ 4294967296 :=
  ⟨fun _ => due_withOp _ rfl rfl, by decide, rfl, by decide, by decide⟩
theorem witness_StoreWritesOneByte : (ready 0).fault = false ∧ (ready 0).spoiled = false ∧ (∀ a, (withOp (ready 0) (.store a)).due (.store a) (ready 0)) ∧
    (withOp (ready 0) (.store 4294967295)).runnable = true ∧ 4294967295 < 2 ^ (ready 0).cfg.hostAddrWidth ∧
    2 ^ (ready 0).cfg.hostAddrWidth ≤ 4294967296 :=
  ⟨rfl, rfl, fun _ => due_withOp _ rfl rfl, by decide, by decide, by decide⟩

/-- Each composite command is due in some state that may run; so is a byte of host memory to be sent. -/
theorem witness_CompositeCommandsExpand : (∀ c : Composite, c.permitted = true →
      (withOp (ready 0) (.composite c)).runnable = true ∧
      (withOp (ready 0) (.composite c)).due (.composite c) (ready 0)) ∧
    (Composite.gets 4294967295 3 3).permitted = true ∧ 4294967295 < 2 ^ (ready 0).cfg.hostAddrWidth ∧
    ∃ s : State, s.mem.read 8 = some 0x41 ∧ ∀ u, (withOp s (.sendFrom u 8)).due (.sendFrom u 8) s := by
  refine ⟨fun c hc => ⟨?_, due_withOp _ rfl rfl⟩, by decide, by decide,
    { ready 0 with mem := [(8, 0x41)] }, by decide, fun u => due_withOp _ rfl rfl⟩
  have hv : vectorConfig.valid = true := by decide
  show (vectorConfig.valid && ((c.permitted && true) && true)) = true
  rw [hv, hc]; rfl

/-- A byte to be sent that nothing has written, and one at an address that does not exist. -/
theorem witness_CompositeCommandsExpand_stops : (∀ u a, (withOp (ready 0) (.sendFrom u a)).due (.sendFrom u a) (ready 0)) ∧
    (withOp (ready 0) (.sendFrom .i2c 4294967295)).runnable = true ∧ (ready 0).mem.read 4294967295 = none ∧
    4294967295 < 2 ^ (ready 0).cfg.hostAddrWidth ∧ 2 ^ (ready 0).cfg.hostAddrWidth ≤ 4294967296 :=
  ⟨fun _ _ => due_withOp _ rfl rfl, by decide, rfl, by decide, by decide⟩
theorem witness_StepAndDelayTotals : 1 ≤ vectorConfig.spiWidth ∧ vectorConfig.uartStartDetect = .level ∧
    { vectorConfig with uartStartDetect := .edge }.uartStartDetect = .edge ∧ vectorConfig.valid = true := by decide

end Sys2Proof.Tests
end

section
/-! PROOFS. The statements of spec/00_scope.md: the history (R12, R38), the parameters of a run (R7) and the refusal of
an invalid configuration (R8). -/

namespace Sys2Proof

/-- A valid configuration meets R8's three conditions. -/
theorem Config.valid_bounds {c : Config} (h : c.valid = true) :
    1 ≤ c.spiWidth ∧ c.spiWidth ≤ 16 ∧ c.spiInitMode ≤ 3 ∧ c.pinMap.pins.Nodup := by
  simp only [Config.valid, PinMap.injective, Bool.and_eq_true, decide_eq_true_eq] at h
  obtain ⟨⟨⟨⟨hlow, hhigh⟩, hmode⟩, hpins⟩, _⟩ := h
  exact ⟨hlow, hhigh, hmode, hpins⟩

end Sys2Proof

namespace Sys2Proof.Machine

/-! ### A change of the host's own state leaves the block alone -/

theorem HostOnly.cfg_eq {s t : State} (h : HostOnly s t) : t.cfg = s.cfg := by
  obtain ⟨_, _, _, _, _, _, rfl, _⟩ := h; rfl

theorem HostOnly.bus_eq {s t : State} (h : HostOnly s t) : t.bus = s.bus := by
  obtain ⟨_, _, _, _, _, _, rfl, _⟩ := h; rfl

theorem HostOnly.hist_eq {s t : State} (h : HostOnly s t) : t.hist = s.hist := by
  obtain ⟨_, _, _, _, _, _, rfl, _⟩ := h; rfl

theorem HostOnly.pc_eq {s t : State} (h : HostOnly s t) : t.pc = s.pc := by
  obtain ⟨_, _, _, _, _, _, rfl, _⟩ := h; rfl

/-! ### What the moves of the block do to the parameters and to the history -/

section
variable {env : Oracle} {resets : Prop} {s t : State}

theorem BlockMove.cfg_eq (h : BlockMove env resets s t) : t.cfg = s.cfg := by
  cases h <;> simp

theorem BlockMove.bus_eq (h : BlockMove env resets s t) : t.bus = s.bus := by
  cases h <;> simp

/-- Only the sequencer appends events, and only the reset input removes them (R38). -/
theorem BlockMove.hist_prefix_or_reset (h : BlockMove env resets s t) :
    s.hist <+: t.hist ∨ (t.hist = [] ∧ resets) := by
  cases h with
  | sequencer => exact .inl (seqStep_hist env s)
  | still => exact .inl (List.prefix_refl _)
  | raise c _ => exact .inl (by simp)
  | accepts i => exact .inl (by simp)
  | reset hr => exact .inr ⟨assertReset_hist s, hr⟩

/-- With no command running the sequencer has no step (R110), so no move appends. -/
theorem BlockMove.hist_eq_or_reset_of_idle (h : BlockMove env resets s t) (hpc : s.pc = []) :
    t.hist = s.hist ∨ (t.hist = [] ∧ resets) := by
  cases h with
  | sequencer => exact .inl (by rw [seqStep_idle env hpc])
  | still => exact .inl rfl
  | raise c _ => exact .inl (raiseFault_hist c s)
  | accepts i => exact .inl (accept_hist i _ s)
  | reset hr => exact .inr ⟨assertReset_hist s, hr⟩

end

/-- Settles O53: a step is a change of the host's own state and then at most one move of the block. -/
theorem historyOnlyGrows : Obligations.HistoryOnlyGrows := by
  unfold Obligations.HistoryOnlyGrows
  intro s t h
  obtain ⟨_, u, hu, hm⟩ := step_cases h
  refine ⟨?_, fun hpc => ?_, hm.cfg_eq.trans hu.cfg_eq, hm.bus_eq.trans hu.bus_eq⟩
  · rw [← hu.hist_eq]
    exact hm.hist_prefix_or_reset.imp_left fun ⟨new, hnew⟩ => ⟨new, hnew.symm⟩
  · rw [← hu.hist_eq]
    exact hm.hist_eq_or_reset_of_idle (hu.pc_eq.trans hpc)

/-! ### Invalid configurations -/

theorem step_refused_of_invalid {s : State} (h : s.cfg.valid = false) : step s = .refused .invalidConfiguration := by
  simp [step, stepWith, h]

/-- Settles O15: each of the three conditions contradicts a bound of a valid configuration. -/
theorem invalidConfigurationRefused : Obligations.InvalidConfigurationRefused := by
  unfold Obligations.InvalidConfigurationRefused
  intro s hbad
  refine step_refused_of_invalid (Bool.eq_false_iff.2 fun hv => ?_)
  obtain ⟨hlow, hhigh, hmode, hpins⟩ := Config.valid_bounds hv
  rcases hbad with h | h | h | h
  · omega
  · omega
  · omega
  · exact h hpins

end Sys2Proof.Machine
end

section
/-! PROOFS. The statements of spec/10_state.md: the invariants of the block's state (R22 to R40), and what a command
leaves unchanged from its acceptance to its end (R37). -/

namespace Sys2Proof.Machine

/-! ### What one micro-operation can do -/

/-- Everything a micro-operation other than `μDONE` can change, and where `pc` can be after it (R114 to R123). -/
theorem perform_body_cases (env : Oracle) {op : MicroOp} (rest : List MicroStep) (s : State)
    (h : ∀ us, op ≠ .done us) :
    ∃ spi pc r a v pins hist, (pc = rest ∨ pc = s.pc) ∧ perform env op rest s =
      { s with spi := spi, pc := pc, r := r, a := a, v := v, pins := pins, hist := hist } := by
  cases op with
  | input l => exact ⟨_, _, _, _, _, _, _, .inl rfl, rfl⟩
  | low l => exact ⟨_, _, _, _, _, _, _, .inl rfl, rfl⟩
  | out l v => exact ⟨_, _, _, _, _, _, _, .inl rfl, rfl⟩
  | sample l dest => cases dest <;> exact ⟨_, _, _, _, _, _, _, .inl rfl, rfl⟩
  | wait l v =>
    rw [perform_wait]
    split
    · exact ⟨_, _, _, _, _, _, _, .inl rfl, rfl⟩
    · exact ⟨_, _, _, _, _, _, _, .inr rfl, rfl⟩
  | delay c => exact ⟨_, _, _, _, _, _, _, .inl rfl, rfl⟩
  | setMode m => exact ⟨_, _, _, _, _, _, _, .inl rfl, rfl⟩
  | done us => exact absurd rfl (h us)

section
variable (env : Oracle) {op : MicroOp} (rest : List MicroStep) (s : State)

theorem perform_pc_cases (h : ∀ us, op ≠ .done us) :
    (perform env op rest s).pc = rest ∨ (perform env op rest s).pc = s.pc := by
  obtain ⟨_, _, _, _, _, _, _, hpc, he⟩ := perform_body_cases env rest s h
  rw [he]; exact hpc

theorem perform_busy (h : ∀ us, op ≠ .done us) : (perform env op rest s).busy = s.busy := by
  obtain ⟨_, _, _, _, _, _, _, _, he⟩ := perform_body_cases env rest s h
  rw [he]

theorem perform_cmd (h : ∀ us, op ≠ .done us) : (perform env op rest s).cmd = s.cmd := by
  obtain ⟨_, _, _, _, _, _, _, _, he⟩ := perform_body_cases env rest s h
  rw [he]

theorem perform_value (h : ∀ us, op ≠ .done us) : (perform env op rest s).value = s.value := by
  obtain ⟨_, _, _, _, _, _, _, _, he⟩ := perform_body_cases env rest s h
  rw [he]

theorem perform_ack (h : ∀ us, op ≠ .done us) : (perform env op rest s).ack = s.ack := by
  obtain ⟨_, _, _, _, _, _, _, _, he⟩ := perform_body_cases env rest s h
  rw [he]

theorem perform_initFlag (h : ∀ us, op ≠ .done us) (u : SerialUnit) :
    (perform env op rest s).initFlag u = s.initFlag u := by
  obtain ⟨_, _, _, _, _, _, _, _, he⟩ := perform_body_cases env rest s h
  rw [he]; cases u <;> rfl

/-- `SPICFG` is written by `μSETMODE` alone (R29, R120). -/
theorem perform_spi_cases :
    (perform env op rest s).spi = s.spi ∨ ∃ m, op = .setMode m ∧ (perform env op rest s).spi = modeCfg m := by
  cases op with
  | setMode m => exact .inr ⟨m, rfl, rfl⟩
  | wait l v => rw [perform_wait]; split <;> exact .inl rfl
  | _ => exact .inl (by simp [perform])

/-- Everything a micro-operation can do to a line's pin (R114 to R116). -/
theorem perform_pin_cases (l : Line) :
    (perform env op rest s).pins.get l = s.pins.get l ∨
    (op = .input l ∧ (perform env op rest s).pins.get l = { dir := .input, latch := s.latch l }) ∨
    (∃ o, o.line = l ∧ op = .low o ∧
      (perform env op rest s).pins.get l = { dir := .output, latch := some false }) ∨
    (∃ o v, o.line = l ∧ op = .out o v ∧
      (perform env op rest s).pins.get l = { dir := .output, latch := some v }) := by
  cases op with
  | input l' =>
    by_cases hl : l = l'
    · subst hl; simp [perform, microInput]
    · simp [perform, microInput, Pins.get_set_other _ _ hl]
  | low o =>
    by_cases hl : l = o.line
    · subst hl; simp [perform, microLow]
    · simp [perform, microLow, Pins.get_set_other _ _ hl]
  | out o v =>
    by_cases hl : l = o.line
    · subst hl; simp [perform, microOut]
    · simp [perform, microOut, Pins.get_set_other _ _ hl]
  | wait l' v => rw [perform_wait]; split <;> exact .inl rfl
  | sample l' dest => exact .inl (by simp [perform])
  | delay c => exact .inl (by simp [perform])
  | setMode m => exact .inl (by simp [perform])
  | done us => exact .inl (by simp [perform])

end

/-! ### What one step of the running command's text can do -/

theorem allowed_ne_done {i : Instr} {op : MicroOp} (h : allowed i op) (us : List DoneUpdate) : op ≠ .done us := by
  rintro rfl
  exact h

/-- A sequencer step at a position of a command's microprogram is its `μDONE`, or a micro-operation allowed to the
command with a position after it. -/
theorem seqStep_position_cases (env : Oracle) {s : State} {i : Instr} {c : Config} {spi : SpiCfg}
    (h : s.pc <:+ microprogram c spi i) (hpc : s.pc ≠ []) :
    seqStep env s = microDone (doneUpdates c.spiWidth i) s ∨
    ∃ m rest, s.pc = m :: rest ∧ allowed i m.op ∧ rest ≠ [] ∧ rest <:+ microprogram c spi i ∧
      seqStep env s = perform env m.op rest (assignAll m.pre s) := by
  cases he : s.pc with
  | nil => exact absurd he hpc
  | cons m rest =>
    have hs := seqStep_cons env he
    rw [he] at h
    rcases microprogram_position h with ⟨rfl, rfl⟩ | ⟨hop, _, hrest, hsuffix⟩
    · exact .inl hs
    · exact .inr ⟨m, rest, rfl, hop, hrest, hsuffix, hs⟩

/-- After a sequencer step `pc` is where it was, or further on in the same text (R31). -/
theorem seqStep_pc_suffix (env : Oracle) (s : State) : (seqStep env s).pc <:+ s.pc := by
  cases he : s.pc with
  | nil => rw [seqStep_idle env he, he]
  | cons m rest =>
    rw [seqStep_cons env he]
    by_cases hd : ∃ us, m.op = .done us
    · obtain ⟨us, hus⟩ := hd
      rw [hus]; exact List.nil_suffix
    · rcases perform_pc_cases env rest (assignAll m.pre s) (fun us hus => hd ⟨us, hus⟩) with h | h
      · rw [h]; exact List.suffix_cons m rest
      · rw [h, assignAll_pc, he]

/-- Only an `INIT` sets an initialisation flag, that of its own unit, in its `μDONE` (R28). -/
theorem initFlag_microDone (width : Nat) (i : Instr) (s : State) (u : SerialUnit) :
    (microDone (doneUpdates width i) s).initFlag u =
      if isInit i = true ∧ unitOf i = u then true else s.initFlag u := by
  cases i <;> cases u <;> rfl

theorem microprogram_ne_nil (c : Config) (spi : SpiCfg) (i : Instr) : microprogram c spi i ≠ [] := by
  obtain ⟨body, he, _⟩ := microprogram_shape c spi i
  simp [he]

/-- A command that writes `SPICFG` has a text that does not depend on it (R203, R204). -/
theorem microprogram_congr_spi (c : Config) {spi spi' : SpiCfg} {i : Instr}
    (h : writesSpiCfg i = true ∨ spi' = spi) : microprogram c spi' i = microprogram c spi i := by
  rcases h with h | rfl
  · cases i <;> simp [writesSpiCfg, microprogram] at h ⊢
  · rfl

/-! ### Commands told apart by their words -/

/-- A command's word names its row of the opcode table, for every command. -/
theorem opcodeFields (i : Instr) : Laws.OpcodeFields.Statement i := by
  cases i with
  | i2cInit => exact Laws.OpcodeFields.i2cInit
  | i2cStart => exact Laws.OpcodeFields.i2cStart
  | i2cStop => exact Laws.OpcodeFields.i2cStop
  | i2cRestart => exact Laws.OpcodeFields.i2cRestart
  | i2cWrite b => exact Laws.OpcodeFields.i2cWrite b
  | i2cRead ack => exact Laws.OpcodeFields.i2cRead ack
  | spiInit => exact Laws.OpcodeFields.spiInit
  | spiSetMode m => exact Laws.OpcodeFields.spiSetMode m
  | spiGetMode => exact Laws.OpcodeFields.spiGetMode
  | spiWriteB b => exact Laws.OpcodeFields.spiWriteB b
  | spiWriteN v => exact Laws.OpcodeFields.spiWriteN v
  | spiReadB => exact Laws.OpcodeFields.spiReadB
  | spiReadN => exact Laws.OpcodeFields.spiReadN
  | spiXmit b => exact Laws.OpcodeFields.spiXmit b
  | uartInit => exact Laws.OpcodeFields.uartInit
  | uartWrite b => exact Laws.OpcodeFields.uartWrite b
  | uartRead => exact Laws.OpcodeFields.uartRead

theorem opcodeOf_eq_of_encode_eq {i j : Instr} (h : encode i = encode j) : opcodeOf i = opcodeOf j := by
  have hi := (opcodeFields i).2
  have hj := (opcodeFields j).2
  rw [h] at hi
  exact Option.some.inj (hi.symm.trans hj)

/-- An `INIT` is told from every other command by its row of the opcode table. -/
theorem eq_of_isInit_of_opcodeOf_eq {i j : Instr} (hj : isInit j = true) (h : opcodeOf i = opcodeOf j) : i = j := by
  cases j <;> simp [isInit] at hj <;> cases i <;> simp [opcodeOf] at h ⊢

theorem eq_of_isInit_of_encode_eq {i j : Instr} (hj : isInit j = true) (h : encode i = encode j) : i = j :=
  eq_of_isInit_of_opcodeOf_eq hj (opcodeOf_eq_of_encode_eq h)

/-! ### The running command (R25, R31, R112) and the driven lines (R362) -/

/-- No command runs. -/
structure State.Idle (s : State) : Prop where
  busy : s.busy = false
  pc : s.pc = []
  cmd : s.cmd = none

/-- `i` is the accepted command: `s.cmd` holds its word, `pc` is in its microprogram or past its end, and its unit is
initialised unless it is an `INIT`. -/
structure State.Runs (s : State) (i : Instr) : Prop where
  busy : s.busy = true
  cmd : s.cmd = some (encode i)
  wf : wellFormed s.cfg.spiWidth i = true
  position : s.pc <:+ microprogram s.cfg s.spi i
  unit : isInit i = true ∨ s.initFlag (unitOf i) = true

theorem State.runLegal_iff (s : State) : s.RunLegal ↔ s.Idle ∨ (s.pc ≠ [] ∧ ∃ i, s.Runs i) := by
  constructor
  · rintro (⟨hb, hpc, hc⟩ | ⟨hb, hpc, i, hc, hw, hp, hu⟩)
    · exact .inl ⟨hb, hpc, hc⟩
    · exact .inr ⟨hpc, i, hb, hc, hw, hp, hu⟩
  · rintro (⟨hb, hpc, hc⟩ | ⟨hpc, i, hb, hc, hw, hp, hu⟩)
    · exact .inl ⟨hb, hpc, hc⟩
    · exact .inr ⟨hb, hpc, i, hc, hw, hp, hu⟩

/-- With no command running, a driven line's unit is initialised. -/
theorem State.driveLegal_iff_of_no_cmd {s : State} (h : s.cmd = none) :
    s.DriveLegal ↔ ∀ l, s.dir l = .output → s.initFlag l.unit = true := by
  simp [State.DriveLegal, h]

/-- While a command runs, a driven line's unit is initialised or that command is its `INIT`. -/
theorem State.Runs.driveLegal_iff {s : State} {i : Instr} (h : s.Runs i) :
    s.DriveLegal ↔ ∀ l, s.dir l = .output → s.initFlag l.unit = true ∨ (isInit i = true ∧ unitOf i = l.unit) := by
  refine forall_congr' fun l => imp_congr_right fun _ => or_congr_right ?_
  constructor
  · rintro ⟨j, hc, hj, hu⟩
    obtain rfl := eq_of_isInit_of_encode_eq hj (Option.some.inj (h.cmd.symm.trans hc))
    exact ⟨hj, hu⟩
  · rintro ⟨hi, hu⟩
    exact ⟨i, h.cmd, hi, hu⟩

/-- A micro-operation makes a line an output only where its command may: on its own unit's lines. -/
theorem perform_dir_output {env : Oracle} {i : Instr} {op : MicroOp} {rest : List MicroStep} {s : State} {l : Line}
    (hop : allowed i op) (h : (perform env op rest s).dir l = .output) : s.dir l = .output ∨ l.unit = unitOf i := by
  rcases perform_pin_cases env (op := op) rest s l with hp | ⟨_, hp⟩ | ⟨o, rfl, rfl, _⟩ | ⟨o, v, rfl, rfl, _⟩
  · exact .inl (by rwa [State.dir, hp] at h)
  · rw [State.dir, hp] at h; cases h
  · exact .inr hop
  · exact .inr hop

section
variable (env : Oracle) {s : State} {i : Instr}

/-- The accepted command goes on after a micro-operation of its text other than its `μDONE`. -/
theorem State.Runs.after_perform {m : MicroStep} {rest : List MicroStep} (h : s.Runs i) (hop : allowed i m.op)
    (hrest : rest <:+ microprogram s.cfg s.spi i) :
    (perform env m.op rest (assignAll m.pre s)).Runs i := by
  have hd := allowed_ne_done hop
  have htext : microprogram s.cfg (perform env m.op rest (assignAll m.pre s)).spi i =
      microprogram s.cfg s.spi i := by
    refine microprogram_congr_spi _ ?_
    rcases perform_spi_cases env (op := m.op) rest (assignAll m.pre s) with he | ⟨mode, he, _⟩
    · exact .inr (by simpa using he)
    · exact .inl (by rw [he] at hop; exact hop)
  refine ⟨?_, ?_, ?_, ?_, ?_⟩
  · simpa [perform_busy env rest _ hd] using h.busy
  · simpa [perform_cmd env rest _ hd] using h.cmd
  · simpa using h.wf
  · simp only [perform_cfg, assignAll_cfg, htext]
    rcases perform_pc_cases env rest (assignAll m.pre s) hd with he | he
    · rw [he]; exact hrest
    · rw [he]; simpa using h.position
  · simpa [perform_initFlag env rest _ hd] using h.unit

theorem microDone_idle (us : List DoneUpdate) (s : State) : (microDone us s).Idle := ⟨rfl, rfl, rfl⟩

/-- The sequencer keeps the running command legal. -/
theorem seqStep_keeps_runLegal (h : s.RunLegal) : (seqStep env s).RunLegal := by
  rcases s.runLegal_iff.1 h with hidle | ⟨hpc, i, hi⟩
  · rwa [seqStep_idle env hidle.pc]
  · refine (State.runLegal_iff _).2 ?_
    rcases seqStep_position_cases env hi.position hpc with he | ⟨m, rest, _, hop, hne, hrest, he⟩ <;> rw [he]
    · exact .inl (microDone_idle _ s)
    · refine .inr ⟨?_, i, hi.after_perform env hop hrest⟩
      rcases perform_pc_cases env rest (assignAll m.pre s) (allowed_ne_done hop) with hp | hp
      · rw [hp]; exact hne
      · rw [hp, assignAll_pc]; exact hpc

/-- The sequencer drives a line only for an initialised unit or for its `INIT`. -/
theorem seqStep_keeps_driveLegal (h : s.RunLegal) (hdrive : s.DriveLegal) : (seqStep env s).DriveLegal := by
  rcases s.runLegal_iff.1 h with hidle | ⟨hpc, i, hi⟩
  · rwa [seqStep_idle env hidle.pc]
  · rw [hi.driveLegal_iff] at hdrive
    rcases seqStep_position_cases env hi.position hpc with he | ⟨m, rest, _, hop, _, hrest, he⟩ <;> rw [he]
    · rw [State.driveLegal_iff_of_no_cmd (microDone_cmd _ s)]
      intro l hl
      have hl : s.dir l = .output := by simpa [State.dir] using hl
      rw [initFlag_microDone]
      rcases hdrive l hl with hu | hu
      · simp [hu]
      · simp [hu]
    · rw [(hi.after_perform env hop hrest).driveLegal_iff]
      intro l hl
      rw [perform_initFlag env rest _ (allowed_ne_done hop), assignAll_initFlag]
      rcases perform_dir_output hop hl with hl | hl
      · exact hdrive l (by simpa [State.dir] using hl)
      · rw [hl]; exact hi.unit.symm.imp_right fun hinit => ⟨hinit, rfl⟩

end

/-- Every move of the block keeps the running command and the driven lines legal. -/
theorem BlockMove.keeps_runLegal_driveLegal {env : Oracle} {resets : Prop} {s t : State}
    (hm : BlockMove env resets s t) (h : s.RunLegal ∧ s.DriveLegal) : t.RunLegal ∧ t.DriveLegal := by
  obtain ⟨hrun, hdrive⟩ := h
  cases hm with
  | sequencer => exact ⟨seqStep_keeps_runLegal env hrun, seqStep_keeps_driveLegal env hrun hdrive⟩
  | still => exact ⟨hrun, hdrive⟩
  | raise c _ =>
    exact ⟨by simpa [State.RunLegal] using hrun, by simpa [State.DriveLegal, State.dir] using hdrive⟩
  | accepts i hw hf hb hi =>
    have hidle : s.Idle := (s.runLegal_iff.1 hrun).resolve_right fun ⟨_, _, hr⟩ => by simp [hr.busy] at hb
    have hruns : (accept i (microprogram s.cfg s.spi i) s).Runs i :=
      ⟨rfl, rfl, hw, List.suffix_rfl, by simpa using hi⟩
    refine ⟨(State.runLegal_iff _).2 (.inr ⟨microprogram_ne_nil _ _ i, i, hruns⟩), hruns.driveLegal_iff.2 ?_⟩
    intro l hl
    exact .inl (by simpa using (State.driveLegal_iff_of_no_cmd hidle.cmd).1 hdrive l hl)
  | reset _ =>
    refine ⟨.inl ⟨rfl, rfl, rfl⟩, fun l hl => ?_⟩
    cases l <;> cases hl

/-- An invariant of the block that every move of the block keeps is kept by every step: the host's own state is free. -/
theorem step_keeps_block {P : State → Prop}
    (hhost : ∀ (s : State) host composing spoiled mem collected received, P s →
      P { s with host := host, composing := composing, spoiled := spoiled, mem := mem, collected := collected,
                 received := received })
    (hmove : ∀ env resets s t, s.cfg.valid = true → BlockMove env resets s t → P s → P t) {s t : State} (hp : P s)
    (h : step s = .next t) : P t := by
  refine step_keeps ?_ hmove hp h
  rintro s _ ⟨_, _, _, _, _, _, rfl, _⟩ hs
  exact hhost s _ _ _ _ _ _ hs

/-- Settles O49: the pair of the two invariants is kept by every move of the block. -/
theorem runningCommandStaysLegal : Obligations.RunningCommandStaysLegal := by
  unfold Obligations.RunningCommandStaysLegal
  intro s t hrun hdrive h
  exact step_keeps_block (P := fun s => s.RunLegal ∧ s.DriveLegal) (fun _ _ _ _ _ _ _ => id)
    (fun _ _ _ _ _ => BlockMove.keeps_runLegal_driveLegal) ⟨hrun, hdrive⟩ h

/-! ### The fault bits (R24, R27, R321, R322) -/

/-- A recorded fault and its code stay under every move of the block but the reset. -/
theorem BlockMove.fault_kept_or_reset {env : Oracle} {resets : Prop} {s t : State} (hm : BlockMove env resets s t)
    (hf : s.fault = true) : (t.fault = true ∧ t.fcode = s.fcode) ∨ resets := by
  cases hm with
  | sequencer => exact .inl ⟨by simpa using hf, seqStep_fcode env s⟩
  | still => exact .inl ⟨hf, rfl⟩
  | raise c _ => exact .inl ⟨raiseFault_fault c s, by simp [raiseFault_fcode, hf]⟩
  | accepts i _ hfree => rw [hf] at hfree; cases hfree
  | reset hr => exact .inr hr

/-- Settles O14: the first fault's code is kept by every move of the block but the reset. -/
theorem faultStaysUntilReset : Obligations.FaultStaysUntilReset := by
  unfold Obligations.FaultStaysUntilReset
  intro s t hf h
  obtain ⟨_, u, ⟨_, _, _, _, _, _, rfl, _⟩, hm⟩ := step_cases h
  exact hm.fault_kept_or_reset hf

theorem BlockMove.keeps_faultLegal {env : Oracle} {resets : Prop} {s t : State} (hm : BlockMove env resets s t)
    (h : s.FaultLegal) : t.FaultLegal := by
  cases hm with
  | sequencer => simpa [State.FaultLegal] using h
  | still => exact h
  | raise c hc =>
    cases hf : s.fault with
    | false => simp [State.FaultLegal, raiseFault_fcode, hf, hc]
    | true => rwa [raiseFault_of_fault c hf]
  | accepts i => simpa [State.FaultLegal] using h
  | reset _ => exact ⟨fun _ => rfl, fun _ => rfl⟩

/-- Settles O47: a raised fault has a code other than `NONE`, and only the reset clears it. -/
theorem faultCodeMatchesFaultBit : Obligations.FaultCodeMatchesFaultBit := by
  unfold Obligations.FaultCodeMatchesFaultBit
  intro s t hs h
  exact step_keeps_block (fun _ _ _ _ _ _ _ => id) (fun _ _ _ _ _ => BlockMove.keeps_faultLegal) hs h

/-! ### `SPICFG` (R29, R30, R200) -/

theorem seqStep_spi_cases (env : Oracle) (s : State) :
    (seqStep env s).spi = s.spi ∨ ∃ m, (seqStep env s).spi = modeCfg m := by
  cases he : s.pc with
  | nil => exact .inl (by rw [seqStep_idle env he])
  | cons m rest =>
    rw [seqStep_cons env he]
    exact (perform_spi_cases env rest (assignAll m.pre s)).imp (by simp) fun ⟨mode, _, h⟩ => ⟨mode, h⟩

theorem BlockMove.keeps_spiCfgLegal {env : Oracle} {resets : Prop} {s t : State} (hm : BlockMove env resets s t)
    (h : s.SpiCfgLegal) : t.SpiCfgLegal := by
  cases hm with
  | sequencer =>
    rcases seqStep_spi_cases env s with he | hmode
    · simpa [State.SpiCfgLegal, he] using h
    · exact .inr hmode
  | still => exact h
  | raise c _ => simpa [State.SpiCfgLegal] using h
  | accepts i => exact h
  | reset _ => exact .inl rfl

/-- The rows of the mode table meet R30's invariants. -/
theorem modeCfg_invariants (m : BitVec 2) : (modeCfg m).sample = (!(modeCfg m).prop) ∧
    ((m = 0 ∨ m = 1) → (modeCfg m).idle = false) ∧ ((m = 2 ∨ m = 3) → (modeCfg m).idle = true) := by
  revert m
  decide

/-- Settles O45: `SPICFG` changes only to a row of the mode table or to its reset value. -/
theorem spiCfgStaysLegal : Obligations.SpiCfgStaysLegal := by
  unfold Obligations.SpiCfgStaysLegal
  refine ⟨fun s t hs h => ?_, fun s hs hvalid => ?_⟩
  · exact step_keeps_block (fun _ _ _ _ _ _ _ => id) (fun _ _ _ _ _ => BlockMove.keeps_spiCfgLegal) hs h
  · rcases hs with he | ⟨m, he⟩ <;> rw [he] at hvalid ⊢
    · cases hvalid
    · exact modeCfg_invariants m

/-! ### The drive conventions (R35, R36, R115, R150) -/

/-- What the drive conventions leave of one line's pin. -/
structure PinLegal (l : Line) (p : Pin) : Prop where
  openDrain : l = .scl ∨ l = .sda → p.latch ≠ some true
  written : p.dir = .output → p.latch ≠ none
  undriven : l = .miso ∨ l = .rx → p = Pin.reset

theorem State.pinsLegal_iff (s : State) : s.PinsLegal ↔ ∀ l, PinLegal l (s.pins.get l) := by
  constructor
  · rintro ⟨hscl, hsda, hwritten, hmiso, hrx⟩ l
    refine ⟨?_, hwritten l, ?_⟩
    · rintro (rfl | rfl)
      · exact hscl
      · exact hsda
    · rintro (rfl | rfl)
      · exact hmiso
      · exact hrx
  · intro h
    exact ⟨(h .scl).openDrain (.inl rfl), (h .sda).openDrain (.inr rfl), fun l => (h l).written,
      (h .miso).undriven (.inl rfl), (h .rx).undriven (.inr rfl)⟩

/-- A micro-operation keeps the drive conventions on every line: `μIN` keeps the latch, `μLOW` drives low, and `μOUT` is
for the push-pull lines alone. -/
theorem perform_keeps_pinLegal (env : Oracle) (op : MicroOp) (rest : List MicroStep) (s : State) {l : Line}
    (h : PinLegal l (s.pins.get l)) : PinLegal l ((perform env op rest s).pins.get l) := by
  rcases perform_pin_cases env (op := op) rest s l with he | ⟨_, he⟩ | ⟨o, rfl, _, he⟩ | ⟨o, v, rfl, _, he⟩ <;> rw [he]
  · exact h
  · refine ⟨h.openDrain, by simp, fun hl => ?_⟩
    simp [State.latch, h.undriven hl, Pin.reset]
  · refine ⟨by simp, by simp, ?_⟩
    cases o <;> simp [OpenDrainLine.line]
  · refine ⟨?_, by simp, ?_⟩ <;> cases o <;> simp [PushPullLine.line]

theorem seqStep_keeps_pinsLegal (env : Oracle) {s : State} (h : s.PinsLegal) : (seqStep env s).PinsLegal := by
  cases he : s.pc with
  | nil => rwa [seqStep_idle env he]
  | cons m rest =>
    rw [seqStep_cons env he, State.pinsLegal_iff]
    intro l
    exact perform_keeps_pinLegal env m.op rest _ (by simpa using s.pinsLegal_iff.1 h l)

/-- After reset every line is an input whose latch was never written (R40). -/
theorem resetOf_get_pins (c : Config) (l : Line) : (State.resetOf c).pins.get l = Pin.reset := by
  cases l <;> rfl

theorem resetOf_pinsLegal (c : Config) : (State.resetOf c).PinsLegal := by
  rw [State.pinsLegal_iff]
  intro l
  rw [resetOf_get_pins]
  exact ⟨by simp [Pin.reset], by simp [Pin.reset], fun _ => rfl⟩

theorem BlockMove.keeps_pinsLegal {env : Oracle} {resets : Prop} {s t : State} (hm : BlockMove env resets s t)
    (h : s.PinsLegal) : t.PinsLegal := by
  cases hm with
  | sequencer => exact seqStep_keeps_pinsLegal env h
  | still => exact h
  | raise c _ => simpa [State.pinsLegal_iff] using s.pinsLegal_iff.1 h
  | accepts i => exact h
  | reset _ => exact resetOf_pinsLegal s.cfg

/-- An open-drain line that is an output is driven low (R36). -/
theorem PinLegal.drives_low {l : Line} {p : Pin} (h : PinLegal l p) (hl : l = .scl ∨ l = .sda)
    (hdir : p.dir = .output) : p.drives = .low := by
  obtain ⟨dir, latch⟩ := p
  obtain rfl : dir = .output := hdir
  match latch with
  | none => exact absurd rfl (h.written rfl)
  | some true => exact absurd rfl (h.openDrain hl)
  | some false => rfl

/-- Settles O46: line by line, by what a micro-operation can do to a pin. -/
theorem driveConventionsAreKept : Obligations.DriveConventionsAreKept := by
  unfold Obligations.DriveConventionsAreKept
  refine ⟨fun s t hs h => ?_, fun s hs l hl hdir => ?_⟩
  · exact step_keeps_block (fun _ _ _ _ _ _ _ => id) (fun _ _ _ _ _ => BlockMove.keeps_pinsLegal) hs h
  · exact (s.pinsLegal_iff.1 hs l).drives_low hl hdir

/-! ### The loop index (R32) -/

/-- The pure computation before a micro-operation leaves `s.i`, or sets it to one of its indexes. -/
theorem assignAll_i_cases (as : List Assign) (s : State) :
    (assignAll as s).i = s.i ∨ ∃ n, Assign.setIndex n ∈ as ∧ (assignAll as s).i = n := by
  induction as generalizing s with
  | nil => exact .inl rfl
  | cons x rest ih =>
    rw [assignAll_cons]
    rcases ih (assign s x) with he | ⟨n, hn, he⟩
    · cases x with
      | setIndex n => exact .inr ⟨n, List.mem_cons_self, he⟩
      | clearShift => exact .inl he
    · exact .inr ⟨n, List.mem_cons_of_mem _ hn, he⟩

@[simp] theorem perform_i (env : Oracle) (op : MicroOp) (rest : List MicroStep) (s : State) :
    (perform env op rest s).i = s.i := by
  cases op with
  | wait l v => rw [perform_wait]; split <;> rfl
  | _ => simp [perform]

theorem seqStep_keeps_indexLegal (env : Oracle) {s : State} (h : s.IndexLegal) : (seqStep env s).IndexLegal := by
  obtain ⟨hi, htext⟩ := h
  refine ⟨?_, fun m hm => htext m ((seqStep_pc_suffix env s).subset hm)⟩
  cases he : s.pc with
  | nil => rwa [seqStep_idle env he]
  | cons m rest =>
    rw [seqStep_cons env he, perform_i]
    rcases assignAll_i_cases m.pre s with hs | ⟨n, hn, hs⟩ <;> rw [hs]
    · exact hi
    · exact htext m (by simp [he]) n hn

/-- Every index that a microprogram sets is within R32's range, where the configuration is valid. -/
theorem microprogram_index_le {c : Config} (hc : c.valid = true) (spi : SpiCfg) (i : Instr) {m : MicroStep}
    (hm : m ∈ microprogram c spi i) {n : Nat} (hn : Assign.setIndex n ∈ m.pre) : n ≤ 16 := by
  obtain ⟨body, he, hok⟩ := microprogram_shape c spi i
  obtain ⟨_, hwidth, _, _⟩ := Config.valid_bounds hc
  rw [he, List.mem_append, List.mem_singleton] at hm
  rcases hm with hm | rfl
  · have := (hok m hm).2 n hn
    omega
  · simp at hn

theorem BlockMove.keeps_indexLegal {env : Oracle} {resets : Prop} {s t : State} (hc : s.cfg.valid = true)
    (hm : BlockMove env resets s t) (h : s.IndexLegal) : t.IndexLegal := by
  cases hm with
  | sequencer => exact seqStep_keeps_indexLegal env h
  | still => exact h
  | raise c _ => simpa [State.IndexLegal] using h
  | accepts i => exact ⟨h.1, fun m hm n hn => microprogram_index_le hc s.spi i hm hn⟩
  | reset _ => exact ⟨Nat.zero_le 16, by simp⟩

/-- Settles O48: the running text's indexes come from the microprograms, whose loops run over at most 16 bits. -/
theorem loopIndexStaysInRange : Obligations.LoopIndexStaysInRange := by
  unfold Obligations.LoopIndexStaysInRange
  intro s t hs h
  exact step_keeps_block (fun _ _ _ _ _ _ _ => id) (fun _ _ _ _ hc => BlockMove.keeps_indexLegal hc) hs h

/-! ### The lines of the other units (R37) -/

theorem perform_get_pins_other {env : Oracle} {i : Instr} {op : MicroOp} {rest : List MicroStep} {s : State} {l : Line}
    (hop : allowed i op) (hl : l.unit ≠ unitOf i) : (perform env op rest s).pins.get l = s.pins.get l := by
  rcases perform_pin_cases env (op := op) rest s l with he | ⟨rfl, _⟩ | ⟨o, rfl, rfl, _⟩ | ⟨o, v, rfl, rfl, _⟩
  · exact he
  · exact absurd hop.1 hl
  · exact absurd hop hl
  · exact absurd hop hl

/-- A step of a command's text changes no line of another unit. -/
theorem seqStep_get_pins_other (env : Oracle) {s : State} {i : Instr} {c : Config} {spi : SpiCfg} {l : Line}
    (h : s.pc <:+ microprogram c spi i) (hl : l.unit ≠ unitOf i) : (seqStep env s).pins.get l = s.pins.get l := by
  by_cases hpc : s.pc = []
  · rw [seqStep_idle env hpc]
  · rcases seqStep_position_cases env h hpc with he | ⟨m, rest, _, hop, _, _, he⟩ <;> rw [he]
    · rw [microDone_pins]
    · rw [perform_get_pins_other hop hl, assignAll_pins]

/-- Settles O43: along the run `pc` stays in the command's text, whose steps leave the other units' lines. -/
theorem commandsTouchOnlyTheirUnitsLines : Obligations.CommandsTouchOnlyTheirUnitsLines := by
  unfold Obligations.CommandsTouchOnlyTheirUnitsLines
  intro i s t env n l h hpc hl
  rcases exec_cases i s with ⟨c, _, he⟩ | ⟨_, _, _, _, he⟩ <;> rw [he] at h <;> cases h
  · rw [seqRun_idle env n (by simpa using hpc), raiseFault_pins]
  · refine (seqRun_induction (P := fun u => u.pc <:+ microprogram s.cfg s.spi i ∧ u.pins.get l = s.pins.get l)
      (fun u ⟨hu, hpin⟩ => ⟨(seqStep_pc_suffix env u).trans hu, ?_⟩) n (s := accept i _ s) ⟨List.suffix_rfl, rfl⟩).2
    rw [seqStep_get_pins_other env hu hl, hpin]

/-! ### Reset (R40) -/

/-- Settles O16: the fields of the reset state, and its lines one by one. -/
theorem resetValues : Obligations.ResetValues := by
  unfold Obligations.ResetValues
  refine ⟨rfl, ?_⟩
  rintro c _ rfl
  refine ⟨rfl, rfl, rfl, rfl, rfl, rfl, rfl, rfl, rfl, rfl, rfl, rfl, fun l => ?_, rfl, ?_, rfl⟩
  · simp [State.dir, State.latch, resetOf_get_pins, Pin.reset]
  · simp [State.statusWord, State.resetOf, FaultCode.code]

/-- After reset `SPI.INIT` has not completed and does not run. -/
theorem reset_not_spiInitialising : ¬ State.reset.spiInitialising := by
  rintro (h | ⟨m, hm, _⟩)
  · cases h
  · cases hm

/-- Settles O52: in the reset state no command runs, no line is driven, no fault is recorded and `SPICFG` is unset. -/
theorem resetMeetsTheInvariants : Obligations.ResetMeetsTheInvariants := by
  unfold Obligations.ResetMeetsTheInvariants
  refine ⟨.inl rfl, resetOf_pinsLegal _, ⟨fun _ => rfl, fun _ => rfl⟩, ⟨Nat.zero_le 16, fun m hm => ?_⟩,
    .inl ⟨rfl, rfl, rfl⟩, fun l hl => ?_, fun h => absurd h reset_not_spiInitialising, Memory.wf_reset⟩
  · cases hm
  · rw [State.dir, State.reset, resetOf_get_pins] at hl; cases hl

/-! ### The bits of the registers (R23, R24, R29, R200) -/

section
variable (s : State)

theorem resultWord_value : s.resultWord.extractLsb' 0 16 = s.value := by
  ext i hi
  simp [State.resultWord, hi, show i < 32 by omega]

theorem resultWord_reserved : s.resultWord.extractLsb' 16 16 = 0 := by
  ext i hi
  simp [State.resultWord]

theorem statusWord_flags :
    s.statusWord.getLsbD 0 = s.busy ∧ s.statusWord.getLsbD 1 = s.ack ∧ s.statusWord.getLsbD 2 = s.fault ∧
    s.statusWord.getLsbD 3 = false ∧ s.statusWord.getLsbD 8 = s.i2cInit ∧ s.statusWord.getLsbD 9 = s.spiInit ∧
    s.statusWord.getLsbD 10 = s.uartInit := by
  simp only [State.statusWord, BitVec.getLsbD_append]
  simp

theorem statusWord_fcode : s.statusWord.extractLsb' 4 4 = s.fcode.code := by
  ext i hi
  simp (disch := omega) only [State.statusWord, BitVec.getElem_extractLsb', BitVec.getLsbD_append, if_neg, if_pos]
  simp [hi]

theorem statusWord_reserved : s.statusWord.extractLsb' 11 21 = 0 := by
  ext i hi
  simp (disch := omega) only [State.statusWord, BitVec.getElem_extractLsb', BitVec.getLsbD_append, if_neg]
  simp

theorem spicfgWord_unset {s : State} (h : s.spi.valid = false) : s.spicfgWord = 0 := by
  simp [State.spicfgWord, h]

theorem spicfgWord_mode {s : State} (h : s.spi.valid = true) : s.spicfgWord.extractLsb' 0 2 = s.spi.mode := by
  ext i hi
  simp only [State.spicfgWord, if_pos h, BitVec.getElem_extractLsb', BitVec.getLsbD_append]
  simp [hi]

theorem spicfgWord_flags {s : State} (h : s.spi.valid = true) :
    s.spicfgWord.getLsbD 2 = s.spi.idle ∧ s.spicfgWord.getLsbD 3 = s.spi.sample ∧
    s.spicfgWord.getLsbD 4 = s.spi.prop ∧ s.spicfgWord.getLsbD 5 = true := by
  simp only [State.spicfgWord, if_pos h, BitVec.getLsbD_append]
  simp

theorem spicfgWord_reserved {s : State} (h : s.spi.valid = true) : s.spicfgWord.extractLsb' 6 26 = 0 := by
  ext i hi
  simp (disch := omega) only [State.spicfgWord, if_pos h, BitVec.getElem_extractLsb', BitVec.getLsbD_append, if_neg]
  simp

/-- The `SPICFG` word of a mode, from the row of the mode table (R200). -/
theorem spicfgWord_of_modeCfg {s : State} {m : BitVec 2} (h : s.spi = modeCfg m) :
    s.spicfgWord = 0#26 ++ 1#1 ++ BitVec.ofBool (propLevel m) ++ BitVec.ofBool (sampleLevel m) ++
      BitVec.ofBool (idleLevel m) ++ m := by
  rw [State.spicfgWord, h]; rfl

end

/-- Settles O9: register by register, each field at its bits. -/
theorem registerWordLayout : Obligations.RegisterWordLayout := by
  unfold Obligations.RegisterWordLayout
  intro s
  refine ⟨⟨resultWord_value s, resultWord_reserved s⟩, ?_, spicfgWord_unset, fun hvalid => ?_, ?_, ?_, ?_, ?_⟩
  · obtain ⟨hbusy, hack, hfault, hzero, hi2c, hspi, huart⟩ := statusWord_flags s
    exact ⟨hbusy, hack, hfault, hzero, statusWord_fcode s, hi2c, hspi, huart, statusWord_reserved s⟩
  · obtain ⟨hidle, hsample, hprop, hone⟩ := spicfgWord_flags hvalid
    exact ⟨spicfgWord_mode hvalid, hidle, hsample, hprop, hone, spicfgWord_reserved hvalid⟩
  all_goals
    intro h
    rw [spicfgWord_of_modeCfg h]
    decide

/-! ### The step of a due command, and its acceptance (R22, R25, R112) -/

/-- Settles O6: the due access is the write, and the state without it has the same configuration. -/
theorem stepRunsDecodedCommand : Obligations.StepRunsDecodedCommand := by
  unfold Obligations.StepRunsDecodedCommand
  intro s t w i hr hd hdec
  have hcfg : t.cfg = s.cfg := by rw [State.due_state hd]
  rw [← hcfg] at hdec
  simp [step_due hr hd, hostStep, hostWrite, hostWriteCmd, hdec]

/-- Settles O12: the text is the command's microprogram. -/
theorem acceptanceFrame : Obligations.AcceptanceFrame := by
  unfold Obligations.AcceptanceFrame
  intro i s ⟨hf, hb⟩ hw hi
  exact ⟨_, microprogram_ne_nil s.cfg s.spi i, exec_accepts hw hf hb hi⟩

/-! ### What a command's text may write of the sequencer's own state (R32) -/

/-- Every micro-operation of a text meets `p`, and every pure computation before one meets `q`. -/
def TextMeets (p : MicroOp → Prop) (q : Assign → Prop) (text : List MicroStep) : Prop :=
  ∀ m ∈ text, p m.op ∧ ∀ x ∈ m.pre, q x

section
variable {p : MicroOp → Prop} {q : Assign → Prop}

@[simp] theorem textMeets_nil : TextMeets p q [] := by simp [TextMeets]

@[simp] theorem textMeets_cons (m : MicroStep) (text : List MicroStep) :
    TextMeets p q (m :: text) ↔ (p m.op ∧ ∀ x ∈ m.pre, q x) ∧ TextMeets p q text := by
  simp [TextMeets]

@[simp] theorem textMeets_append (x y : List MicroStep) :
    TextMeets p q (x ++ y) ↔ TextMeets p q x ∧ TextMeets p q y := by
  simp only [TextMeets, List.mem_append, or_imp]
  exact forall_and

theorem textMeets_before {as : List Assign} {text : List MicroStep} (has : ∀ x ∈ as, q x) (h : TextMeets p q text) :
    TextMeets p q (before as text) := by
  cases text with
  | nil => exact h
  | cons m rest =>
    obtain ⟨⟨hop, hpre⟩, hrest⟩ := (textMeets_cons m rest).1 h
    refine (textMeets_cons _ _).2 ⟨⟨hop, fun x hx => ?_⟩, hrest⟩
    exact (List.mem_append.1 hx).elim (has x) (hpre x)

theorem textMeets_forBits {indexes : List Nat} {body : Nat → List MicroStep} (hq : ∀ k, q (.setIndex k))
    (hbody : ∀ k, TextMeets p q (body k)) : TextMeets p q (forBits indexes body) := by
  intro m hm
  obtain ⟨k, _, hm⟩ := List.mem_flatMap.1 hm
  exact textMeets_before (by simpa using hq k) (hbody k) m hm

end

/-- A micro-operation that reads a line stands only in a command that returns a value, and its bit goes to `s.a` or to
`s.r` only where the command samples the ACK or shifts. -/
def readsAllowed (i : Instr) : MicroOp → Prop
  | .sample _ .ackBit => writesAck i = true ∧ returnsValue i = true
  | .sample _ .shiftBit => usesShift i = true ∧ returnsValue i = true
  | .wait _ _ => returnsValue i = true
  | .input _ | .low _ | .out _ _ | .delay _ | .setMode _ | .done _ => True

/-- `s.i` is set only by a command with a bit loop, and `s.r` cleared only by one that shifts. -/
def assignAllowed (i : Instr) : Assign → Prop
  | .setIndex _ => hasBitLoop i = true
  | .clearShift => usesShift i = true

theorem clearShift_allowed {i : Instr} (h : usesShift i = true) : ∀ x ∈ [Assign.clearShift], assignAllowed i x := by
  simpa [assignAllowed] using h

/-- `SHIFT` (R206) reads MISO only where it exchanges bits; a `μDONE` follows it. -/
theorem shiftText_meets {i : Instr} (hshift : usesShift i = true) (hloop : hasBitLoop i = true) {smp : Bool}
    (hread : smp = false ∨ returnsValue i = true) (c : SpiCfg) (n : Nat) (o : Half) (us : List DoneUpdate) :
    TextMeets (readsAllowed i) (assignAllowed i) (shiftText c n o smp ++ [plain (.done us)]) := by
  unfold shiftText
  simp only [textMeets_append]
  refine ⟨⟨⟨textMeets_before (clearShift_allowed hshift) ?_, textMeets_forBits (fun _ => hloop) fun k => ?_⟩, ?_⟩, ?_⟩
  · simp [readsAllowed]
  · simp only [shiftBitText, textMeets_append]
    refine ⟨⟨?_, ?_⟩, ?_⟩
    · simp [readsAllowed]
    · cases smp
      · simp
      · simpa [readsAllowed, hshift] using hread
    · split <;> simp [readsAllowed]
  · simp [readsAllowed]
  · simp [readsAllowed]

/-- Every microprogram writes the sequencer's own state only as its command may. -/
theorem microprogram_meets (c : Config) (spi : SpiCfg) (i : Instr) :
    TextMeets (readsAllowed i) (assignAllowed i) (microprogram c spi i) := by
  cases i with
  | i2cInit => simp [microprogram, i2cInitText, readsAllowed]
  | i2cStart => simp [microprogram, i2cStartText, readsAllowed]
  | i2cStop => simp [microprogram, i2cStopText, readsAllowed]
  | i2cRestart => simp [microprogram, i2cRestartText, readsAllowed]
  | i2cWrite b =>
    simp only [microprogram, i2cWriteText, textMeets_append]
    refine ⟨⟨⟨textMeets_forBits (fun _ => rfl) fun k => ?_, ?_⟩, ?_⟩, ?_⟩
    · unfold i2cWriteBit setSda
      split <;> simp [readsAllowed, returnsValue]
    · simp [readsAllowed, writesAck, returnsValue]
    · simp [pulseText, readsAllowed, returnsValue]
    · simp [readsAllowed]
  | i2cRead ack =>
    simp only [microprogram, i2cReadText, textMeets_append]
    refine ⟨⟨⟨textMeets_before (clearShift_allowed rfl) (textMeets_forBits (fun _ => rfl) fun k => ?_), ?_⟩, ?_⟩, ?_⟩
    · simp [i2cReadBit, readsAllowed, usesShift, returnsValue]
    · cases ack <;> simp [setSda, readsAllowed]
    · simp [pulseText, readsAllowed, returnsValue]
    · simp [readsAllowed]
  | spiInit => simp [microprogram, spiInitText, readsAllowed]
  | spiSetMode m => simp [microprogram, spiSetModeText, readsAllowed]
  | spiGetMode => simp [microprogram, spiGetModeText, readsAllowed]
  | spiWriteB b => exact shiftText_meets rfl rfl (.inl rfl) _ _ _ _
  | spiWriteN v => exact shiftText_meets rfl rfl (.inl rfl) _ _ _ _
  | spiReadB => exact shiftText_meets rfl rfl (.inr rfl) _ _ _ _
  | spiReadN => exact shiftText_meets rfl rfl (.inr rfl) _ _ _ _
  | spiXmit b => exact shiftText_meets rfl rfl (.inr rfl) _ _ _ _
  | uartInit => simp [microprogram, uartInitText, readsAllowed]
  | uartWrite b =>
    simp only [microprogram, uartWriteText, textMeets_append]
    refine ⟨⟨⟨?_, textMeets_forBits (fun _ => rfl) fun k => ?_⟩, ?_⟩, ?_⟩ <;> simp [uartLevel, readsAllowed]
  | uartRead =>
    simp only [microprogram, uartReadText, textMeets_append]
    refine ⟨⟨⟨textMeets_before (clearShift_allowed rfl) ?_, ?_⟩, textMeets_forBits (fun _ => rfl) fun k => ?_⟩, ?_⟩
    · unfold startDetectText
      split <;> simp [readsAllowed, returnsValue]
    · simp [readsAllowed]
    · unfold uartReadBit
      split <;> simp [readsAllowed, usesShift, returnsValue]
    · simp [readsAllowed]

/-! ### Which micro-operations write `s.r`, `s.a` and `s.v`, and which `μDONE`s `RESULT` and `ACK` -/

theorem assignAll_r {as : List Assign} (h : Assign.clearShift ∉ as) (s : State) : (assignAll as s).r = s.r := by
  induction as generalizing s with
  | nil => rfl
  | cons x rest ih =>
    rw [List.mem_cons, not_or] at h
    rw [assignAll_cons, ih h.2]
    cases x with
    | setIndex n => rfl
    | clearShift => exact absurd rfl h.1

section
variable (env : Oracle) {op : MicroOp} (rest : List MicroStep) (s : State)

theorem perform_r (h : ∀ l, op ≠ .sample l .shiftBit) : (perform env op rest s).r = s.r := by
  cases op with
  | sample l dest =>
    cases dest with
    | ackBit => rfl
    | shiftBit => exact absurd rfl (h l)
  | wait l v => rw [perform_wait]; split <;> rfl
  | _ => simp [perform]

theorem perform_a (h : ∀ l, op ≠ .sample l .ackBit) : (perform env op rest s).a = s.a := by
  cases op with
  | sample l dest =>
    cases dest with
    | ackBit => exact absurd rfl (h l)
    | shiftBit => rfl
  | wait l v => rw [perform_wait]; split <;> rfl
  | _ => simp [perform]

theorem perform_v (hs : ∀ l dest, op ≠ .sample l dest) (hw : ∀ l v, op ≠ .wait l v) :
    (perform env op rest s).v = s.v := by
  cases op with
  | sample l dest => exact absurd rfl (hs l dest)
  | wait l v => exact absurd rfl (hw l v)
  | _ => simp [perform]

end

/-- Only a command that returns a value writes `RESULT` (R23). -/
theorem microDone_value {i : Instr} (h : returnsValue i = false) (width : Nat) (s : State) :
    (microDone (doneUpdates width i) s).value = s.value := by
  cases i <;> simp [returnsValue] at h <;> rfl

/-- Only `I2C.WRITE` writes `ACK` (R26). -/
theorem microDone_ack {i : Instr} (h : writesAck i = false) (width : Nat) (s : State) :
    (microDone (doneUpdates width i) s).ack = s.ack := by
  cases i <;> simp [writesAck] at h <;> rfl

/-! ### The frame of a running command -/

/-- What the steps of command `i` from `s` to `u` leave as it was, of what some commands write. -/
structure Framed (i : Instr) (s u : State) : Prop where
  busy : u.busy = true → s.busy = true
  value : returnsValue i = false ∨ u.busy = true → u.value = s.value
  ack : writesAck i = false ∨ u.busy = true → u.ack = s.ack
  spi : writesSpiCfg i = false → u.spi = s.spi
  shift : usesShift i = false → u.r = s.r
  index : hasBitLoop i = false → u.i = s.i
  ackBit : writesAck i = false → u.a = s.a
  read : returnsValue i = false → u.v = s.v
  init : ∀ unit, isInit i = false ∨ unit ≠ unitOf i ∨ u.busy = true → u.initFlag unit = s.initFlag unit

theorem Framed.refl (i : Instr) (s : State) : Framed i s s where
  busy := id
  value _ := rfl
  ack _ := rfl
  spi _ := rfl
  shift _ := rfl
  index _ := rfl
  ackBit _ := rfl
  read _ := rfl
  init _ _ := rfl

theorem Framed.trans {i : Instr} {s u w : State} (h : Framed i s u) (h' : Framed i u w) : Framed i s w where
  busy := h.busy ∘ h'.busy
  value hw := (h'.value hw).trans (h.value (hw.imp_right h'.busy))
  ack hw := (h'.ack hw).trans (h.ack (hw.imp_right h'.busy))
  spi hw := (h'.spi hw).trans (h.spi hw)
  shift hw := (h'.shift hw).trans (h.shift hw)
  index hw := (h'.index hw).trans (h.index hw)
  ackBit hw := (h'.ackBit hw).trans (h.ackBit hw)
  read hw := (h'.read hw).trans (h.read hw)
  init unit hw := (h'.init unit hw).trans (h.init unit (hw.imp_right (Or.imp_right h'.busy)))

/-- A command's `μDONE` writes what that command may, and ends it. -/
theorem framed_microDone (width : Nat) (i : Instr) (s : State) : Framed i s (microDone (doneUpdates width i) s) where
  busy h := by simp at h
  value h := microDone_value (by simpa using h) width s
  ack h := microDone_ack (by simpa using h) width s
  spi _ := microDone_spi _ s
  shift _ := microDone_r _ s
  index _ := microDone_i _ s
  ackBit _ := microDone_a _ s
  read _ := microDone_v _ s
  init unit h := by
    rw [initFlag_microDone, if_neg]
    rintro ⟨hinit, rfl⟩
    simp [hinit] at h

/-- A micro-operation of a command's text, with the computation before it, writes what that command may. -/
theorem framed_perform (env : Oracle) {i : Instr} {m : MicroStep} (hop : allowed i m.op) (hreads : readsAllowed i m.op)
    (hpre : ∀ x ∈ m.pre, assignAllowed i x) (rest : List MicroStep) (s : State) :
    Framed i s (perform env m.op rest (assignAll m.pre s)) where
  busy h := by simpa [perform_busy env rest _ (allowed_ne_done hop)] using h
  value _ := by simp [perform_value env rest _ (allowed_ne_done hop)]
  ack _ := by simp [perform_ack env rest _ (allowed_ne_done hop)]
  spi h := by
    rcases perform_spi_cases env (op := m.op) rest (assignAll m.pre s) with he | ⟨mode, he, _⟩
    · simpa using he
    · rw [he] at hop; exact absurd (hop.symm.trans h) (by decide)
  shift h := by
    have hclear : Assign.clearShift ∉ m.pre := fun hm => by simpa [assignAllowed, h] using hpre _ hm
    rw [perform_r, assignAll_r hclear]
    intro l he
    simp [he, readsAllowed, h] at hreads
  index h := by
    rw [perform_i]
    rcases assignAll_i_cases m.pre s with he | ⟨n, hn, _⟩
    · exact he
    · simpa [assignAllowed, h] using hpre _ hn
  ackBit h := by
    rw [perform_a, assignAll_a]
    intro l he
    simp [he, readsAllowed, h] at hreads
  read h := by
    rw [perform_v, assignAll_v]
    · intro l dest he
      cases dest <;> simp [he, readsAllowed, h] at hreads
    · intro l v he
      simp [he, readsAllowed, h] at hreads
  init unit _ := by simp [perform_initFlag env rest _ (allowed_ne_done hop)]

/-- A sequencer step in a command's text writes what that command may. -/
theorem framed_seqStep (env : Oracle) {c : Config} {spi : SpiCfg} {i : Instr} {s : State}
    (h : s.pc <:+ microprogram c spi i) : Framed i s (seqStep env s) := by
  by_cases hpc : s.pc = []
  · rw [seqStep_idle env hpc]; exact Framed.refl i s
  · rcases seqStep_position_cases env h hpc with he | ⟨m, rest, hm, hop, _, _, he⟩ <;> rw [he]
    · exact framed_microDone _ i s
    · obtain ⟨hreads, hpre⟩ := microprogram_meets c spi i m (h.subset (by simp [hm]))
      exact framed_perform env hop hreads hpre rest s

theorem framed_seqRun (env : Oracle) (n : Nat) {c : Config} {spi : SpiCfg} {i : Instr} {s : State}
    (h : s.pc <:+ microprogram c spi i) : Framed i s (seqRun env n s) :=
  (seqRun_induction (P := fun u => u.pc <:+ microprogram c spi i ∧ Framed i s u)
    (fun u ⟨hu, hframe⟩ => ⟨(seqStep_pc_suffix env u).trans hu, hframe.trans (framed_seqStep env hu)⟩) n
    ⟨h, Framed.refl i s⟩).2

/-- A command that is running after it was issued to a free block was accepted. -/
theorem exec_accepted {i : Instr} {s t : State} (hfree : s.free) (h : exec i s = .next t) (hb : t.busy = true) :
    t = accept i (microprogram s.cfg s.spi i) s := by
  rcases exec_cases i s with ⟨c, _, he⟩ | ⟨_, _, _, _, he⟩ <;> rw [he] at h <;> cases h
  · rw [raiseFault_busy, hfree.2] at hb; cases hb
  · rfl

/-- Settles O44: acceptance changes `s.cmd`, `BUSY` and `pc` alone, and the steps write what the command may. -/
theorem commandFrame : Obligations.CommandFrame := by
  unfold Obligations.CommandFrame
  intro i s t env n hfree h hb
  obtain rfl := exec_accepted hfree h hb
  obtain ⟨new, hhist⟩ := seqRun_hist env n (accept i (microprogram s.cfg s.spi i) s)
  have hframe := framed_seqRun env n (s := accept i (microprogram s.cfg s.spi i) s) List.suffix_rfl
  refine ⟨⟨new, hhist.symm⟩, ?_, ?_, ?_, ?_, ?_, ?_, ?_, ?_, ?_, ?_, hframe.value, hframe.ack, hframe.spi,
    hframe.shift, hframe.index, hframe.ackBit, hframe.read, fun u hu => by simpa using hframe.init u hu⟩
  all_goals simp

end Sys2Proof.Machine
end

section
/-! PROOFS. The statements of spec/20_memory.md: host memory (R63), and whose step it is (R65, R93, R110, R129, R290). -/

namespace Sys2Proof.Machine

/-! ### Host memory (R63) -/

/-- The block has no access to host memory (R63). -/
theorem BlockMove.mem_eq {env : Oracle} {resets : Prop} {s t : State} (h : BlockMove env resets s t) :
    t.mem = s.mem := by
  cases h <;> simp

/-- The host's own part of a step leaves memory alone or writes one byte. -/
theorem HostOnly.keeps_memoryLegal {s t : State} (h : HostOnly s t) (hs : s.MemoryLegal) : t.MemoryLegal := by
  obtain ⟨_, _, _, _, _, _, rfl, rfl | ⟨a, b, rfl⟩⟩ := h
  · exact hs
  · exact Memory.wf_write a b hs

/-- Settles O51: only the host writes memory, and a write keeps the canonical form. -/
theorem hostMemoryStaysCanonical : Obligations.HostMemoryStaysCanonical := by
  unfold Obligations.HostMemoryStaysCanonical
  intro s t hs h
  refine step_keeps (fun _ _ hu => hu.keeps_memoryLegal) (fun _ _ _ _ _ hm hu => ?_) hs h
  rwa [State.MemoryLegal, hm.mem_eq]

/-! ### The host's next turn (R290) -/

theorem HostOp.isComposite_eq_true {op : HostOp} : op.isComposite = true ↔ ∃ c, op = .composite c := by
  cases op <;> simp [HostOp.isComposite]

theorem HostAccess.fallsHere_eq_true {a : HostAccess} :
    a.fallsHere = true ↔ a.within = some 0 ∧ ∀ c, a.op ≠ .composite c := by
  simp [HostAccess.fallsHere, ← not_exists, ← HostOp.isComposite_eq_true]

theorem HostAccess.fallsHere_eq_false {a : HostAccess} :
    a.fallsHere = false ↔ a.within ≠ some 0 ∨ ∃ c, a.op = .composite c := by
  simp [HostAccess.fallsHere, ← HostOp.isComposite_eq_true, Decidable.imp_iff_not_or]

theorem nextTurn_of_empty {s : State} (hhost : s.host = []) (hcomp : s.composing = []) : nextTurn s = none := by
  simp [nextTurn, hhost, hcomp]

theorem nextTurn_of_list {s : State} {a : HostAccess} {rest : List HostAccess} (hhost : s.host = a :: rest)
    (h : s.composing = [] ∨ a.fallsHere = true) : nextTurn s = some (listTurn a rest s) := by
  unfold nextTurn
  rw [hhost]
  cases hcomp : s.composing with
  | nil => rfl
  | cons op ops => simp [h.resolve_left (by simp [hcomp])]

theorem nextTurn_of_composite {s : State} {op : HostOp} {ops : List HostOp} (hcomp : s.composing = op :: ops)
    (h : ∀ a ∈ s.host.head?, a.fallsHere = false) : nextTurn s = some (compositeTurn op ops s) := by
  unfold nextTurn
  rw [hcomp]
  cases hhost : s.host with
  | nil => rfl
  | cons a rest => simp [h a (by simp [hhost])]

/-! ### Which agent moves (R93, R110) -/

theorem HostOp.waitsOn_eq_true {op : HostOp} {s : State} : op.waitsOn s = true ↔ op = .wait ∧ s.busy = true := by
  cases op <;> simp [HostOp.waitsOn]

theorem sequencerMoves_eq_true {x : Turn} {s : State} :
    sequencerMoves x s = true ↔ (x.op = .wait ∧ s.busy = true) ∨ (0 < x.after ∧ s.pc ≠ []) := by
  simp [sequencerMoves, HostOp.waitsOn_eq_true, and_comm]

theorem sequencerMoves_compositeTurn {op : HostOp} {ops : List HostOp} {s : State} :
    sequencerMoves (compositeTurn op ops s) s = true ↔ op = .wait ∧ s.busy = true := by
  simp [sequencerMoves_eq_true, compositeTurn]

theorem step_runnable {s : State} (hr : s.runnable = true) : step s = stepAgents s.bus.oracle s := by
  simp only [State.runnable, Bool.and_eq_true] at hr
  simp [step, stepWith, hr]

/-- With no turn of the host, the step is the sequencer's. -/
theorem step_of_no_turn {s : State} (hr : s.runnable = true) (hx : nextTurn s = none) :
    step s = .next (seqStep s.bus.oracle s) := by
  simp [step_runnable hr, stepAgents, hx]

/-- While the host's turn is put off, the step is the sequencer's. -/
theorem step_of_sequencerMoves {s : State} {x : Turn} (hr : s.runnable = true) (hx : nextTurn s = some x)
    (hm : sequencerMoves x s = true) : step s = .next (seqStep s.bus.oracle x.delayed) := by
  simp [step_runnable hr, stepAgents, hx, hm]

/-- An access whose turn it is, and which the sequencer does not precede, is due. -/
theorem nextTurn_due {s : State} {x : Turn} (hx : nextTurn s = some x) (hm : ¬ sequencerMoves x s = true) :
    s.due x.op x.taken :=
  ⟨x, hx, rfl, rfl, Bool.eq_false_iff.2 hm⟩

/-- A `wait` is due only when it finds `BUSY = 0` (R93). -/
theorem not_busy_of_due_wait {s t : State} (hd : s.due .wait t) : s.busy = false := by
  obtain ⟨x, _, hop, _, hm⟩ := hd
  refine Bool.eq_false_iff.2 fun hbusy => Bool.eq_false_iff.1 hm ?_
  exact sequencerMoves_eq_true.2 (.inl ⟨hop, hbusy⟩)

/-- Settles O7: the host's turn is its list's next access or the running composite's, and the sequencer moves while there
is none or it is put off. -/
theorem sequencerStepsWhileHostWaits : Obligations.SequencerStepsWhileHostWaits := by
  unfold Obligations.SequencerStepsWhileHostWaits
  intro s hr
  refine ⟨fun _ hhost hcomp => step_of_no_turn hr (nextTurn_of_empty hhost hcomp), ?_, ?_, ?_, ?_⟩
  · rintro ⟨hpc, hhost, hcomp⟩
    rw [step_of_no_turn hr (nextTurn_of_empty hhost hcomp), seqStep_idle _ hpc]
  · intro n k op rest hhost hturn
    have hx := nextTurn_of_list hhost (hturn.imp_right HostAccess.fallsHere_eq_true.2)
    constructor
    · exact fun hputOff => step_of_sequencerMoves hr hx (sequencerMoves_eq_true.2 hputOff)
    · exact fun hnowait hnosteps => nextTurn_due hx (mt sequencerMoves_eq_true.1 (not_or.2 ⟨hnowait, hnosteps⟩))
  · intro op ops hcomp hlater
    have hx : nextTurn s = some (compositeTurn op ops s) := by
      refine nextTurn_of_composite hcomp fun a ha => HostAccess.fallsHere_eq_false.2 ?_
      obtain ⟨rest, hhost⟩ := List.head?_eq_some_iff.1 ha
      exact hlater _ _ _ rest hhost
    refine ⟨fun hwait => step_of_sequencerMoves hr hx (sequencerMoves_compositeTurn.2 hwait), fun hnowait => ?_⟩
    have hdue : s.due op { s with composing := ops, host := passOne s.host } :=
      nextTurn_due hx (mt sequencerMoves_compositeTurn.1 hnowait)
    constructor
    · intro hhost
      simpa [hhost, passOne] using hdue
    · intro n k a rest hhost
      simpa [hhost, passOne] using hdue
  · exact fun t hd => ⟨not_busy_of_due_wait hd, step_due hr hd⟩

end Sys2Proof.Machine
end

section
/-! PROOFS. The statements of spec/30_encoding.md: decoding and encoding are inverse to each other (R81 to R88), the legal
words are those of the opcode map (R89), and the illegal ones are those listed (R90) and are not executed (R323). -/

namespace Sys2Proof

/-! ### The legal words of a row of the `OP` table (R88, R90) -/

/-- The word `w` is a legal word of the opcode `c`: none of R90's reasons applies to it. -/
structure Opcode.Legal (width : Nat) (w : Word) (c : Opcode) : Prop where
  reserved : Field.reserved w = 0
  table : opTable (Field.unit w) (Field.op w) = some c
  a : Field.a w = true → c = .i2cRead
  m : Field.m w ≠ 0 → c = .spiSetMode
  data : fitsWidth (c.width width) (Field.data w) = true

/-- What the decoder accepts, and the command it answers (R88). -/
theorem decode_eq_ok_iff {width : Nat} {w : Word} {i : Instr} :
    decode width w = .ok i ↔
      ∃ c : Opcode, c.Legal width w ∧ c.withOperands (Field.a w) (Field.m w) (Field.data w) = i := by
  constructor
  · intro h
    simp only [decode, ite_not] at h
    split at h
    case isFalse => cases h
    case isTrue hres =>
      split at h
      case h_1 => cases h
      case h_2 c htable =>
        split_ifs at h with ha hm hd
        exact ⟨c, ⟨hres, htable, by simpa using ha, by simpa using hm, by simpa using hd⟩, by simpa using h⟩
  · rintro ⟨c, ⟨hres, htable, ha, hm, hd⟩, rfl⟩
    have ha' : ¬ (Field.a w = true ∧ c ≠ .i2cRead) := fun h => h.2 (ha h.1)
    have hm' : ¬ (Field.m w ≠ 0 ∧ c ≠ .spiSetMode) := fun h => h.2 (hm h.1)
    simp only [decode, hres, htable, if_neg ha', if_neg hm', hd, not_true, ne_eq, if_false, Bool.true_eq_false]

theorem decode_eq_error_iff {width : Nat} {w : Word} :
    (∃ e, decode width w = .error e) ↔ ¬ ∃ c : Opcode, c.Legal width w := by
  cases h : decode width w with
  | ok i =>
    obtain ⟨c, hc, _⟩ := decode_eq_ok_iff.1 h
    simpa using ⟨c, hc⟩
  | error e =>
    refine iff_of_true ⟨e, rfl⟩ fun ⟨c, hc⟩ => ?_
    simpa [h] using decode_eq_ok_iff.2 ⟨c, hc, rfl⟩

@[simp] theorem opcodeOf_withOperands (c : Opcode) (a : Bool) (m : BitVec 2) (d : Half) :
    opcodeOf (c.withOperands a m d) = c := by
  cases c <;> rfl

/-! ### Decoding an encoding -/

/-- A command's word is a legal word of its row when the command is well-formed. -/
theorem legal_encode {width : Nat} {i : Instr} (h : wellFormed width i = true) :
    (opcodeOf i).Legal width (encode i) := by
  obtain ⟨hres, htable⟩ := Machine.opcodeFields i
  refine ⟨hres, htable, ?_, ?_, ?_⟩
  · cases i <;> simp [encode, opcodeOf]
  · cases i <;> simp [encode, opcodeOf]
  · cases i with
    | spiWriteN v => simpa [encode, opcodeOf, Opcode.width, wellFormed] using h
    | _ => simp [encode, opcodeOf, Opcode.width]

/-- A command's operands are read back from the fields of its word (R84 to R86). -/
theorem withOperands_encode (i : Instr) :
    (opcodeOf i).withOperands (Field.a (encode i)) (Field.m (encode i)) (Field.data (encode i)) = i := by
  cases i <;> simp [encode, opcodeOf, Opcode.withOperands]

/-- Settles O1: a command's word is a legal word of its row, with the command's operands in its fields. -/
theorem decodeOfEncode : Obligations.DecodeOfEncode := by
  unfold Obligations.DecodeOfEncode
  intro width i h
  exact decode_eq_ok_iff.2 ⟨opcodeOf i, legal_encode h, withOperands_encode i⟩

/-! ### Encoding a decoded word -/

/-- Encoding a row's command with operands that the row allows drops none of them. -/
theorem encode_withOperands {width : Nat} {c : Opcode} {a : Bool} {m : BitVec 2} {d : Half}
    (ha : a = true → c = .i2cRead) (hm : m ≠ 0 → c = .spiSetMode) (hd : fitsWidth (c.width width) d = true) :
    encode (c.withOperands a m d) = commandWord c.fields.1 c.fields.2 a m d := by
  have ha' : c ≠ .i2cRead → a = false := by simpa using mt ha
  have hm' : c ≠ .spiSetMode → m = 0 := by simpa using mt hm
  have hbyte : c.width width = 8 → (d.setWidth 8).setWidth 16 = d := fun hw => setWidth_of_fitsWidth_byte (hw ▸ hd)
  have hnone : c.width width = 0 → d = 0#16 := fun hw => eq_zero_of_fitsWidth_zero (hw ▸ hd)
  cases c <;> simp_all [Opcode.withOperands, encode, Opcode.fields, Opcode.width]

/-- The command of a legal word is well-formed: only `SPI.WRITEN` leaves something to check (R86). -/
theorem Opcode.Legal.wellFormed {width : Nat} {w : Word} {c : Opcode} (h : c.Legal width w) :
    wellFormed width (c.withOperands (Field.a w) (Field.m w) (Field.data w)) = true := by
  have hd := h.data
  cases c with
  | spiWriteN => exact hd
  | _ => rfl

/-- A legal word is the encoding of its command. -/
theorem Opcode.Legal.encode_eq {width : Nat} {w : Word} {c : Opcode} (h : c.Legal width w) :
    encode (c.withOperands (Field.a w) (Field.m w) (Field.data w)) = w := by
  have hfields := opTable_eq_some _ _ _ h.table
  calc encode (c.withOperands (Field.a w) (Field.m w) (Field.data w))
      = commandWord c.fields.1 c.fields.2 (Field.a w) (Field.m w) (Field.data w) := encode_withOperands h.a h.m h.data
    _ = commandWord (Field.unit w) (Field.op w) (Field.a w) (Field.m w) (Field.data w) := by rw [← hfields]
    _ = w := commandWord_of_fields w h.reserved

/-- Settles O2: a word that decodes is a legal word of some row. -/
theorem encodeOfDecode : Obligations.EncodeOfDecode := by
  unfold Obligations.EncodeOfDecode
  intro width w i h
  obtain ⟨c, hc, rfl⟩ := decode_eq_ok_iff.1 h
  exact ⟨hc.encode_eq, hc.wellFormed⟩

/-! ### The opcode map (R89) -/

/-- A word is the word of given fields when its fields are those and its reserved bits are 0. -/
theorem eq_commandWord_iff {w : Word} {u : BitVec 2} {op : BitVec 4} {a : Bool} {m : BitVec 2} {d : Half} :
    w = commandWord u op a m d ↔ Field.reserved w = 0 ∧ (Field.unit w = u ∧ Field.op w = op) ∧
      Field.a w = a ∧ Field.m w = m ∧ Field.data w = d := by
  constructor
  · rintro rfl; simp
  · rintro ⟨hres, ⟨rfl, rfl⟩, rfl, rfl, rfl⟩
    exact (commandWord_of_fields w hres).symm

section masked
variable (w v : Word)

/-! The fields of a word from which the bits of another are cleared. -/

@[simp] theorem unit_and_not : Field.unit (w &&& ~~~v) = Field.unit w &&& ~~~Field.unit v := by
  ext i hi
  simp [Field.unit, show 30 + i < 32 by omega]

@[simp] theorem op_and_not : Field.op (w &&& ~~~v) = Field.op w &&& ~~~Field.op v := by
  simp [Field.op, BitVec.extractLsb'_and, BitVec.extractLsb'_not_of_lt]

@[simp] theorem a_and_not : Field.a (w &&& ~~~v) = (Field.a w && !Field.a v) := by
  simp [Field.a]

@[simp] theorem reserved_and_not : Field.reserved (w &&& ~~~v) = Field.reserved w &&& ~~~Field.reserved v := by
  simp [Field.reserved, BitVec.extractLsb'_and, BitVec.extractLsb'_not_of_lt]

@[simp] theorem m_and_not : Field.m (w &&& ~~~v) = Field.m w &&& ~~~Field.m v := by
  simp [Field.m, BitVec.extractLsb'_and, BitVec.extractLsb'_not_of_lt]

@[simp] theorem data_and_not : Field.data (w &&& ~~~v) = Field.data w &&& ~~~Field.data v := by
  simp [Field.data, BitVec.extractLsb'_and, BitVec.extractLsb'_not_of_lt]

end masked

/-- The bits of a command word that hold an operand of the opcode, those of `SPI.WRITEN` at the full width of `DATA`
(R84 to R86). -/
def Opcode.operandBits (c : Opcode) : Word :=
  commandWord 0 0 (c = .i2cRead) (if c = .spiSetMode then BitVec.allOnes 2 else 0)
    (~~~(BitVec.allOnes 16 <<< c.width 16))

/-- R89's map, row by row: `match` is the word without operands, `mask` the bits that hold none. -/
theorem opcodeRows_bits : ∀ row ∈ opcodeRows,
    row.matchBits = commandWord row.code.fields.1 row.code.fields.2 false 0 0 ∧
      row.mask = ~~~row.code.operandBits := by
  decide

theorem exists_opcodeRow (c : Opcode) : ∃ row ∈ opcodeRows, row.code = c := by
  cases c <;> decide

theorem opcodeRow_eq_of_code : ∀ row ∈ opcodeRows, ∀ row' ∈ opcodeRows, row.code = row'.code → row = row' := by
  decide

theorem opTable_eq_some_iff {u : BitVec 2} {op : BitVec 4} {c : Opcode} :
    opTable u op = some c ↔ u = c.fields.1 ∧ op = c.fields.2 := by
  constructor
  · intro h
    exact Prod.ext_iff.1 (opTable_eq_some u op c h)
  · rintro ⟨rfl, rfl⟩
    exact opTable_fields c

/-- `DATA` fits a width when no bit at or above it is left. -/
theorem fitsWidth_iff_and {width : Nat} {d : Half} :
    fitsWidth width d = true ↔ d &&& BitVec.allOnes 16 <<< width = 0 := by
  rw [fitsWidth, decide_eq_true_eq, ← BitVec.shiftLeft_ushiftRight]
  constructor
  · intro h
    simp [h]
  · intro h
    ext i hi
    by_cases hw : width + i < 16
    · have := congrArg (fun x => x.getLsbD (width + i)) h
      simpa [hw] using this
    · simp [BitVec.getLsbD_of_ge d (width + i) (by omega)]

/-- A row's words are the legal words of its opcode at the full width of `DATA`. -/
theorem matchesWord_iff_legal {row : OpcodeRow} (hrow : row ∈ opcodeRows) (w : Word) :
    row.matchesWord w = true ↔ row.code.Legal 16 w := by
  obtain ⟨hmatch, hmask⟩ := opcodeRows_bits row hrow
  have ha : (Field.a w && !decide (row.code = .i2cRead)) = false ↔ (Field.a w = true → row.code = .i2cRead) := by
    simp
  have hm : Field.m w &&& ~~~(if row.code = .spiSetMode then BitVec.allOnes 2 else 0) = 0 ↔
      (Field.m w ≠ 0 → row.code = .spiSetMode) := by
    by_cases hc : row.code = .spiSetMode
    · simp [hc]
    · simp [hc, -BitVec.reduceAllOnes, -BitVec.reduceNot]
  rw [OpcodeRow.matchesWord, decide_eq_true_eq, hmatch, hmask, eq_commandWord_iff]
  simp only [reserved_and_not, unit_and_not, op_and_not, a_and_not, m_and_not, data_and_not, Opcode.operandBits,
    reserved_commandWord, unit_commandWord, op_commandWord, a_commandWord, m_commandWord, data_commandWord,
    ha, hm, BitVec.not_not, ← fitsWidth_iff_and]
  simp only [BitVec.ofNat_eq_ofNat, BitVec.not_zero, BitVec.and_allOnes, ← opTable_eq_some_iff]
  exact ⟨fun ⟨hres, htable, ha, hm, hd⟩ => ⟨hres, htable, ha, hm, hd⟩,
    fun ⟨hres, htable, ha, hm, hd⟩ => ⟨hres, htable, ha, hm, hd⟩⟩

theorem Opcode.width_eq_of_ne {c : Opcode} (hc : c ≠ .spiWriteN) (width width' : Nat) :
    c.width width = c.width width' := by
  cases c with
  | spiWriteN => exact absurd rfl hc
  | _ => rfl

/-- Only `SPI.WRITEN`'s words depend on the configured width. -/
theorem Opcode.legal_iff_full_width {width : Nat} {w : Word} {c : Opcode} :
    c.Legal width w ↔ c.Legal 16 w ∧ (c = .spiWriteN → fitsWidth width (Field.data w) = true) := by
  by_cases hc : c = .spiWriteN
  · subst hc
    have hfull : fitsWidth 16 (Field.data w) = true := by
      simp [fitsWidth, BitVec.ushiftRight_eq_zero]
    exact ⟨fun h => ⟨{ h with data := hfull }, fun _ => h.data⟩, fun ⟨h, hd⟩ => { h with data := hd rfl }⟩
  · have hwidth := Opcode.width_eq_of_ne hc width 16
    have hiff : c.Legal width w ↔ c.Legal 16 w :=
      ⟨fun h => { h with data := hwidth ▸ h.data }, fun h => { h with data := hwidth.symm ▸ h.data }⟩
    simp [hiff, hc]

/-- A word has at most one row, since `UNIT` and `OP` name it (R83). -/
theorem opcodeRow_eq_of_matchesWord {w : Word} {row row' : OpcodeRow} (hrow : row ∈ opcodeRows)
    (hrow' : row' ∈ opcodeRows) (h : row.matchesWord w = true) (h' : row'.matchesWord w = true) : row = row' := by
  have hl := (matchesWord_iff_legal hrow w).1 h
  have hl' := (matchesWord_iff_legal hrow' w).1 h'
  exact opcodeRow_eq_of_code row hrow row' hrow' (Option.some.inj (hl.table.symm.trans hl'.table))

/-- The words that decode to a command of a row are the row's legal words. -/
theorem exists_decode_opcode_iff {width : Nat} {w : Word} {c : Opcode} :
    (∃ i, decode width w = .ok i ∧ opcodeOf i = c) ↔ c.Legal width w := by
  constructor
  · rintro ⟨i, hi, rfl⟩
    obtain ⟨c, hc, rfl⟩ := decode_eq_ok_iff.1 hi
    simpa using hc
  · exact fun h => ⟨_, decode_eq_ok_iff.2 ⟨c, h, rfl⟩, opcodeOf_withOperands c _ _ _⟩

/-- Settles O3: a row's words are its opcode's legal words at the full width, and only `SPI.WRITEN`'s are fewer under a
configured width. -/
theorem legalWordsAreTheOpcodeMap : Obligations.LegalWordsAreTheOpcodeMap := by
  unfold Obligations.LegalWordsAreTheOpcodeMap
  refine ⟨fun width w c => ?_, fun w row hrow row' hrow' => opcodeRow_eq_of_matchesWord hrow hrow'⟩
  rw [exists_decode_opcode_iff, Opcode.legal_iff_full_width]
  constructor
  · rintro ⟨hlegal, hfits⟩
    obtain ⟨row, hrow, rfl⟩ := exists_opcodeRow c
    have hmatch := (matchesWord_iff_legal hrow w).2 hlegal
    exact ⟨row, hrow, rfl, hmatch, fun row' hrow' h' => opcodeRow_eq_of_matchesWord hrow' hrow h' hmatch, hfits⟩
  · rintro ⟨row, hrow, rfl, hmatch, -, hfits⟩
    exact ⟨(matchesWord_iff_legal hrow w).1 hmatch, hfits⟩

/-! ### The illegal words (R90, R323) -/

/-- The rows that the `OP` table reserves (R83). -/
theorem opTable_eq_none_iff : ∀ (u : BitVec 2) (op : BitVec 4),
    opTable u op = none ↔
      u = 3 ∨ (u = 0 ∧ 6 ≤ op.toNat) ∨ (u = 1 ∧ 8 ≤ op.toNat) ∨ (u = 2 ∧ 3 ≤ op.toNat) := by
  decide

/-- The one row a word can be legal for is that of its `UNIT` and `OP`. -/
theorem exists_legal_iff {width : Nat} {w : Word} {c : Opcode}
    (htable : opTable (Field.unit w) (Field.op w) = some c) :
    (∃ c' : Opcode, c'.Legal width w) ↔ Field.reserved w = 0 ∧ (Field.a w = true → c = .i2cRead) ∧
      (Field.m w ≠ 0 → c = .spiSetMode) ∧ fitsWidth (c.width width) (Field.data w) = true := by
  constructor
  · rintro ⟨c', hres, htable', ha, hm, hd⟩
    obtain rfl := Option.some.inj (htable.symm.trans htable')
    exact ⟨hres, ha, hm, hd⟩
  · rintro ⟨hres, ha, hm, hd⟩
    exact ⟨c, hres, htable, ha, hm, hd⟩

/-- R90's list of the illegal words. -/
theorem decode_eq_error_iff_reasons {width : Nat} {w : Word} :
    (∃ e, decode width w = .error e) ↔
      opTable (Field.unit w) (Field.op w) = none ∨ Field.reserved w ≠ 0 ∨
      (Field.a w = true ∧ opTable (Field.unit w) (Field.op w) ≠ some .i2cRead) ∨
      (Field.m w ≠ 0 ∧ opTable (Field.unit w) (Field.op w) ≠ some .spiSetMode) ∨
      (∃ c, opTable (Field.unit w) (Field.op w) = some c ∧ Field.data w >>> c.width width ≠ 0) := by
  rw [decode_eq_error_iff]
  cases htable : opTable (Field.unit w) (Field.op w) with
  | none => exact iff_of_true (fun ⟨c, hc⟩ => by simpa [htable] using hc.table) (.inl rfl)
  | some c =>
    rw [exists_legal_iff htable]
    simp [fitsWidth, -not_and, not_and_or]

/-- Settles O4: the reasons are those for which no row has the word among its legal ones, and issuing an illegal word can
do nothing but raise a fault. -/
theorem illegalWordsFault : Obligations.IllegalWordsFault := by
  unfold Obligations.IllegalWordsFault
  constructor
  · intro width w
    rw [decode_eq_error_iff_reasons, opTable_eq_none_iff]
    simp only [or_assoc]
  · intro s w e h
    have hissue : Machine.hostWrite 0 w s = Machine.issueIllegal s := by
      simp [Machine.hostWrite, Machine.hostWriteCmd, h]
    rw [hissue]
    rcases Machine.issueIllegal_cases s with ⟨hf, he⟩ | ⟨hf, hb, he⟩ | ⟨hf, hb, he⟩
    · simp [he, hf]
    · simp [he, hf, hb, Machine.raiseFault_of_free]
    · simp [he, hf, hb, Machine.raiseFault_of_free]

/-! ### The decoding vectors (spec/95_test_vectors.md section 2.1) -/

/-- Settles O5: the decoder evaluated at the twenty words. -/
theorem vectorWordsDecode : Obligations.VectorWordsDecode := by
  unfold Obligations.VectorWordsDecode
  decide

end Sys2Proof
end

section
/-! PROOFS. The statements of spec/40_sequencer.md: the host's register accesses (R112, R113), the micro-operations as
sequencer steps (R114 to R121), and the waits and the end of a command (R111, R118, R372). -/

namespace Sys2Proof.Machine

/-! ### The host's accesses (R112, R113) -/

/-- Raising a fault sets `FAULT`, and `FCODE` if it is the first one (R27). -/
theorem raiseFault_eq (c : FaultCode) (s : State) :
    raiseFault c s = { s with fault := true, fcode := if s.fault = true then s.fcode else c } := by
  cases hf : s.fault
  · simp [raiseFault_of_free c hf]
  · rw [raiseFault_of_fault c hf, if_pos rfl, ← hf]

/-- A write to `CMD` of a word that does not decode (R112, R323). -/
theorem hostWrite_cmd_of_error {s : State} {w : Word} {e : Illegal} (h : decode s.cfg.spiWidth w = .error e) :
    hostWrite 0 w s = issueIllegal s := by
  simp [hostWrite, hostWriteCmd, h]

/-- A write to `CMD` of a command's word issues the command (R112). -/
theorem hostWrite_cmd_of_ok {s : State} {w : Word} {i : Instr} (h : decode s.cfg.spiWidth w = .ok i) :
    hostWrite 0 w s = issue i (microprogram s.cfg s.spi i) s := by
  have hwf := (encodeOfDecode _ _ _ h).2
  simp [hostWrite, hostWriteCmd, h, exec_wellFormed hwf]

/-- Settles O10: by the tests of `issue` for a word that decodes, and of `issueIllegal` for one that does not. -/
theorem commandWriteFollowsAcceptance : Obligations.CommandWriteFollowsAcceptance := by
  unfold Obligations.CommandWriteFollowsAcceptance
  refine ⟨fun s w => ?_, fun s t w hr hd => step_due hr hd⟩
  cases hdec : decode s.cfg.spiWidth w with
  | error e =>
    rw [hostWrite_cmd_of_error hdec]
    rcases issueIllegal_cases s with ⟨hf, he⟩ | ⟨hf, hb, he⟩ | ⟨hf, hb, he⟩
    · simp [he, hf]
    · simp [he, hf, hb, raiseFault_of_free]
    · simp [he, hf, hb, raiseFault_of_free]
  | ok i =>
    rw [hostWrite_cmd_of_ok hdec]
    rcases issue_cases i (microprogram s.cfg s.spi i) s with
      ⟨hf, he⟩ | ⟨hf, hb, he⟩ | ⟨hf, hb, hi, hu, he⟩ | ⟨hf, hb, hi, he⟩
    · simp [he, hf]
    · simp [he, hf, hb, raiseFault_of_free]
    · simp [he, hf, hb, hi, hu, raiseFault_of_free]
    · have hi' : ¬ (isInit i = false ∧ s.initFlag (unitOf i) = false) := by
        rintro ⟨hno, hoff⟩
        simp [hno, hoff] at hi
      have hw : encode i = w := (encodeOfDecode _ _ _ hdec).1
      simp [he, hf, hb, hi', accept, hw]

/-- A read of `CMD` or of a register that does not exist faults and returns 0 (R113). -/
theorem hostRead_faulting {reg : Nat} (h : reg = 0 ∨ 4 ≤ reg) (s : State) :
    hostRead reg s = (0, raiseFault .badRegister s) := by
  rcases h with rfl | h
  · rfl
  · obtain ⟨n, rfl⟩ := Nat.exists_eq_add_of_le' h
    rfl

/-- Settles O8: the access is taken at a state that differs from `s` in the host's program alone. -/
theorem hostRegisterAccesses : Obligations.HostRegisterAccesses := by
  unfold Obligations.HostRegisterAccesses
  intro s t hr
  refine ⟨fun reg hd => ?_, fun reg w hd hreg => ?_⟩
  · rw [step_due hr hd, State.due_state hd]
    refine ⟨?_, ?_, ?_, fun h => ?_⟩
    · rintro rfl; rfl
    · rintro rfl; rfl
    · rintro rfl; rfl
    · simp [hostStep, hostRead_faulting h, raiseFault_eq, State.receive]
  · rw [step_due hr hd, State.due_state hd]
    simp [hostStep, hostWrite, hreg, raiseFault_eq]

/-! ### The micro-operations as sequencer steps (R114 to R121) -/

/-- The row of the mode table for `m`: `SAMPLE` is 1 exactly when CPOL and CPHA agree (R30). -/
theorem modeCfg_eq (m : BitVec 2) :
    modeCfg m = { mode := m, idle := m.getLsbD 1, sample := m.getLsbD 1 == m.getLsbD 0,
                  prop := m.getLsbD 1 != m.getLsbD 0, valid := true } := by
  revert m; decide

/-- Settles O18: each of the five is its own effect, followed by the move of `pc`. -/
theorem drivingMicroOperations : Obligations.DrivingMicroOperations := by
  unfold Obligations.DrivingMicroOperations
  intro env s rest
  refine ⟨fun l h => ?_, fun l h => ?_, fun l v h => ?_, fun c h => ?_, fun m h => ?_⟩ <;> rw [seqStep_cons env h]
  · rfl
  · rfl
  · rfl
  · rfl
  · rw [← modeCfg_eq]; rfl

theorem getLsbD_one_shiftLeft (i : Nat) {k : Nat} (hk : k < 16) : (1#16 <<< i).getLsbD k = decide (k = i) := by
  rw [← BitVec.twoPow_eq, BitVec.getLsbD_twoPow]
  by_cases hki : k = i
  · simp [← hki, hk]
  · simp [hki, Ne.symm hki]

/-- Writing bit `i` changes that bit alone. -/
theorem getLsbD_setBit (v : Half) (i : Nat) (b : Bool) {k : Nat} (hk : k < 16) :
    (setBit v i b).getLsbD k = if k = i then b else v.getLsbD k := by
  cases b
  · rw [setBit, if_neg (by simp), BitVec.getLsbD_and, BitVec.getLsbD_not, getLsbD_one_shiftLeft i hk]
    by_cases hki : k = i <;> simp [hki, hk]
  · rw [setBit, if_pos rfl, BitVec.getLsbD_or, getLsbD_one_shiftLeft i hk]
    by_cases hki : k = i <;> simp [hki]

/-- What a line that can be sampled reads (R121). -/
theorem readLine_sampled (env : Oracle) (l : SampledLine) (s : State) :
    readLine env l.line s =
      if l = .sda ∧ s.dir .sda = .output then false else env l.line s.hist := by
  cases l <;> simp [SampledLine.line, readLine]

/-- What a line that can be waited for reads (R121). -/
theorem readLine_waited (env : Oracle) (l : WaitedLine) (s : State) :
    readLine env l.line s =
      if l = .scl ∧ s.dir .scl = .output then false else env l.line s.hist := by
  cases l <;> simp [WaitedLine.line, readLine]

/-- One poll of a `μWAIT`: it keeps the value read, and moves `pc` only if that is the awaited one (R118). -/
theorem seqStep_wait (env : Oracle) {s : State} {pre : List Assign} {l : WaitedLine} {v : Bool} {rest : List MicroStep}
    (h : s.pc = ⟨pre, .wait l v⟩ :: rest) :
    seqStep env s =
      { assignAll pre s with
        v := readLine env l.line s
        hist := s.hist ++ [.poll l.line (readLine env l.line s)]
        pc := if readLine env l.line s = v then rest else s.pc } := by
  have hread : readLine env l.line (assignAll pre s) = readLine env l.line s :=
    readLine_congr env l.line (assignAll_pins pre s) (assignAll_hist pre s)
  rw [seqStep_cons env h]
  simp only [perform, hread]
  split <;> simp [microPoll, State.emit]

/-- Settles O19: the value is what `ReadLine` answers. -/
theorem readingMicroOperations : Obligations.ReadingMicroOperations := by
  unfold Obligations.ReadingMicroOperations
  intro env s rest
  constructor
  · intro l
    refine ⟨readLine env l.line s, fun hl hdir => ?_, fun hreleased => ?_, fun dest h => ?_⟩
    · rw [readLine_sampled, if_pos ⟨hl, hdir⟩]
    · rw [readLine_sampled, if_neg hreleased]
    · rw [seqStep_cons env h]
      refine ⟨?_, ?_, rfl, ?_, ?_, ?_⟩
      · simp [perform]
      · simp [perform]
      · simp [perform]
      · rintro rfl; exact ⟨rfl, rfl⟩
      · rintro rfl; exact ⟨rfl, fun k hk => getLsbD_setBit s.r s.i _ hk⟩
  · intro l
    refine ⟨readLine env l.line s, fun hl hdir => ?_, fun hreleased => ?_, fun v h => ?_⟩
    · rw [readLine_waited, if_pos ⟨hl, hdir⟩]
    · rw [readLine_waited, if_neg hreleased]
    · rw [seqStep_wait env h, assignAll_nil]

/-! ### Waits (R118, R166) -/

/-- A wait's line reads what the bus answers unless it is SCL and the block drives it. -/
theorem readLine_waited_released (env : Oracle) {l : WaitedLine} {s : State} (h : l = .scl → s.dir .scl = .input) :
    readLine env l.line s = env l.line s.hist := by
  rw [readLine_waited, if_neg]
  rintro ⟨hl, hdir⟩
  simp [h hl] at hdir

/-- The state after `j` polls of a wait that did not read the awaited level `v`. -/
def State.afterPolls (s : State) (l : WaitedLine) (v : Bool) (j : Nat) : State :=
  { s with v := if j = 0 then s.v else !v, hist := s.hist ++ List.replicate j (.poll l.line (!v)) }

section
variable {env : Oracle} {s : State} {rest : List MicroStep} {l : WaitedLine} {v : Bool}

/-- A poll after `j` unanswered ones reads what the bus answers to that history. -/
theorem readLine_afterPolls (hdir : s.dir l.line = .input) (j : Nat) :
    readLine env l.line (s.afterPolls l v j) = env l.line (s.hist ++ List.replicate j (.poll l.line (!v))) :=
  readLine_waited_released env (by rintro rfl; exact hdir)

/-- While the bus answers otherwise, a wait only polls (R166). -/
theorem seqRun_unanswered (hpc : s.pc = ⟨[], .wait l v⟩ :: rest) (hdir : s.dir l.line = .input) (j : Nat)
    (hpolls : ∀ i < j, env l.line (s.hist ++ List.replicate i (.poll l.line (!v))) = !v) :
    seqRun env j s = s.afterPolls l v j := by
  induction j with
  | zero => simp [State.afterPolls]
  | succ j ih =>
    rw [seqRun_add, ih fun i hi => hpolls i (by omega), seqRun_succ, seqRun_zero,
      seqStep_wait env (s := s.afterPolls l v j) hpc, readLine_afterPolls hdir, hpolls j (by omega)]
    simp [State.afterPolls, List.replicate_succ']

end

/-- Settles O29: `k` polls that read otherwise, then the one that reads the awaited level. -/
theorem waitPollsUntilTheLevel : Obligations.WaitPollsUntilTheLevel := by
  unfold Obligations.WaitPollsUntilTheLevel
  intro env s rest l v k hpc hdir hpolls hlast
  have hrun : ∀ j ≤ k, seqRun env j s = s.afterPolls l v j := fun j hj =>
    seqRun_unanswered hpc hdir j fun i hi => hpolls i (by omega)
  refine ⟨fun j hj => ?_, ?_⟩
  · rw [hrun j hj]; exact ⟨rfl, rfl, rfl⟩
  · rw [seqRun_add, hrun k le_rfl, seqRun_succ, seqRun_zero, seqStep_wait env (s := s.afterPolls l v k) hpc,
      readLine_afterPolls hdir, hlast]
    simp [State.afterPolls]

/-! ### Waits that are never answered (R372) -/

/-- A step of a text that still holds a wait which never reads its level leaves that wait in it: the `μDONE`, which alone
ends a text, stands last. -/
theorem seqStep_unanswered {env : Oracle} {l : WaitedLine} {v : Bool} (hread : ∀ s, readLine env l.line s = !v)
    {c : Config} {spi : SpiCfg} {i : Instr} {s : State} (hpos : s.pc <:+ microprogram c spi i) (hbusy : s.busy = true)
    (hwait : ∃ m ∈ s.pc, m.op = .wait l v) :
    (seqStep env s).busy = true ∧ ∃ m ∈ (seqStep env s).pc, m.op = .wait l v := by
  obtain ⟨w, hw, hop⟩ := hwait
  cases hpc : s.pc with
  | nil => simp [hpc] at hw
  | cons m rest =>
    rw [hpc] at hpos hw
    rcases microprogram_position hpos with ⟨rfl, rfl⟩ | ⟨hallowed, _, _, _⟩
    · obtain rfl := List.mem_singleton.1 hw
      cases hop
    · have hdone := allowed_ne_done hallowed
      rw [seqStep_cons env hpc]
      refine ⟨by simpa [perform_busy env rest _ hdone] using hbusy, w, ?_, hop⟩
      rcases List.mem_cons.1 hw with rfl | hrest
      · rw [hop, perform_wait, if_neg (by simp [hread])]
        simp [hpc]
      · rcases perform_pc_cases env rest (assignAll m.pre s) hdone with he | he
        · rw [he]; exact hrest
        · rw [he, assignAll_pc, hpc]; exact hw

/-- A command with a wait that never reads its level runs for ever. -/
theorem unanswered_hangs {env : Oracle} {l : WaitedLine} {v : Bool} (hread : ∀ s, readLine env l.line s = !v)
    {c : Config} {spi : SpiCfg} {i : Instr} (hwait : ∃ m ∈ microprogram c spi i, m.op = .wait l v) (s : State) (n : Nat) :
    (seqRun env n (accept i (microprogram c spi i) s)).busy = true := by
  refine (seqRun_induction (P := fun u => u.pc <:+ microprogram c spi i ∧ u.busy = true ∧ ∃ m ∈ u.pc, m.op = .wait l v)
    (fun u ⟨hpos, hbusy, hw⟩ => ?_) n (s := accept i _ s) ⟨List.suffix_rfl, rfl, hwait⟩).2.1
  exact ⟨(seqStep_pc_suffix env u).trans hpos, seqStep_unanswered hread hpos hbusy hw⟩

/-- `PULSE` waits for SCL to read 1 (R155). -/
theorem pulseText_waits : plain (.wait .scl true) ∈ pulseText := by simp [pulseText]

/-- Both forms of `STARTDETECT` end with the wait for the start bit (R253). -/
theorem uartRead_waits (c : Config) (spi : SpiCfg) : ∃ m ∈ microprogram c spi .uartRead, m.op = .wait .rx false := by
  cases hd : c.uartStartDetect <;> simp [microprogram, uartReadText, startDetectText, before, hd]

/-- Settles O30: the acknowledge slot's pulse, and the wait for the start bit, never end. -/
theorem unansweredWaitsHang : Obligations.UnansweredWaitsHang := by
  unfold Obligations.UnansweredWaitsHang
  intro i s t env hfree h hb hcase n
  obtain rfl := exec_accepted hfree h hb
  rcases hcase with ⟨hi, hscl⟩ | ⟨rfl, hrx⟩
  · refine unanswered_hangs (l := .scl) (v := true) (fun s => by simp [WaitedLine.line, readLine, hscl]) ?_ s n
    refine ⟨_, ?_, plain_op _⟩
    rcases hi with ⟨b, rfl⟩ | ⟨ack, rfl⟩
    · simp [microprogram, i2cWriteText, pulseText_waits]
    · simp [microprogram, i2cReadText, pulseText_waits]
  · exact unanswered_hangs (l := .rx) (fun s => by simp [WaitedLine.line, hrx]) (uartRead_waits _ _) s n

/-! ### The end of a command on a bus that answers (R111, R372) -/

/-- Each wait of the text is on RX, or is for SCL to read 1 and stands right after SCL's release. -/
inductive WaitsReleased : List MicroStep → Prop where
  | nil : WaitsReleased []
  | cons {m : MicroStep} {rest : List MicroStep} (hm : ∀ v, m.op ≠ .wait .scl v) (h : WaitsReleased rest) :
      WaitsReleased (m :: rest)
  | pulse {pre pre' : List Assign} {rest : List MicroStep} (h : WaitsReleased rest) :
      WaitsReleased (⟨pre, .input .scl⟩ :: ⟨pre', .wait .scl true⟩ :: rest)

theorem WaitsReleased.of_no_clock_wait {text : List MicroStep} (h : ∀ m ∈ text, ∀ v, m.op ≠ .wait .scl v) :
    WaitsReleased text := by
  induction text with
  | nil => exact .nil
  | cons m rest ih => exact .cons (h m List.mem_cons_self) (ih fun m' hm' => h m' (List.mem_cons_of_mem _ hm'))

theorem WaitsReleased.append {x y : List MicroStep} (hx : WaitsReleased x) (hy : WaitsReleased y) :
    WaitsReleased (x ++ y) := by
  induction hx with
  | nil => exact hy
  | cons hm _ ih => exact .cons hm ih
  | pulse _ ih => exact .pulse ih

theorem WaitsReleased.before {text : List MicroStep} (h : WaitsReleased text) (as : List Assign) :
    WaitsReleased (before as text) := by
  cases h with
  | nil => exact .nil
  | cons hm h => exact .cons hm h
  | pulse h => exact .pulse h

theorem WaitsReleased.forBits {body : Nat → List MicroStep} (h : ∀ k, WaitsReleased (body k)) (indexes : List Nat) :
    WaitsReleased (forBits indexes body) := by
  induction indexes with
  | nil => exact .nil
  | cons k rest ih => exact ((h k).before _).append ih

/-- Outside the I2C unit there is no wait on SCL: a command's micro-operations are on lines of its unit. -/
theorem no_clock_wait_of_unit {i : Instr} (hu : unitOf i ≠ .i2c) (c : Config) (spi : SpiCfg) :
    ∀ m ∈ microprogram c spi i, ∀ v, m.op ≠ .wait .scl v := by
  obtain ⟨body, hbody, hok⟩ := microprogram_shape c spi i
  rw [hbody]
  intro m hm v hop
  rcases List.mem_append.1 hm with hm | hm
  · have hallowed := (hok m hm).1
    rw [hop] at hallowed
    exact hu hallowed.symm
  · obtain rfl := List.mem_singleton.1 hm
    cases hop

theorem pulseText_released : WaitsReleased pulseText := .pulse (.of_no_clock_wait (by simp))

theorem i2cWriteBit_released (b : Byte) (k : Nat) : WaitsReleased (i2cWriteBit b k) := by
  unfold i2cWriteBit setSda
  refine .cons (by simp) (.cons (by simp) (.cons ?_ (.pulse (.of_no_clock_wait (by simp)))))
  split <;> simp

theorem i2cReadBit_released (k : Nat) : WaitsReleased (i2cReadBit k) :=
  .cons (by simp) (.cons (by simp) (.pulse (.of_no_clock_wait (by simp))))

theorem microprogram_released (c : Config) (spi : SpiCfg) (i : Instr) : WaitsReleased (microprogram c spi i) := by
  cases i with
  | i2cInit => exact .of_no_clock_wait (by simp [microprogram, i2cInitText])
  | i2cStart => exact .of_no_clock_wait (by simp [microprogram, i2cStartText])
  | i2cStop => exact .of_no_clock_wait (by simp [microprogram, i2cStopText])
  | i2cRestart => exact .of_no_clock_wait (by simp [microprogram, i2cRestartText])
  | i2cWrite b =>
    refine (((WaitsReleased.forBits (i2cWriteBit_released b) _).append ?_).append pulseText_released).append ?_
    · exact .of_no_clock_wait (by simp)
    · exact .of_no_clock_wait (by simp)
  | i2cRead ack =>
    refine ((((WaitsReleased.forBits i2cReadBit_released _).before _).append ?_).append pulseText_released).append ?_
    · exact .of_no_clock_wait (by cases ack <;> simp [setSda])
    · exact .of_no_clock_wait (by simp)
  | _ => exact .of_no_clock_wait (no_clock_wait_of_unit (by simp [unitOf]) c spi)

/-- The sequencer comes to the end of its text. -/
def State.ComesToEnd (s : State) (env : Oracle) : Prop := ∃ n, (seqRun env n s).pc = []

theorem State.ComesToEnd.of_seqRun {s : State} {env : Oracle} (n : Nat) (h : (seqRun env n s).ComesToEnd env) :
    s.ComesToEnd env := by
  obtain ⟨k, hk⟩ := h
  exact ⟨n + k, by rw [seqRun_add, hk]⟩

/-- A wait that the bus answers after `k` polls ends. -/
theorem seqRun_wait_ends {env : Oracle} {s : State} {pre : List Assign} {l : WaitedLine} {v : Bool}
    {rest : List MicroStep} (hpc : s.pc = ⟨pre, .wait l v⟩ :: rest) (hdir : l = .scl → s.dir .scl = .input) (k : Nat)
    (hk : env l.line (s.hist ++ List.replicate k (.poll l.line (!v))) = v) : ∃ n, (seqRun env n s).pc = rest := by
  have hread := readLine_waited_released env hdir
  have hstep := seqStep_wait env hpc
  induction k generalizing s with
  | zero =>
    refine ⟨1, ?_⟩
    rw [seqRun_succ, seqRun_zero, hstep, if_pos]
    simpa [hread] using hk
  | succ k ih =>
    by_cases hv : readLine env l.line s = v
    · exact ⟨1, by rw [seqRun_succ, seqRun_zero, hstep, if_pos hv]⟩
    · have hu : readLine env l.line s = !v := Bool.eq_not.2 hv
      have hpins : (seqStep env s).pins = s.pins := by simp [hstep]
      have hhist : (seqStep env s).hist = s.hist ++ [.poll l.line (!v)] := by rw [hstep, hu]
      have hpc' : (seqStep env s).pc = ⟨pre, .wait l v⟩ :: rest := by rw [hstep, if_neg hv, hpc]
      have hdir' : l = .scl → (seqStep env s).dir .scl = .input := by simpa [State.dir, hpins] using hdir
      obtain ⟨n, hn⟩ := ih hpc' hdir' (by simpa [hhist, List.replicate_succ] using hk)
        (readLine_waited_released env hdir') (seqStep_wait env hpc')
      exact ⟨n + 1, hn⟩

/-- A micro-operation that is no wait moves `pc` on, or ends the text. -/
theorem perform_pc_of_no_wait (env : Oracle) {op : MicroOp} (h : ∀ l v, op ≠ .wait l v) (rest : List MicroStep)
    (s : State) : (perform env op rest s).pc = rest ∨ (perform env op rest s).pc = [] := by
  cases op with
  | wait l v => exact absurd rfl (h l v)
  | done us => exact .inr rfl
  | _ => exact .inl rfl

/-- On a bus that answers on RX, a micro-operation that is no wait on SCL is passed, or is the text's end. -/
theorem seqRun_passes {env : Oracle} (hlow : Responsive env .rx false) (hhigh : Responsive env .rx true) {s : State}
    {m : MicroStep} {rest : List MicroStep} (hpc : s.pc = m :: rest) (hm : ∀ v, m.op ≠ .wait .scl v) :
    ∃ n, (seqRun env n s).pc = rest ∨ (seqRun env n s).pc = [] := by
  obtain ⟨pre, op⟩ := m
  by_cases hwait : ∃ l v, op = .wait l v
  · obtain ⟨l, v, rfl⟩ := hwait
    cases l with
    | scl => exact absurd rfl (hm v)
    | rx =>
      have hresponsive : Responsive env .rx v := by cases v <;> assumption
      obtain ⟨k, hk⟩ := hresponsive s.hist
      obtain ⟨n, hn⟩ := seqRun_wait_ends hpc (by simp) k hk
      exact ⟨n, .inl hn⟩
  · refine ⟨1, ?_⟩
    rw [seqRun_succ, seqRun_zero, seqStep_cons env hpc]
    exact perform_pc_of_no_wait env (fun l v hop => hwait ⟨l, v, hop⟩) rest _

/-- A text whose waits find their lines released ends on a bus that answers each wait. -/
theorem WaitsReleased.comesToEnd {env : Oracle} (hscl : Responsive env .scl true) (hlow : Responsive env .rx false)
    (hhigh : Responsive env .rx true) {text : List MicroStep} (h : WaitsReleased text) {s : State} (hpc : s.pc = text) :
    s.ComesToEnd env := by
  induction h generalizing s with
  | nil => exact ⟨0, hpc⟩
  | cons hm _ ih =>
    obtain ⟨n, hn | hn⟩ := seqRun_passes hlow hhigh hpc hm
    · exact .of_seqRun n (ih hn)
    · exact ⟨n, hn⟩
  | pulse _ ih =>
    have hstep := seqStep_cons env hpc
    obtain ⟨k, hk⟩ := hscl (seqStep env s).hist
    obtain ⟨n, hn⟩ := seqRun_wait_ends (env := env) (s := seqStep env s) (l := .scl) (by rw [hstep]; rfl)
      (fun _ => by simp [hstep, perform, State.dir]) k hk
    exact .of_seqRun 1 (.of_seqRun n (ih hn))

/-- A command that is running after it was issued to a free block is at a position of its microprogram (R31, R112). -/
theorem exec_runLegal {i : Instr} {s t : State} (hfree : s.free) (h : exec i s = .next t) (hb : t.busy = true) :
    t.RunLegal := by
  rcases exec_cases i s with ⟨c, _, he⟩ | ⟨hw, _, _, hi, he⟩ <;> rw [he] at h <;> cases h
  · rw [raiseFault_busy, hfree.2] at hb; cases hb
  · exact (State.runLegal_iff _).2
      (.inr ⟨microprogram_ne_nil _ _ _, i, rfl, rfl, hw, List.suffix_rfl, by simpa using hi⟩)

/-- Settles O31: the text ends, and with `pc` at NONE no command runs. -/
theorem commandsEndOnAResponsiveBus : Obligations.CommandsEndOnAResponsiveBus := by
  unfold Obligations.CommandsEndOnAResponsiveBus
  intro i s t env hfree h hb hscl hlow hhigh
  have hlegal := exec_runLegal hfree h hb
  obtain rfl := exec_accepted hfree h hb
  obtain ⟨n, hn⟩ := (microprogram_released s.cfg s.spi i).comesToEnd hscl hlow hhigh (accept_pc i _ s)
  have hrun : (seqRun env n (accept i (microprogram s.cfg s.spi i) s)).RunLegal :=
    seqRun_induction (P := State.RunLegal) (fun _ => seqStep_keeps_runLegal env) n hlegal
  have hidle := ((State.runLegal_iff _).1 hrun).resolve_right fun hr => hr.1 hn
  exact ⟨n, hidle.busy, hn⟩

end Sys2Proof.Machine
end

section
/-! PROOFS. The statements of spec/41_i2c.md: what each I2C command does from its acceptance to its end (R151 to R157),
the conditions on the wire (R158 to R160) and the loopback (R165); and `I2C.READ` with SDA driven (R370). -/

namespace Sys2Proof.Machine

/-! ### A property of each event of a piece of history -/

/-- `q` holds of each event of a piece of history, at the pin state and the history before that event. -/
def EachEvent (q : Pins → List Event → Event → Prop) : Pins → List Event → List Event → Prop
  | _, _, [] => True
  | p, h, e :: rest => q p h e ∧ EachEvent q (pinsAfter p e) (h ++ [e]) rest

section
variable {q : Pins → List Event → Event → Prop}

theorem eachEvent_append {p : Pins} {h x y : List Event} :
    EachEvent q p h (x ++ y) ↔ EachEvent q p h x ∧ EachEvent q (x.foldl pinsAfter p) (h ++ x) y := by
  induction x generalizing p h with
  | nil => simp [EachEvent]
  | cons e rest ih => simp [EachEvent, ih, and_assoc]

/-- The events of a loop each have a property, if some `inv` of the pin state gives it in each turn and is kept. -/
theorem eachEvent_flatMap {inv : Pins → Prop} {turn : Nat → List Event}
    (hturn : ∀ k p h, inv p → EachEvent q p h (turn k) ∧ inv ((turn k).foldl pinsAfter p)) {p : Pins} (hp : inv p)
    (h : List Event) (l : List Nat) :
    EachEvent q p h (l.flatMap turn) ∧ inv ((l.flatMap turn).foldl pinsAfter p) := by
  induction l generalizing p h with
  | nil => exact ⟨trivial, hp⟩
  | cons k rest ih =>
    obtain ⟨hk, hinv⟩ := hturn k p h hp
    obtain ⟨hrest, hend⟩ := ih hinv (h ++ turn k)
    exact ⟨eachEvent_append.2 ⟨hk, hrest⟩, by simpa using hend⟩

/-- Bits can be found that give the events of a loop a property, if one can be found in each turn. -/
theorem exists_bits_eachEvent {turn : Bool → List Event} (hturn : ∀ p h, ∃ u, EachEvent q p h (turn u))
    {l : List Nat} (hl : l.Nodup) (p : Pins) (h : List Event) :
    ∃ f : Nat → Bool, EachEvent q p h (l.flatMap fun k => turn (f k)) := by
  induction l generalizing p h with
  | nil => exact ⟨fun _ => false, trivial⟩
  | cons k rest ih =>
    obtain ⟨hk, hrest⟩ := List.nodup_cons.1 hl
    obtain ⟨u, hu⟩ := hturn p h
    obtain ⟨f, hf⟩ := ih hrest ((turn u).foldl pinsAfter p) (h ++ turn u)
    refine ⟨Function.update f k u, ?_⟩
    have hsame : ∀ j ∈ rest, turn (Function.update f k u j) = turn (f j) := fun j hj => by
      rw [Function.update_of_ne (ne_of_mem_of_not_mem hj hk)]
    rw [List.flatMap_cons, Function.update_self, List.flatMap_congr hsame]
    exact eachEvent_append.2 ⟨hu, hf⟩

end

/-! ### What a line reads, by the pin state and the history (R121) -/

/-- What `ReadLine(l)` answers at a pin state and a history. -/
def lineLevel (env : Oracle) (p : Pins) (h : List Event) (l : Line) : Bool :=
  match l with
  | .scl | .sda => if (p.get l).dir = .output then false else env l h
  | .sck | .mosi | .miso | .tx | .rx => env l h

theorem readLine_eq_lineLevel (env : Oracle) (l : Line) (s : State) :
    readLine env l s = lineLevel env s.pins s.hist l := by
  cases l <;> rfl

theorem lineLevel_of_released (env : Oracle) {p : Pins} (h : List Event) {l : Line} (hl : (p.get l).dir = .input) :
    lineLevel env p h l = env l h := by
  cases l <;> simp [lineLevel, hl]

/-- A read has the value that its line reads at that point. -/
def ReadsLine (env : Oracle) (p : Pins) (h : List Event) : Event → Prop
  | .poll l v | .sample l v => lineLevel env p h l = v
  | .dirIn _ | .low _ | .drive _ _ | .delay _ => True

/-- A read has the value that the bus answers at that point (R121). -/
def ReadsBus (env : Oracle) (_p : Pins) (h : List Event) : Event → Prop
  | .poll l v | .sample l v => env l h = v
  | .dirIn _ | .low _ | .drive _ _ | .delay _ => True

/-- A line is read only while the block does not drive it. -/
def ReadsReleased (p : Pins) (_h : List Event) : Event → Prop
  | .poll l _ | .sample l _ => (p.get l).dir = .input
  | .dirIn _ | .low _ | .drive _ _ | .delay _ => True

theorem readsLine_of_released {env : Oracle} {p : Pins} {h : List Event} {e : Event} (hr : ReadsReleased p h e)
    (hb : ReadsBus env p h e) : ReadsLine env p h e := by
  cases e with
  | poll l v | sample l v => exact (lineLevel_of_released env h hr).trans hb
  | dirIn l | low l | drive l v | delay c => trivial

theorem readsBus_iff {env : Oracle} {p : Pins} {h : List Event} {e : Event} :
    ReadsBus env p h e ↔ ∀ l v, e = .poll l v ∨ e = .sample l v → env l h = v := by
  cases e <;> simp [ReadsBus]

theorem agrees_cons {env : Oracle} {h : List Event} {e : Event} {rest : List Event} (p : Pins) :
    Agrees env h (e :: rest) ↔ ReadsBus env p h e ∧ Agrees env (h ++ [e]) rest := by
  rw [readsBus_iff]
  constructor
  · intro ha
    exact ⟨fun l v he => by simpa using ha 0 l v (by simpa using he),
      fun k l v hk => by simpa using ha (k + 1) l v (by simpa using hk)⟩
  · rintro ⟨he, ha⟩ k l v hk
    cases k with
    | zero => simpa using he l v (by simpa using hk)
    | succ k => simpa using ha k l v (by simpa using hk)

theorem agrees_iff {env : Oracle} {h events : List Event} (p : Pins) :
    Agrees env h events ↔ EachEvent (ReadsBus env) p h events := by
  induction events generalizing p h with
  | nil => simp [EachEvent, Agrees]
  | cons e rest ih => rw [agrees_cons p, EachEvent, ih]

/-- Reads of released lines that are the bus's answers are what the lines read. -/
theorem eachEvent_readsLine {env : Oracle} {p : Pins} {h events : List Event}
    (hr : EachEvent ReadsReleased p h events) (ha : Agrees env h events) : EachEvent (ReadsLine env) p h events := by
  rw [agrees_iff p] at ha
  induction events generalizing p h with
  | nil => trivial
  | cons e rest ih => exact ⟨readsLine_of_released hr.1 ha.1, ih hr.2 ha.2⟩

/-! ### The events of a text -/

/-- The step's micro-operation emits the event; a wait, when it is answered at that poll (R114 to R119). -/
inductive Emits : MicroStep → Event → Prop where
  | input {pre : List Assign} (l : Line) : Emits ⟨pre, .input l⟩ (.dirIn l)
  | low {pre : List Assign} (l : OpenDrainLine) : Emits ⟨pre, .low l⟩ (.low l.line)
  | out {pre : List Assign} (l : PushPullLine) (v : Bool) : Emits ⟨pre, .out l v⟩ (.drive l.line v)
  | sample {pre : List Assign} (l : SampledLine) (dest : SampleDest) (u : Bool) :
      Emits ⟨pre, .sample l dest⟩ (.sample l.line u)
  | wait {pre : List Assign} (l : WaitedLine) (v : Bool) : Emits ⟨pre, .wait l v⟩ (.poll l.line v)
  | delay {pre : List Assign} (c : DelayClass) : Emits ⟨pre, .delay c⟩ (.delay c)

/-- The registers that the sequencer works with (R32). -/
structure Regs where
  i : Nat
  r : Half
  a : Bool
  v : Bool

/-- The state's values of these registers. -/
def State.regs (s : State) : Regs := { i := s.i, r := s.r, a := s.a, v := s.v }

/-- `assign`, on these registers. -/
def Regs.assign (q : Regs) : Assign → Regs
  | .setIndex n => { q with i := n }
  | .clearShift => { q with r := 0 }

/-- The value read, kept where the micro-operation that read it says. -/
def Regs.keep (q : Regs) : MicroOp → Event → Regs
  | .sample _ .ackBit, .sample _ u => { q with a := u, v := u }
  | .sample _ .shiftBit, .sample _ u => { q with r := setBit q.r q.i u, v := u }
  | .wait _ _, .poll _ u => { q with v := u }
  | _, _ => q

/-- The registers after a text that emitted the events. -/
def Regs.after (q : Regs) : List MicroStep → List Event → Regs
  | m :: text, e :: events => ((m.pre.foldl Regs.assign q).keep m.op e).after text events
  | _, _ => q

/-- The state with these registers. -/
def State.withRegs (s : State) (q : Regs) : State := { s with i := q.i, r := q.r, a := q.a, v := q.v }

theorem assignAll_eq_withRegs (as : List Assign) (s : State) :
    assignAll as s = s.withRegs (as.foldl Regs.assign s.regs) := by
  induction as generalizing s with
  | nil => rfl
  | cons x rest ih =>
    rw [assignAll_cons, ih]
    cases x <;> rfl

/-- The state after a text that emitted the events, with `rest` still to run. -/
def State.afterText (s : State) (text : List MicroStep) (events : List Event) (rest : List MicroStep) : State :=
  { s.withRegs (s.regs.after text events) with
    pc := rest, pins := events.foldl pinsAfter s.pins, hist := s.hist ++ events }

/-- A step that emits an event, its line reading as the event says, leaves what the event says and moves `pc`. -/
theorem seqStep_emits {env : Oracle} {s : State} {m : MicroStep} {e : Event} {rest : List MicroStep}
    (hpc : s.pc = m :: rest) (he : Emits m e) (hread : ReadsLine env s.pins s.hist e) :
    seqStep env s = s.afterText [m] [e] rest := by
  have hline : ∀ (l : Line) q, readLine env l (s.withRegs q) = lineLevel env s.pins s.hist l := fun l q =>
    readLine_eq_lineLevel env l (s.withRegs q)
  rw [seqStep_cons env hpc, assignAll_eq_withRegs]
  cases he with
  | input l => rfl
  | low l => rfl
  | out l v => rfl
  | sample l dest u =>
    have hu : lineLevel env s.pins s.hist l.line = u := hread
    cases dest <;> simp only [perform, microSample, hline, hu] <;> rfl
  | wait l v =>
    have hv : lineLevel env s.pins s.hist l.line = v := hread
    simp only [perform, hline, hv, if_true]
    rfl
  | delay c => rfl

theorem afterText_cons (s : State) (m : MicroStep) (text : List MicroStep) (e : Event) (events : List Event)
    (rest : List MicroStep) :
    (s.afterText [m] [e] (text ++ rest)).afterText text events rest = s.afterText (m :: text) (e :: events) rest := by
  simp only [State.afterText, List.append_assoc]
  rfl

/-- A text whose reads find what the events say runs through, one step for each event. -/
theorem seqRun_emits {env : Oracle} {text : List MicroStep} {events : List Event} (h : List.Forall₂ Emits text events)
    {s : State} {rest : List MicroStep} (hpc : s.pc = text ++ rest)
    (hread : EachEvent (ReadsLine env) s.pins s.hist events) :
    seqRun env text.length s = s.afterText text events rest := by
  induction h generalizing s with
  | nil =>
    obtain rfl : s.pc = rest := hpc
    simp [State.afterText, State.withRegs, Regs.after, State.regs]
  | cons he _ ih =>
    obtain ⟨hfirst, hmore⟩ := hread
    rw [List.length_cons, seqRun_succ, seqStep_emits hpc he hfirst, ih rfl hmore]
    exact afterText_cons ..

/-- An accepted command whose text emits the events ends with its `μDONE`. -/
theorem finishedAs_accept {env : Oracle} {s : State} {i : Instr} {text body : List MicroStep} {events : List Event}
    {us : List DoneUpdate} {n : Nat} {w : View} (h : List.Forall₂ Emits body events)
    (htext : text = body ++ [plain (.done us)]) (hn : n = body.length + 1)
    (hread : EachEvent (ReadsLine env) s.pins s.hist events)
    (hw : (microDone us ((accept i text s).afterText body events [plain (.done us)])).view = w) :
    (seqRun env n (accept i text s)).finishedAs w := by
  have hrun : seqRun env n (accept i text s) =
      microDone us ((accept i text s).afterText body events [plain (.done us)]) := by
    rw [hn, seqRun_add, seqRun_emits (s := accept i text s) h htext hread]
    rfl
  rw [hrun]
  exact ⟨rfl, rfl, hw⟩

section
variable {s : State} {w : View} (h : s.finishedAs w)
include h

theorem State.finishedAs.value : s.value = w.value := congrArg View.value h.2.2

theorem State.finishedAs.busy : s.busy = w.busy := congrArg View.busy h.2.2

theorem State.finishedAs.ack : s.ack = w.ack := congrArg View.ack h.2.2

theorem State.finishedAs.hist : s.hist = w.hist := congrArg View.hist h.2.2

end

/-- With no command running, `BUSY` is 0 in what a claim observes. -/
theorem view_of_free {s : State} (h : s.free) : s.view = { s.view with busy := false } := by
  rw [State.view, h.2]

/-- A command whose `μDONE` updates nothing changes the pin state and the history alone. -/
theorem finishedAs_accept_pins {env : Oracle} {s : State} {i : Instr} {text body : List MicroStep}
    {events : List Event} {n : Nat} (hfree : s.free) (h : List.Forall₂ Emits body events)
    (htext : text = body ++ [plain (.done [])]) (hn : n = body.length + 1)
    (hread : EachEvent (ReadsLine env) s.pins s.hist events) :
    (seqRun env n (accept i text s)).finishedAs
      { s.view with pins := events.foldl pinsAfter s.pins, hist := s.hist ++ events } := by
  refine finishedAs_accept h htext hn hread ?_
  rw [view_of_free hfree]
  rfl

/-! ### `I2C.INIT`, `I2C.START`, `I2C.STOP` and `I2C.RESTART` (R151 to R154) -/

/-- A command of the I2C unit is accepted in a state that is ready for it. -/
theorem exec_i2c_accepts {i : Instr} {s : State} (hw : wellFormed s.cfg.spiWidth i = true) (hu : unitOf i = .i2c)
    (h : s.ready .i2c) : exec i s = .next (accept i (microprogram s.cfg s.spi i) s) := by
  obtain ⟨⟨hf, hb⟩, hinit⟩ := h
  exact exec_accepts hw hf hb (.inr (hu ▸ hinit))

/-! The text of each of the four, but for its `μDONE`, emits the events of its rule. -/

theorem i2cInit_emits : List.Forall₂ Emits i2cInitText.dropLast [.dirIn .scl, .dirIn .sda] := by repeat constructor
theorem start_emits : List.Forall₂ Emits i2cStartText.dropLast startEvents := by repeat constructor
theorem stop_emits : List.Forall₂ Emits i2cStopText.dropLast stopEvents := by repeat constructor
theorem restart_emits : List.Forall₂ Emits i2cRestartText.dropLast restartEvents := by repeat constructor

/-- Settles O20: the text emits the two releases, and the `μDONE` sets the flag. -/
theorem i2cInitReleasesBothLines : Obligations.I2cInitReleasesBothLines := by
  unfold Obligations.I2cInitReleasesBothLines
  intro s hfree
  refine ⟨_, exec_accepts rfl hfree.1 hfree.2 (.inl rfl), fun env => ?_⟩
  refine finishedAs_accept i2cInit_emits (us := [.init .i2c]) rfl rfl ⟨trivial, trivial, trivial⟩ ?_
  rw [view_of_free hfree]
  rfl

/-- Settles O21: each text emits the events of its rule and reads no line. -/
theorem i2cConditionCommandsComplete : Obligations.I2cConditionCommandsComplete := by
  unfold Obligations.I2cConditionCommandsComplete
  intro s hready
  refine ⟨⟨_, exec_i2c_accepts rfl rfl hready, fun env => ?_⟩, ⟨_, exec_i2c_accepts rfl rfl hready, fun env => ?_⟩,
    ⟨_, exec_i2c_accepts rfl rfl hready, fun env => ?_⟩⟩
  · exact finishedAs_accept_pins hready.1 start_emits rfl rfl (by simp [EachEvent, ReadsLine, startEvents])
  · exact finishedAs_accept_pins hready.1 stop_emits rfl rfl (by simp [EachEvent, ReadsLine, stopEvents])
  · exact finishedAs_accept_pins hready.1 restart_emits rfl rfl (by simp [EachEvent, ReadsLine, restartEvents])

/-- Settles O28, by the events of the three complete runs. -/
theorem conditionCommandsMakeTheirCondition : Obligations.ConditionCommandsMakeTheirCondition := by
  unfold Obligations.ConditionCommandsMakeTheirCondition
  intro s hready
  obtain ⟨⟨t, ht, hstart⟩, ⟨t', ht', hstop⟩, ⟨t'', ht'', hrestart⟩⟩ := i2cConditionCommandsComplete s hready
  have hb : s.view.busy = false := hready.1.2
  exact ⟨⟨t, ht, fun env => ⟨startEvents, (hstart env).busy.trans hb, (hstart env).hist, rfl⟩⟩,
    ⟨t'', ht'', fun env => ⟨restartEvents, (hrestart env).busy.trans hb, (hrestart env).hist, rfl⟩⟩,
    ⟨t', ht', fun env => ⟨stopEvents, (hstop env).busy.trans hb, (hstop env).hist, rfl⟩⟩⟩

/-! ### The texts of `I2C.WRITE` and `I2C.READ` and their events (R155 to R157) -/

theorem emits_before {as : List Assign} {text : List MicroStep} {events : List Event}
    (h : List.Forall₂ Emits text events) : List.Forall₂ Emits (before as text) events := by
  cases h with
  | nil => exact .nil
  | cons he hrest => exact .cons (by cases he <;> constructor) hrest

theorem emits_forBits {body : Nat → List MicroStep} {turn : Nat → List Event}
    (h : ∀ k, List.Forall₂ Emits (body k) (turn k)) (l : List Nat) :
    List.Forall₂ Emits (forBits l body) (l.flatMap turn) := by
  induction l with
  | nil => exact .nil
  | cons k rest ih => exact List.rel_append (emits_before (h k)) ih

theorem emits_setSda (u : Bool) : Emits (setSda u) (if u then .dirIn .sda else .low .sda) := by
  cases u <;> constructor

/-- The events of one data bit of `I2C.WRITE`, the bit being `u`. -/
def writeBitEvents (u : Bool) : List Event :=
  [.low .scl, .delay .i2c, if u then .dirIn .sda else .low .sda, .dirIn .scl, .poll .scl true, .delay .i2c]

/-- The events of the acknowledge slot of `I2C.WRITE`, the sample reading `a`. -/
def writeSlotEvents (a : Bool) : List Event :=
  [.low .scl, .dirIn .sda, .sample .sda a, .dirIn .scl, .poll .scl true, .delay .i2c, .low .scl]

theorem i2cWriteEvents_eq (b : Byte) (a : Bool) :
    i2cWriteEvents b a = ((downFrom 8).flatMap fun k => writeBitEvents (b.getLsbD k)) ++ writeSlotEvents a := rfl

/-- The events of one data bit of `I2C.READ`, the sample reading `u`. -/
def readBitEvents (u : Bool) : List Event :=
  [.low .scl, .delay .i2c, .dirIn .scl, .poll .scl true, .delay .i2c, .sample .sda u]

/-- The events of the acknowledge slot of `I2C.READ`. -/
def readSlotEvents (ack : Bool) : List Event :=
  [.low .scl, if ack then .low .sda else .dirIn .sda, .delay .i2c, .dirIn .scl, .poll .scl true, .delay .i2c,
    .low .scl, .dirIn .sda]

theorem i2cReadEvents_eq (ack : Bool) (x : Byte) :
    i2cReadEvents ack x = ((downFrom 8).flatMap fun k => readBitEvents (x.getLsbD k)) ++ readSlotEvents ack := rfl

/-- `I2C.WRITE` but for its `μDONE`: the data bits, and the acknowledge slot. -/
def writeBody (b : Byte) : List MicroStep :=
  forBits (downFrom 8) (i2cWriteBit b) ++
    ([plain (.low .scl), plain (.input .sda), plain (.sample .sda .ackBit)] ++ pulseText)

theorem i2cWriteText_eq (b : Byte) :
    i2cWriteText b = writeBody b ++ [plain (.done [.result .ackReceived, .ack])] := by
  simp [i2cWriteText, writeBody]

theorem writeBits_emit (b : Byte) (l : List Nat) :
    List.Forall₂ Emits (forBits l (i2cWriteBit b)) (l.flatMap fun k => writeBitEvents (b.getLsbD k)) :=
  emits_forBits (fun _ => .cons (.low _) (.cons (.delay _) (.cons (emits_setSda _) (by repeat constructor)))) l

theorem writeBody_emits (b : Byte) (a : Bool) : List.Forall₂ Emits (writeBody b) (i2cWriteEvents b a) :=
  List.rel_append (writeBits_emit b _) (by repeat constructor)

/-- `I2C.READ` but for its `μDONE`: the data bits, and the acknowledge slot. -/
def readBody (ack : Bool) : List MicroStep :=
  before [.clearShift] (forBits (downFrom 8) i2cReadBit) ++
    ([plain (.low .scl), setSda (!ack), plain (.delay .i2c)] ++ pulseText ++ [plain (.input .sda)])

theorem i2cReadText_eq (ack : Bool) : i2cReadText ack = readBody ack ++ [plain (.done [.result (.shiftLow 8)])] := by
  simp [i2cReadText, readBody]

theorem readBody_emits (ack : Bool) (x : Byte) : List.Forall₂ Emits (readBody ack) (i2cReadEvents ack x) := by
  refine List.rel_append (emits_before (emits_forBits (fun k => by repeat constructor) _)) ?_
  cases ack <;> repeat constructor

/-! ### What the two byte commands read -/

theorem writeBitEvents_read_released (p : Pins) (h : List Event) (u : Bool) :
    EachEvent ReadsReleased p h (writeBitEvents u) := by
  cases u <;> simp [EachEvent, ReadsReleased, writeBitEvents, pinsAfter, Pins.set, Pins.get]

theorem i2cWriteEvents_read_released (p : Pins) (h : List Event) (b : Byte) (a : Bool) :
    EachEvent ReadsReleased p h (i2cWriteEvents b a) := by
  rw [i2cWriteEvents_eq, eachEvent_append]
  refine ⟨(eachEvent_flatMap (inv := fun _ => True) (fun k p h _ => ⟨writeBitEvents_read_released p h _, trivial⟩)
    trivial h _).1, ?_⟩
  simp [EachEvent, ReadsReleased, writeSlotEvents, pinsAfter, Pins.set, Pins.get]

theorem i2cReadEvents_read_released {p : Pins} (hp : p.sda.dir = .input) (h : List Event) (ack : Bool) (x : Byte) :
    EachEvent ReadsReleased p h (i2cReadEvents ack x) := by
  rw [i2cReadEvents_eq, eachEvent_append]
  refine ⟨(eachEvent_flatMap (inv := fun p => p.sda.dir = .input)
    (turn := fun k => readBitEvents (x.getLsbD k)) (fun k p h hp => ⟨?_, hp⟩) hp h _).1, ?_⟩
  · simp [EachEvent, ReadsReleased, readBitEvents, pinsAfter, Pins.set, Pins.get, hp]
  · cases ack <;> simp [EachEvent, ReadsReleased, readSlotEvents, pinsAfter, Pins.set, Pins.get]

/-- With SDA driven low, the samples of an `I2C.READ` read 0 (R121, R370). -/
theorem i2cReadEvents_read_driven {env : Oracle} (hscl : ∀ h, env .scl h = true) {p : Pins}
    (hp : p.sda.dir = .output) (h : List Event) (ack : Bool) :
    EachEvent (ReadsLine env) p h (i2cReadEvents ack 0) := by
  rw [i2cReadEvents_eq, eachEvent_append]
  refine ⟨(eachEvent_flatMap (inv := fun p => p.sda.dir = .output)
    (turn := fun k => readBitEvents ((0 : Byte).getLsbD k)) (fun k p h hp => ⟨?_, hp⟩) hp h _).1, ?_⟩
  · simp [EachEvent, ReadsLine, lineLevel, readBitEvents, pinsAfter, Pins.set, Pins.get, hp, hscl]
  · cases ack <;> simp [EachEvent, ReadsLine, lineLevel, readSlotEvents, pinsAfter, Pins.set, Pins.get, hscl]

/-- A byte with the given bits. -/
theorem exists_byte (f : Nat → Bool) : ∃ x : Byte, ∀ k < 8, x.getLsbD k = f k :=
  ⟨BitVec.ofFnLE fun k => f k, fun k hk => by simp [hk]⟩

section
variable {env : Oracle} (hscl : ∀ h, env .scl h = true) (p : Pins) (h : List Event)
include hscl

theorem writeBitEvents_readsBus (u : Bool) : EachEvent (ReadsBus env) p h (writeBitEvents u) := by
  cases u <;> simp [EachEvent, ReadsBus, writeBitEvents, hscl]

theorem exists_writeSlotEvents_readsBus : ∃ a, EachEvent (ReadsBus env) p h (writeSlotEvents a) :=
  ⟨env .sda (h ++ [.low .scl, .dirIn .sda]), by simp [EachEvent, ReadsBus, writeSlotEvents, hscl]⟩

theorem exists_readBitEvents_readsBus : ∃ u, EachEvent (ReadsBus env) p h (readBitEvents u) :=
  ⟨env .sda (h ++ [.low .scl, .delay .i2c, .dirIn .scl, .poll .scl true, .delay .i2c]), by
    simp [EachEvent, ReadsBus, readBitEvents, hscl]⟩

theorem readSlotEvents_readsBus (ack : Bool) : EachEvent (ReadsBus env) p h (readSlotEvents ack) := by
  cases ack <;> simp [EachEvent, ReadsBus, readSlotEvents, hscl]

/-- On a bus that answers SCL with 1, the sample of an `I2C.WRITE` reads what the bus answers to it. -/
theorem exists_agrees_i2cWriteEvents (b : Byte) : ∃ a, Agrees env h (i2cWriteEvents b a) := by
  have hbits := (eachEvent_flatMap (inv := fun _ => True) (turn := fun k => writeBitEvents (b.getLsbD k))
    (fun k p h _ => ⟨writeBitEvents_readsBus hscl p h _, trivial⟩) (p := State.reset.pins) trivial h (downFrom 8)).1
  obtain ⟨a, ha⟩ := exists_writeSlotEvents_readsBus hscl _ _
  exact ⟨a, (agrees_iff State.reset.pins).2 (eachEvent_append.2 ⟨hbits, ha⟩)⟩

/-- On a bus that answers SCL with 1, the samples of an `I2C.READ` read the bits of some byte. -/
theorem exists_agrees_i2cReadEvents (ack : Bool) : ∃ x, Agrees env h (i2cReadEvents ack x) := by
  obtain ⟨f, hf⟩ := exists_bits_eachEvent (exists_readBitEvents_readsBus hscl) (l := downFrom 8) (by decide)
    State.reset.pins h
  obtain ⟨x, hx⟩ := exists_byte f
  refine ⟨x, (agrees_iff State.reset.pins).2 ?_⟩
  rw [i2cReadEvents_eq, List.flatMap_congr fun k hk => by rw [hx k (mem_downFrom.1 hk)]]
  exact eachEvent_append.2 ⟨hf, readSlotEvents_readsBus hscl _ _ ack⟩

end

/-! ### What the two byte commands leave -/

theorem Regs.after_append {text : List MicroStep} {events : List Event} (h : List.Forall₂ Emits text events) (q : Regs)
    (text' : List MicroStep) (events' : List Event) :
    q.after (text ++ text') (events ++ events') = (q.after text events).after text' events' := by
  induction h generalizing q with
  | nil => rfl
  | cons _ _ ih => exact ih _

/-- The last sample of an `I2C.WRITE` is the one that is kept in `s.a`. -/
theorem after_writeBody_a (q : Regs) (b : Byte) (a : Bool) : (q.after (writeBody b) (i2cWriteEvents b a)).a = a := by
  rw [writeBody, i2cWriteEvents_eq, Regs.after_append (writeBits_emit b _)]
  rfl

/-- SDA's latch is written by the 0 bits. -/
theorem pinsAfter_write (f : Nat → Bool) (a : Bool) (l : List Nat) (p : Pins) :
    ((l.flatMap fun k => writeBitEvents (f k)) ++ writeSlotEvents a).foldl pinsAfter p =
      { p with scl := { dir := .output, latch := some false }
               sda := { dir := .input, latch := if l.all f then p.sda.latch else some false } } := by
  induction l generalizing p with
  | nil => rfl
  | cons k rest ih =>
    rw [List.flatMap_cons, List.append_assoc, List.foldl_append, ih, List.all_cons]
    cases f k
    · simp [writeBitEvents, pinsAfter, Pins.set, Pins.get]
    · simp [writeBitEvents, pinsAfter, Pins.set, Pins.get]

theorem all_bits_iff (b : Byte) : (downFrom 8).all b.getLsbD = true ↔ b = 0xFF := by
  rw [List.all_eq_true, show (0xFF : Byte) = BitVec.allOnes 8 from rfl, BitVec.eq_of_getLsbD_eq_iff]
  refine forall_congr' fun k => ?_
  rw [mem_downFrom]
  refine imp_congr_right fun hk => ?_
  rw [BitVec.getLsbD_allOnes, decide_eq_true hk]

theorem pinsAfter_i2cWriteEvents (b : Byte) (a : Bool) (p : Pins) :
    (i2cWriteEvents b a).foldl pinsAfter p =
      { p with scl := { dir := .output, latch := some false }
               sda := { dir := .input, latch := if b = 0xFF then p.sda.latch else some false } } := by
  rw [i2cWriteEvents_eq, pinsAfter_write]
  simp only [all_bits_iff]

/-- Bits stored one by one are the bits of the result (R123). -/
theorem getLsbD_foldl_setBit (f : Nat → Bool) (l : List Nat) (r : Half) {j : Nat} (hj : j < 16) :
    (l.foldl (fun r k => setBit r k (f k)) r).getLsbD j = if j ∈ l then f j else r.getLsbD j := by
  induction l generalizing r with
  | nil => simp
  | cons k rest ih =>
    rw [List.foldl_cons, ih, getLsbD_setBit r k (f k) hj]
    by_cases hjk : j = k <;> simp [hjk]

theorem getLsbD_lowBits (n : Nat) (v : Half) {j : Nat} (hj : j < 16) :
    (lowBits n v).getLsbD j = (v.getLsbD j && decide (j < n)) := by
  simp only [lowBits, BitVec.getLsbD_and, BitVec.getLsbD_ofNat, Nat.testBit_two_pow_sub_one, hj, decide_true,
    Bool.true_and]

/-- The byte sampled by an `I2C.READ` is what its `μDONE` writes to `RESULT`. -/
theorem lowBits_after_readBody (q : Regs) (ack : Bool) (x : Byte) :
    lowBits 8 (q.after (readBody ack) (i2cReadEvents ack x)).r = x.setWidth 16 := by
  have hr : (q.after (readBody ack) (i2cReadEvents ack x)).r =
      (downFrom 8).foldl (fun r k => setBit r k (x.getLsbD k)) 0 := by cases ack <;> rfl
  refine BitVec.eq_of_getLsbD_eq fun j hj => ?_
  rw [hr, getLsbD_lowBits 8 _ hj, getLsbD_foldl_setBit _ _ _ hj, BitVec.getLsbD_setWidth]
  by_cases h8 : j < 8
  · simp [mem_downFrom, h8, hj]
  · simp [h8, BitVec.getLsbD_of_ge x j (by omega)]

theorem pinsAfter_i2cReadEvents (ack : Bool) (x : Byte) (p : Pins) :
    (i2cReadEvents ack x).foldl pinsAfter p =
      { p with scl := { dir := .output, latch := some false }
               sda := { dir := .input, latch := if ack then some false else p.sda.latch } } := by
  cases ack <;> rfl

/-- An `I2C.WRITE` whose clock polls find SCL high and whose sample reads `a` (R156, R161). -/
theorem i2cWrite_finishes {env : Oracle} {s : State} {b : Byte} {a : Bool} (hfree : s.free)
    (hread : EachEvent (ReadsLine env) s.pins s.hist (i2cWriteEvents b a)) :
    (seqRun env 56 (accept (.i2cWrite b) (i2cWriteText b) s)).finishedAs
      { s.view with
        value := if a then 0 else 1
        ack := !a
        pins := { s.pins with
          scl := { dir := .output, latch := some false }
          sda := { dir := .input, latch := if b = 0xFF then s.pins.sda.latch else some false } }
        hist := s.hist ++ i2cWriteEvents b a } := by
  refine finishedAs_accept (writeBody_emits b a) (i2cWriteText_eq b) rfl hread ?_
  show ({ s.view with
          value := (BitVec.ofBool !(s.regs.after (writeBody b) (i2cWriteEvents b a)).a).setWidth 16
          busy := false
          ack := !(s.regs.after (writeBody b) (i2cWriteEvents b a)).a
          pins := (i2cWriteEvents b a).foldl pinsAfter s.pins
          hist := s.hist ++ i2cWriteEvents b a } : View) = _
  rw [after_writeBody_a, pinsAfter_i2cWriteEvents, view_of_free hfree]
  cases a <;> rfl

/-- An `I2C.READ` whose clock polls find SCL high and whose samples read the bits of `x` (R157). -/
theorem i2cRead_finishes {env : Oracle} {s : State} {ack : Bool} {x : Byte} (hfree : s.free)
    (hread : EachEvent (ReadsLine env) s.pins s.hist (i2cReadEvents ack x)) :
    (seqRun env 57 (accept (.i2cRead ack) (i2cReadText ack) s)).finishedAs
      { s.view with
        value := x.setWidth 16
        pins := { s.pins with
          scl := { dir := .output, latch := some false }
          sda := { dir := .input, latch := if ack then some false else s.pins.sda.latch } }
        hist := s.hist ++ i2cReadEvents ack x } := by
  refine finishedAs_accept (readBody_emits ack x) (i2cReadText_eq ack) rfl hread ?_
  rw [view_of_free hfree, ← lowBits_after_readBody s.regs ack x, ← pinsAfter_i2cReadEvents ack x]
  rfl

/-- Settles O22: the sample reads some bit, and the run follows from it. -/
theorem i2cWriteShiftsByteOut : Obligations.I2cWriteShiftsByteOut := by
  unfold Obligations.I2cWriteShiftsByteOut
  intro s b hready
  refine ⟨_, exec_i2c_accepts rfl rfl hready, fun env hscl => ?_⟩
  obtain ⟨a, ha⟩ := exists_agrees_i2cWriteEvents hscl s.hist b
  exact ⟨a, ha, i2cWrite_finishes hready.1 (eachEvent_readsLine (i2cWriteEvents_read_released _ _ b a) ha)⟩

/-- Settles O23: the samples read the bits of some byte, and the run follows from it. -/
theorem i2cReadShiftsByteIn : Obligations.I2cReadShiftsByteIn := by
  unfold Obligations.I2cReadShiftsByteIn
  intro s ack hready hsda
  refine ⟨_, exec_i2c_accepts rfl rfl hready, fun env hscl => ?_⟩
  obtain ⟨x, hx⟩ := exists_agrees_i2cReadEvents hscl s.hist ack
  exact ⟨x, hx, i2cRead_finishes hready.1 (eachEvent_readsLine (i2cReadEvents_read_released hsda _ ack x) hx)⟩

/-- Settles O24: the samples read 0, and the run follows from that. -/
theorem i2cReadWithSdaDrivenReadsZero : Obligations.I2cReadWithSdaDrivenReadsZero := by
  unfold Obligations.I2cReadWithSdaDrivenReadsZero
  intro s ack hready hsda
  refine ⟨_, exec_i2c_accepts rfl rfl hready, fun env hscl => ?_⟩
  exact i2cRead_finishes hready.1 (i2cReadEvents_read_driven hscl hsda _ ack)

/-! ### The loopback (R165) -/

theorem sdaAtClockHigh_append (p : Pins) (x y : List Event) :
    sdaAtClockHigh p (x ++ y) = sdaAtClockHigh p x ++ sdaAtClockHigh (x.foldl pinsAfter p) y := by
  induction x generalizing p with
  | nil => rfl
  | cons e rest ih => simp [sdaAtClockHigh, ih]

/-- Each turn of `I2C.WRITE`'s loop puts its bit on SDA. -/
theorem sdaAtClockHigh_writeBits (f : Nat → Bool) (l : List Nat) (p : Pins) :
    sdaAtClockHigh p (l.flatMap fun k => writeBitEvents (f k)) = l.map f := by
  induction l generalizing p with
  | nil => rfl
  | cons k rest ih =>
    rw [List.flatMap_cons, sdaAtClockHigh_append, ih]
    cases h : f k <;> simp [h] <;> rfl

theorem sdaAtClockHigh_i2cWriteEvents (b : Byte) (a : Bool) (p : Pins) :
    (sdaAtClockHigh p (i2cWriteEvents b a)).take 8 = (downFrom 8).map b.getLsbD := by
  rw [i2cWriteEvents_eq, sdaAtClockHigh_append, sdaAtClockHigh_writeBits]
  rfl

/-- Settles O25: the bits on SDA are those of `WRITE`'s loop; the ends are those of the two runs. -/
theorem i2cLoopbackReturnsTheByte : Obligations.I2cLoopbackReturnsTheByte := by
  unfold Obligations.I2cLoopbackReturnsTheByte
  constructor
  · intro s b hready
    refine ⟨_, exec_i2c_accepts rfl rfl hready, fun env ha => ?_⟩
    have hfin := i2cWrite_finishes hready.1 (eachEvent_readsLine (i2cWriteEvents_read_released _ _ b false) ha)
    exact ⟨hfin.hist, sdaAtClockHigh_i2cWriteEvents b false s.pins, hfin.busy.trans hready.1.2,
      hfin.ack, congrArg (BitVec.setWidth 32) hfin.value⟩
  · intro s b ack hready hsda
    refine ⟨_, exec_i2c_accepts rfl rfl hready, fun env ha => ?_⟩
    have hfin := i2cRead_finishes hready.1 (eachEvent_readsLine (i2cReadEvents_read_released hsda _ ack b) ha)
    exact ⟨hfin.busy.trans hready.1.2, hfin.value⟩

/-! ### The pin state that a text leads to (R158) -/

/-- What a micro-operation makes of the pin state (R114 to R116). -/
def MicroOp.onPins : MicroOp → Pins → Pins
  | .input l, p => p.set l { dir := .input, latch := (p.get l).latch }
  | .low l, p => p.set l.line { dir := .output, latch := some false }
  | .out l v, p => p.set l.line { dir := .output, latch := some v }
  | .sample _ _, p | .wait _ _, p | .delay _, p | .setMode _, p | .done _, p => p

/-- What the micro-operations of a text make of the pin state. -/
def textPins (p : Pins) (text : List MicroStep) : Pins := text.foldl (fun p m => m.op.onPins p) p

/-- An event moves the pins as its micro-operation does. -/
theorem Emits.pinsAfter_eq {m : MicroStep} {e : Event} (h : Emits m e) (p : Pins) : pinsAfter p e = m.op.onPins p := by
  cases h <;> rfl

/-- Everything a step can do on the wire: it emits the event of its micro-operation; or it is a poll that does not find
the awaited level; or it is silent, as `μSETMODE` and `μDONE` are. -/
theorem seqStep_wire_cases (env : Oracle) {s : State} {m : MicroStep} {rest : List MicroStep} (hpc : s.pc = m :: rest) :
    (∃ e, Emits m e ∧ (seqStep env s).pc = rest ∧ (seqStep env s).pins = pinsAfter s.pins e ∧
      (seqStep env s).hist = s.hist ++ [e]) ∨
    (∃ l u, (seqStep env s).pc = m :: rest ∧ (seqStep env s).pins = s.pins ∧
      (seqStep env s).hist = s.hist ++ [.poll l u]) ∨
    (((∃ us, m.op = .done us ∧ (seqStep env s).pc = []) ∨ (∃ mode, m.op = .setMode mode ∧ (seqStep env s).pc = rest)) ∧
      (seqStep env s).pins = s.pins ∧ (seqStep env s).hist = s.hist) := by
  obtain ⟨pre, op⟩ := m
  rw [seqStep_cons env hpc]
  cases op with
  | input l => exact .inl ⟨_, .input l, by simp [perform, pinsAfter, State.latch]⟩
  | low l => exact .inl ⟨_, .low l, by simp [perform, pinsAfter]⟩
  | out l v => exact .inl ⟨_, .out l v, by simp [perform, pinsAfter]⟩
  | sample l dest =>
    exact .inl ⟨_, .sample l dest (readLine env l.line (assignAll pre s)), by simp [perform, pinsAfter]⟩
  | wait l v =>
    rw [perform_wait]
    split
    · exact .inl ⟨_, .wait l v, by simp [pinsAfter]⟩
    · exact .inr (.inl ⟨l.line, !v, by simp [hpc]⟩)
  | delay c => exact .inl ⟨_, .delay c, by simp [perform, pinsAfter]⟩
  | setMode mode => exact .inr (.inr (by simp [perform]))
  | done us => exact .inr (.inr (by simp [perform]))

/-- The pin state that the running text leads to does not change along its run: a wait polls any number of times, but no
poll moves a pin. -/
theorem textPins_seqStep (env : Oracle) {s : State} {c : Config} {spi : SpiCfg} {i : Instr}
    (h : s.pc <:+ microprogram c spi i) : textPins (seqStep env s).pins (seqStep env s).pc = textPins s.pins s.pc := by
  cases hpc : s.pc with
  | nil => rw [seqStep_idle env hpc, hpc]
  | cons m rest =>
    rw [hpc] at h
    rcases seqStep_wire_cases env hpc with
      ⟨e, he, hpc', hpins, _⟩ | ⟨_, _, hpc', hpins, _⟩ | ⟨⟨us, hop, hpc'⟩ | ⟨mode, hop, hpc'⟩, hpins, _⟩ <;>
      rw [hpc', hpins]
    · rw [he.pinsAfter_eq]; rfl
    · rcases microprogram_position h with ⟨rfl, rfl⟩ | ⟨hallowed, _, _, _⟩
      · rfl
      · exact absurd hop (allowed_ne_done hallowed us)
    · simp [textPins, hop, MicroOp.onPins]

/-- Whatever the bus does, an accepted command that has ended has left the pin state that its text leads to. -/
theorem seqRun_pins_of_ended {env : Oracle} {i : Instr} {s t : State} {n : Nat} (hfree : s.free)
    (h : exec i s = .next t) (hb : t.busy = true) (hend : (seqRun env n t).busy = false) :
    (seqRun env n t).pins = textPins s.pins (microprogram s.cfg s.spi i) := by
  have hlegal : (seqRun env n t).RunLegal :=
    seqRun_induction (P := State.RunLegal) (fun _ => seqStep_keeps_runLegal env) n (exec_runLegal hfree h hb)
  have hpc : (seqRun env n t).pc = [] := by
    rcases hlegal with ⟨_, hpc, _⟩ | ⟨hbusy, _⟩
    · exact hpc
    · rw [hend] at hbusy; cases hbusy
  obtain rfl := exec_accepted hfree h hb
  obtain ⟨_, hrun⟩ := seqRun_induction (P := fun u => u.pc <:+ microprogram s.cfg s.spi i ∧
      textPins u.pins u.pc = textPins s.pins (microprogram s.cfg s.spi i))
    (fun u ⟨hu, hpins⟩ => ⟨(seqStep_pc_suffix env u).trans hu, (textPins_seqStep env hu).trans hpins⟩) n
    (s := accept i (microprogram s.cfg s.spi i) s) ⟨List.suffix_rfl, rfl⟩
  rwa [hpc] at hrun

/-- `I2C.WRITE` ends with SCL driven low and SDA released, whatever the lines were before its acknowledge slot. -/
theorem textPins_i2cWriteText (p : Pins) (b : Byte) :
    (textPins p (i2cWriteText b)).scl = { dir := .output, latch := some false } ∧
    (textPins p (i2cWriteText b)).sda.dir = .input := by
  simp only [i2cWriteText_eq, writeBody, textPins, List.foldl_append]
  exact ⟨rfl, rfl⟩

theorem textPins_i2cReadText (p : Pins) (ack : Bool) :
    (textPins p (i2cReadText ack)).scl = { dir := .output, latch := some false } ∧
    (textPins p (i2cReadText ack)).sda.dir = .input := by
  simp only [i2cReadText_eq, readBody, textPins, List.foldl_append]
  exact ⟨rfl, rfl⟩

/-- Settles O26: no poll changes the pin state that a text leads to, and a text's last moves of SCL and SDA fix it. -/
theorem i2cEndLineStates : Obligations.I2cEndLineStates := by
  unfold Obligations.I2cEndLineStates
  intro i s t env n hfree h hb hend
  have hpins := seqRun_pins_of_ended hfree h hb hend
  simp only [State.dir, hpins]
  refine ⟨?_, ?_, ?_, ?_⟩
  · rintro (rfl | rfl) <;> exact ⟨rfl, rfl⟩
  · rintro rfl; exact ⟨rfl, rfl⟩
  · rintro rfl; exact ⟨rfl, rfl⟩
  · rintro (⟨b, rfl⟩ | ⟨ack, rfl⟩)
    · exact textPins_i2cWriteText s.pins b
    · exact textPins_i2cReadText s.pins ack

/-! ### No condition inside a byte (R160) -/

theorem sdaMovesOnlyWhileClockLow_append (p : Pins) (x y : List Event) :
    sdaMovesOnlyWhileClockLow p (x ++ y) =
      (sdaMovesOnlyWhileClockLow p x && sdaMovesOnlyWhileClockLow (x.foldl pinsAfter p) y) := by
  induction x generalizing p with
  | nil => rfl
  | cons e rest ih => simp [sdaMovesOnlyWhileClockLow, ih, Bool.and_assoc]

/-- A START or a STOP moves SDA while SCL is released (R159). -/
theorem no_condition_of_sdaMovesOnlyWhileClockLow {p : Pins} {events : List Event}
    (h : sdaMovesOnlyWhileClockLow p events = true) : masterStarts p events = 0 ∧ masterStops p events = 0 := by
  induction events generalizing p with
  | nil => exact ⟨rfl, rfl⟩
  | cons e rest ih =>
    simp only [sdaMovesOnlyWhileClockLow, Bool.and_eq_true] at h
    obtain ⟨hmove, hrest⟩ := h
    obtain ⟨hstarts, hstops⟩ := ih hrest
    have hclock : e = .dirIn .sda ∨ e = .low .sda → p.scl.dir = .output := fun he => by simpa [he] using hmove
    have hstart : isMasterStart p e = false := by
      by_cases he : e = .low .sda
      · simp [isMasterStart, hclock (.inr he)]
      · simp [isMasterStart, he]
    have hstop : isMasterStop p e = false := by
      by_cases he : e = .dirIn .sda
      · simp [isMasterStop, hclock (.inl he)]
      · simp [isMasterStop, he]
    simp [masterStarts, masterStops, hstart, hstop, hstarts, hstops]

/-- The micro-operation moves SDA. -/
def MicroOp.movesSda (op : MicroOp) : Prop := op = .input .sda ∨ op = .low .sda

/-- The text moves SDA only while the block drives SCL low. -/
def HoldsClock : Pins → List MicroStep → Prop
  | _, [] => True
  | p, m :: rest => (m.op.movesSda → p.scl.dir = .output) ∧ HoldsClock (m.op.onPins p) rest

theorem HoldsClock.append {x y : List MicroStep} {p : Pins} (hx : HoldsClock p x) (hy : ∀ p, HoldsClock p y) :
    HoldsClock p (x ++ y) := by
  induction x generalizing p with
  | nil => exact hy p
  | cons m rest ih => exact ⟨hx.1, ih hx.2⟩

theorem HoldsClock.before {text : List MicroStep} {p : Pins} (h : HoldsClock p text) (as : List Assign) :
    HoldsClock p (before as text) := by
  cases text with
  | nil => trivial
  | cons m rest => exact h

theorem HoldsClock.forBits {body : Nat → List MicroStep} (h : ∀ k p, HoldsClock p (body k)) (l : List Nat) (p : Pins) :
    HoldsClock p (forBits l body) := by
  induction l generalizing p with
  | nil => trivial
  | cons k rest ih => exact ((h k p).before _).append ih

theorem i2cWriteText_holdsClock (b : Byte) (p : Pins) : HoldsClock p (i2cWriteText b) := by
  rw [i2cWriteText_eq, writeBody, List.append_assoc]
  refine (HoldsClock.forBits (fun k p => ?_) _ p).append fun p => ?_
  · cases h : b.getLsbD k <;>
      simp [i2cWriteBit, setSda, h, HoldsClock, MicroOp.movesSda, MicroOp.onPins, OpenDrainLine.line, Pins.set]
  · simp [pulseText, HoldsClock, MicroOp.movesSda, MicroOp.onPins, OpenDrainLine.line, Pins.set]

theorem i2cReadText_holdsClock (ack : Bool) (p : Pins) : HoldsClock p (i2cReadText ack) := by
  rw [i2cReadText_eq, readBody, List.append_assoc]
  refine ((HoldsClock.forBits (fun k p => ?_) _ p).before _).append fun p => ?_
  · simp [i2cReadBit, HoldsClock, MicroOp.movesSda]
  · cases ack <;>
      simp [pulseText, setSda, HoldsClock, MicroOp.movesSda, MicroOp.onPins, OpenDrainLine.line, Pins.set]

/-- The events since `s` account for the pins and move SDA only while SCL is driven low, and so does the text to come. -/
def ClockHeldSince (s u : State) : Prop :=
  ∃ new, u.hist = s.hist ++ new ∧ u.pins = new.foldl pinsAfter s.pins ∧ sdaMovesOnlyWhileClockLow s.pins new = true ∧
    HoldsClock u.pins u.pc

/-- An event that moves SDA is that of a micro-operation that does. -/
theorem Emits.sdaMoves {m : MicroStep} {e : Event} (h : Emits m e) {p : Pins}
    (hm : m.op.movesSda → p.scl.dir = .output) : sdaMovesOnlyWhileClockLow p [e] = true := by
  cases h with
  | input l => cases l <;> simp_all [sdaMovesOnlyWhileClockLow, MicroOp.movesSda]
  | low l => cases l <;> simp_all [sdaMovesOnlyWhileClockLow, MicroOp.movesSda, OpenDrainLine.line]
  | out l v | sample l dest u | wait l v | delay c => simp [sdaMovesOnlyWhileClockLow]

theorem clockHeldSince_seqStep (env : Oracle) {s u : State} (h : ClockHeldSince s u) :
    ClockHeldSince s (seqStep env u) := by
  obtain ⟨new, hhist, hpins, hmoves, htext⟩ := h
  cases hpc : u.pc with
  | nil => rw [seqStep_idle env hpc]; exact ⟨new, hhist, hpins, hmoves, htext⟩
  | cons m rest =>
    rw [hpc] at htext
    rcases seqStep_wire_cases env hpc with
      ⟨e, he, hpc', hpins', hhist'⟩ | ⟨l, v, hpc', hpins', hhist'⟩ | ⟨hpc', hpins', hhist'⟩
    · refine ⟨new ++ [e], by simp [hhist', hhist], by simp [hpins', hpins], ?_, ?_⟩
      · rw [sdaMovesOnlyWhileClockLow_append, hmoves, ← hpins, he.sdaMoves htext.1]; rfl
      · rw [hpc', hpins', he.pinsAfter_eq]; exact htext.2
    · refine ⟨new ++ [.poll l v], by simp [hhist', hhist], by simp [hpins', hpins, pinsAfter], ?_, ?_⟩
      · rw [sdaMovesOnlyWhileClockLow_append, hmoves]; rfl
      · rw [hpc', hpins']; exact htext
    · refine ⟨new, hhist'.trans hhist, hpins'.trans hpins, hmoves, ?_⟩
      rcases hpc' with ⟨us, _, hpc'⟩ | ⟨mode, hop, hpc'⟩ <;> rw [hpc', hpins']
      · trivial
      · simpa [hop, MicroOp.onPins] using htext.2

/-- Settles O27: the two texts move SDA only after SCL is driven low and before it is released. -/
theorem noConditionInsideAByte : Obligations.NoConditionInsideAByte := by
  unfold Obligations.NoConditionInsideAByte
  intro i s t env n hi hfree h hb
  obtain rfl := exec_accepted hfree h hb
  have htext : HoldsClock s.pins (microprogram s.cfg s.spi i) := by
    rcases hi with ⟨b, rfl⟩ | ⟨ack, rfl⟩
    · exact i2cWriteText_holdsClock b s.pins
    · exact i2cReadText_holdsClock ack s.pins
  obtain ⟨new, hhist, _, hmoves, _⟩ := seqRun_induction (P := ClockHeldSince s)
    (fun _ => clockHeldSince_seqStep env) n (s := accept i (microprogram s.cfg s.spi i) s)
    ⟨[], by simp, rfl, rfl, htext⟩
  obtain ⟨hstarts, hstops⟩ := no_condition_of_sdaMovesOnlyWhileClockLow hmoves
  exact ⟨new, hhist, hstarts, hstops, hmoves⟩

end Sys2Proof.Machine
end

section
/-! PROOFS. The statements of spec/42_spi.md: what each SPI command does from its acceptance to its end (R203 to R211,
R215), the clock's rest at the idle level (R212) and its edges (R213), the loopback (R216) and the mode round trip
(R218); and when a command is turned away (R208, R324, R325). -/

namespace Sys2Proof.Machine

/-! ### The clock that a text leaves (R212) -/

/-- The idle level in force and the SCK pin. -/
def State.clock (s : State) : Bool × Pin := (s.spi.idle, s.pins.sck)

/-- SCK is driven to the idle level in force. -/
def AtIdle (x : Bool × Pin) : Prop := x.2 = { dir := .output, latch := some x.1 }

theorem State.clockIdle_iff (s : State) :
    s.ClockIdle ↔ (s.spiInitialising → AtIdle (clockReplay s.pc s.clock)) := Iff.rfl

/-- What one micro-operation makes of the idle level and the SCK pin. -/
def MicroOp.onClock (op : MicroOp) (x : Bool × Pin) : Bool × Pin := clockReplay [plain op] x

theorem clockReplay_cons (m : MicroStep) (rest : List MicroStep) (x : Bool × Pin) :
    clockReplay (m :: rest) x = clockReplay rest (m.op.onClock x) := rfl

theorem clockReplay_append (text rest : List MicroStep) (x : Bool × Pin) :
    clockReplay (text ++ rest) x = clockReplay rest (clockReplay text x) := by
  induction text generalizing x with
  | nil => rfl
  | cons m text ih => exact ih _

/-- Done twice, a micro-operation leaves what it leaves when done once. -/
theorem MicroOp.onClock_onClock (op : MicroOp) (x : Bool × Pin) : op.onClock (op.onClock x) = op.onClock x := by
  cases op with
  | input l => cases l <;> rfl
  | out l v => cases l <;> rfl
  | low l | sample l dest | wait l v | delay c | setMode m | done us => rfl

/-- A micro-operation moves the machine's idle level and SCK pin as `clockReplay` says. -/
theorem perform_clock (env : Oracle) (op : MicroOp) (rest : List MicroStep) (s : State) :
    (perform env op rest s).clock = op.onClock s.clock := by
  cases op with
  | input l => cases l <;> rfl
  | out l v => cases l <;> rfl
  | low l => cases l <;> rfl
  | sample l dest => cases dest <;> rfl
  | wait l v => rw [perform_wait]; split <;> rfl
  | delay c | setMode m => rfl
  | done us => simp only [State.clock, perform, microDone_spi, microDone_pins]; rfl

theorem assignAll_clock (as : List Assign) (s : State) : (assignAll as s).clock = s.clock := by
  simp [State.clock]

/-- The clock that the running text leaves does not change with a step of it: a wait that goes on polling moves neither
the mode nor SCK. -/
theorem clockReplay_perform (env : Oracle) {s : State} {m : MicroStep} {rest : List MicroStep} (hpc : s.pc = m :: rest)
    (h : ∀ us, m.op ≠ .done us) :
    clockReplay (perform env m.op rest (assignAll m.pre s)).pc (perform env m.op rest (assignAll m.pre s)).clock =
      clockReplay s.pc s.clock := by
  rw [perform_clock, assignAll_clock, hpc]
  rcases perform_pc_cases env rest (assignAll m.pre s) h with he | he
  · rw [he, clockReplay_cons]
  · rw [he, assignAll_pc, hpc, clockReplay_cons, clockReplay_cons, MicroOp.onClock_onClock]

/-! ### The clock that a command leaves (R212) -/

theorem unitOf_eq_spi_of_writesSpiCfg {i : Instr} (h : writesSpiCfg i = true) : unitOf i = .spi := by
  cases i <;> simp [writesSpiCfg] at h <;> rfl

/-- A command of another unit has no micro-operation that moves the mode or SCK. -/
theorem onClock_eq_of_allowed {i : Instr} (hu : unitOf i ≠ .spi) {op : MicroOp} (h : allowed i op) (x : Bool × Pin) :
    op.onClock x = x := by
  cases op with
  | input l =>
    cases l with
    | sck => exact absurd rfl h.2
    | _ => rfl
  | out l v =>
    cases l with
    | sck => exact absurd h.symm hu
    | _ => rfl
  | setMode m => exact absurd (unitOf_eq_spi_of_writesSpiCfg h) hu
  | low l | sample l dest | wait l v | delay c | done us => rfl

theorem clockReplay_eq_self {text : List MicroStep} {x : Bool × Pin} (h : ∀ m ∈ text, m.op.onClock x = x) :
    clockReplay text x = x := by
  induction text with
  | nil => rfl
  | cons m rest ih =>
    rw [clockReplay_cons, h m List.mem_cons_self, ih fun k hk => h k (List.mem_cons_of_mem _ hk)]

/-- A text of a command that does not write `SPICFG` leaves the idle level. -/
theorem clockReplay_fst_eq {i : Instr} (hi : writesSpiCfg i = false) {n : Nat} {text : List MicroStep}
    (h : bodyOk i n text) (x : Bool × Pin) : (clockReplay text x).1 = x.1 := by
  induction text generalizing x with
  | nil => rfl
  | cons m rest ih =>
    obtain ⟨⟨hop, _⟩, hrest⟩ := (bodyOk_cons i n m rest).1 h
    rw [clockReplay_cons, ih hrest]
    revert hop
    cases m.op with
    | input l => cases l <;> exact fun _ => rfl
    | out l v => cases l <;> exact fun _ => rfl
    | setMode mode => exact fun hop => absurd (hop.symm.trans hi) (by decide)
    | low l | sample l dest | wait l v | delay c | done us => exact fun _ => rfl

/-- `SHIFT` ends with the clock at the idle level (R206). -/
theorem atIdle_shiftText (c : SpiCfg) (n : Nat) (o : Half) (smp : Bool) (us : List DoneUpdate) (p : Pin) :
    AtIdle (clockReplay (shiftText c n o smp ++ [plain (.done us)]) (c.idle, p)) := by
  have hbody : bodyOk .spiReadB n (shiftText c n o smp) := bodyOk_shift rfl le_rfl c o smp
  have hidle := clockReplay_fst_eq rfl hbody (c.idle, p)
  rw [shiftText, clockReplay_append] at hidle
  rw [shiftText, clockReplay_append, clockReplay_append]
  exact congrArg (fun v => Pin.mk .output (some v)) hidle.symm

/-- A command of another unit leaves the mode and SCK as they are. -/
theorem clockReplay_microprogram_other {i : Instr} (hu : unitOf i ≠ .spi) (c : Config) (spi : SpiCfg)
    (x : Bool × Pin) : clockReplay (microprogram c spi i) x = x := by
  obtain ⟨body, he, hok⟩ := microprogram_shape c spi i
  rw [he, clockReplay_append, clockReplay_eq_self fun m hm => onClock_eq_of_allowed hu (hok m hm).1 x]
  rfl

/-- A command ends with SCK driven to the idle level of the mode it leaves in force: `SPI.INIT` wherever SCK was, and
every other command if SCK was at the idle level before. -/
theorem atIdle_microprogram (c : Config) (spi : SpiCfg) {i : Instr} {p : Pin}
    (h : i = .spiInit ∨ AtIdle (spi.idle, p)) : AtIdle (clockReplay (microprogram c spi i) (spi.idle, p)) := by
  cases i with
  | spiInit | spiSetMode m => exact rfl
  | spiGetMode => exact h.resolve_left (by simp)
  | spiWriteB b | spiWriteN v | spiReadB | spiReadN | spiXmit b => exact atIdle_shiftText ..
  | i2cInit | i2cStart | i2cStop | i2cRestart | i2cWrite b | i2cRead ack | uartInit | uartWrite b | uartRead =>
    rw [clockReplay_microprogram_other (by simp [unitOf])]
    exact h.resolve_left (by simp)

/-- Only `SPI.INIT` has a `μDONE` that sets `SPI_INIT` (R28). -/
theorem eq_spiInit_of_done_mem {c : Config} {spi : SpiCfg} {i : Instr} {m : MicroStep} (hm : m ∈ microprogram c spi i)
    (hop : m.op = .done [.init .spi]) : i = .spiInit := by
  obtain ⟨body, he, hok⟩ := microprogram_shape c spi i
  rw [he, List.mem_append, List.mem_singleton] at hm
  rcases hm with hm | rfl
  · exact absurd hop (allowed_ne_done (hok m hm).1 _)
  · cases i <;> simp [doneUpdates] at hop ⊢

/-! ### The clock's rest as an invariant (R212) -/

/-- A step of a command's text does not change the clock that the text leaves. -/
theorem clockReplay_seqStep (env : Oracle) {s : State} {c : Config} {spi : SpiCfg} {i : Instr}
    (h : s.pc <:+ microprogram c spi i) :
    clockReplay (seqStep env s).pc (seqStep env s).clock = clockReplay s.pc s.clock := by
  cases hpc : s.pc with
  | nil => rw [seqStep_idle env hpc, hpc]
  | cons m rest =>
    rw [hpc] at h
    rcases microprogram_position h with ⟨rfl, rfl⟩ | ⟨hop, _, _, _⟩
    · rw [seqStep_cons env hpc, perform_clock]; rfl
    · rw [seqStep_cons env hpc, clockReplay_perform env hpc (allowed_ne_done hop), hpc]

/-- Where `SPI_INIT` is set or to be set after a step of a command's text, it was so before. -/
theorem spiInitialising_of_seqStep (env : Oracle) {s : State} {c : Config} {spi : SpiCfg} {i : Instr}
    (h : s.pc <:+ microprogram c spi i) (hinit : (seqStep env s).spiInitialising) : s.spiInitialising := by
  rcases hinit with hinit | ⟨m, hm, hop⟩
  · cases hpc : s.pc with
    | nil => rw [seqStep_idle env hpc] at hinit; exact .inl hinit
    | cons m rest =>
      rw [hpc] at h
      rw [seqStep_cons env hpc] at hinit
      rcases microprogram_position h with ⟨rfl, rfl⟩ | ⟨hop, _, _, _⟩
      · have hflag := (initFlag_microDone c.spiWidth i s .spi).symm.trans hinit
        split at hflag
        · next hi =>
          obtain rfl : i = .spiInit := by cases i <;> simp [isInit, unitOf] at hi ⊢
          exact .inr ⟨_, by rw [hpc]; exact List.mem_cons_self, rfl⟩
        · exact .inl hflag
      · have hflag := (perform_initFlag env rest (assignAll m.pre s) (allowed_ne_done hop) .spi).symm.trans hinit
        exact .inl ((assignAll_initFlag m.pre s .spi).symm.trans hflag)
  · exact .inr ⟨m, (seqStep_pc_suffix env s).subset hm, hop⟩

/-- A command accepted while no other runs keeps the invariant: it finds SCK at the idle level, or it is `SPI.INIT`. -/
theorem accept_keeps_clockIdle {s : State} (hpc : s.pc = []) (h : s.ClockIdle) (i : Instr) :
    (accept i (microprogram s.cfg s.spi i) s).ClockIdle := by
  intro hinit
  refine atIdle_microprogram s.cfg s.spi ?_
  rcases hinit with hset | ⟨m, hm, hop⟩
  · have hidle := h (.inl hset)
    rw [hpc] at hidle
    exact .inr hidle
  · exact .inl (eq_spiInit_of_done_mem hm hop)

/-- Every move of the block keeps the clock's rest. -/
theorem BlockMove.keeps_clockIdle {env : Oracle} {resets : Prop} {s t : State} (hm : BlockMove env resets s t)
    (hrun : s.RunLegal) (h : s.ClockIdle) : t.ClockIdle := by
  cases hm with
  | sequencer =>
    rcases s.runLegal_iff.1 hrun with hidle | ⟨_, i, hi⟩
    · rwa [seqStep_idle env hidle.pc]
    · rw [State.clockIdle_iff, clockReplay_seqStep env hi.position]
      exact fun hinit => h (spiInitialising_of_seqStep env hi.position hinit)
  | still => exact h
  | raise c _ => simpa [State.ClockIdle, State.spiInitialising] using h
  | accepts i _ _ hb =>
    have hidle : s.Idle := (s.runLegal_iff.1 hrun).resolve_right fun ⟨_, _, hr⟩ => by simp [hr.busy] at hb
    exact accept_keeps_clockIdle hidle.pc h i
  | reset _ =>
    rintro (hinit | ⟨m, hmem, _⟩)
    · cases hinit
    · cases hmem

/-- Settles O50: every move of the block keeps the invariant, and with no command running nothing is left to replay. -/
theorem clockReturnsToIdle : Obligations.ClockReturnsToIdle := by
  unfold Obligations.ClockReturnsToIdle
  refine ⟨fun s t hrun hs h => ?_, fun s hs hinit hpc => ?_⟩
  · obtain ⟨_, u, ⟨_, _, _, _, _, _, rfl, _⟩, hm⟩ := step_cases h
    exact hm.keeps_clockIdle hrun hs
  · have hidle := hs (.inl hinit)
    rwa [hpc] at hidle

/-! ### Commands turned away (R208, R324, R325, R327, R329) -/

/-- Settles O11: by the tests of `issue` and of `issueIllegal` in their order. -/
theorem commandsTurnedAway : Obligations.CommandsTurnedAway := by
  unfold Obligations.CommandsTurnedAway
  intro i s
  refine ⟨fun hf => ?_, fun hf hb => ?_, fun ⟨hf, hb⟩ hw hi hu => ?_, fun ⟨hf, hb⟩ hw => ?_⟩
  · simp [exec_eq, issue_of_fault _ hf, issueIllegal, hf]
  · simp [exec_eq, issue_of_busy _ hf hb, issueIllegal, hf, hb, raiseFault_of_free]
  · rw [exec_wellFormed hw, issue_not_initialised _ hf hb hi hu, raiseFault_of_free _ hf]
  · simp [exec_eq, hw, issueIllegal, hf, hb, raiseFault_of_free]

/-! ### `SPI.INIT`, `SPI.SETMODE` and `SPI.GETMODE` (R203 to R205) -/

/-- A command of a unit is accepted in a state that is ready for the unit. -/
theorem exec_accepts_of_ready {i : Instr} {s : State} {u : SerialUnit} (h : s.ready u)
    (hw : wellFormed s.cfg.spiWidth i = true) (hu : unitOf i = u) :
    exec i s = .next (accept i (microprogram s.cfg s.spi i) s) := by
  obtain ⟨⟨hf, hb⟩, hinit⟩ := h
  exact exec_accepts hw hf hb (.inr (hu ▸ hinit))

theorem initMode_toNat {c : Config} (hc : c.valid = true) : (initMode c).toNat = c.spiInitMode := by
  obtain ⟨_, _, hmode, _⟩ := Config.valid_bounds hc
  rw [initMode, BitVec.toNat_ofNat]
  omega

/-- A text that begins with `μSETMODE` runs on as the rest of the text does in the new mode (R120). -/
theorem seqRun_accept_setMode (env : Oracle) (n : Nat) (i : Instr) (m : BitVec 2) (rest : List MicroStep) (s : State) :
    seqRun env (n + 1) (accept i (plain (.setMode m) :: rest) s) =
      seqRun env n (accept i rest { s with spi := modeCfg m }) := rfl

/-- Settles O32: the text sets the mode, emits the three events, and its `μDONE` sets the flag. -/
theorem spiInitConfiguresLines : Obligations.SpiInitConfiguresLines := by
  unfold Obligations.SpiInitConfiguresLines
  intro s hfree hc
  refine ⟨_, exec_accepts rfl hfree.1 hfree.2 (.inl rfl), fun env => ⟨initMode s.cfg, initMode_toNat hc, ?_⟩⟩
  have hemits : List.Forall₂ Emits (spiInitText (initMode s.cfg)).tail.dropLast
      [.drive .mosi false, .dirIn .miso, .drive .sck (idleLevel (initMode s.cfg))] := by repeat constructor
  rw [microprogram, spiInitText, seqRun_accept_setMode]
  refine finishedAs_accept hemits (us := [.init .spi]) rfl rfl ⟨trivial, trivial, trivial, trivial⟩ ?_
  rw [view_of_free hfree]
  rfl

/-- Settles O33: the text sets the mode and emits the one event. -/
theorem spiSetModeDrivesIdle : Obligations.SpiSetModeDrivesIdle := by
  unfold Obligations.SpiSetModeDrivesIdle
  intro s m hready
  refine ⟨_, exec_accepts_of_ready hready rfl rfl, fun env => ?_⟩
  have hemits : List.Forall₂ Emits (spiSetModeText m).tail.dropLast [.drive .sck (idleLevel m)] := by
    repeat constructor
  rw [microprogram, spiSetModeText, seqRun_accept_setMode]
  exact finishedAs_accept_pins (s := { s with spi := modeCfg m }) hready.1 hemits rfl rfl ⟨trivial, trivial⟩

/-- Settles O34: the text is its `μDONE` alone. -/
theorem spiGetModeReturnsMode : Obligations.SpiGetModeReturnsMode := by
  unfold Obligations.SpiGetModeReturnsMode
  intro s hready
  refine ⟨_, exec_accepts_of_ready hready rfl rfl, fun env => ⟨rfl, rfl, ?_⟩⟩
  rw [view_of_free hready.1]
  rfl

/-! ### The mode round trip (R218) -/

theorem idleLevel_eq (m : BitVec 2) : idleLevel m = if m = 0 ∨ m = 1 then false else true := by
  revert m; decide

/-- Settles O38: `SETMODE`'s end is ready for `GETMODE`. -/
theorem spiModeRoundTrip : Obligations.SpiModeRoundTrip := by
  unfold Obligations.SpiModeRoundTrip
  intro s m env hready
  obtain ⟨t, ht, hrun⟩ := spiSetModeDrivesIdle s m hready
  obtain ⟨_, _, hview⟩ := hrun env
  have hfree : (seqRun env 3 t).free :=
    ⟨(congrArg View.fault hview).trans hready.1.1, (congrArg View.busy hview).trans hready.1.2⟩
  obtain ⟨u, hu, hrun'⟩ := spiGetModeReturnsMode _ ⟨hfree, (congrArg View.spiInit hview).trans hready.2⟩
  refine ⟨t, ht, ?_, u, hu, ?_, (hrun' env).busy.trans hfree.2⟩
  · rw [← idleLevel_eq]
    exact congrArg (fun w => w.pins.sck) hview
  · exact (hrun' env).value.trans (congrArg (fun w => w.spi.mode.setWidth 16) hview)

/-! ### `SHIFT` and its events (R206) -/

/-- The events of one bit of `SHIFT`, its sample reading `u`. -/
def shiftBitEvents (c : SpiCfg) (o : Half) (smp : Bool) (k : Nat) (u : Bool) : List Event :=
  [.drive .mosi (o.getLsbD k), .drive .sck c.sample] ++ (if smp then [.sample .miso u] else []) ++
    (if k = 0 then [] else [.drive .sck c.prop])

/-- The events of `SHIFT`'s bit loop and of the idle restore after it, the sample of bit `k` reading `f k`. -/
def shiftLoopEvents (c : SpiCfg) (n : Nat) (o : Half) (smp : Bool) (f : Nat → Bool) : List Event :=
  ((downFrom n).flatMap fun k => shiftBitEvents c o smp k (f k)) ++ [.drive .sck c.idle]

theorem shiftLoopEvents_succ (c : SpiCfg) (n : Nat) (o : Half) (smp : Bool) (f : Nat → Bool) :
    shiftLoopEvents c (n + 1) o smp f = shiftBitEvents c o smp n (f n) ++ shiftLoopEvents c n o smp f := by
  simp [shiftLoopEvents, downFrom]

theorem shiftOutEvents_eq (c : SpiCfg) (n : Nat) (o : Half) (f : Nat → Bool) :
    shiftOutEvents c n o = .drive .sck c.prop :: shiftLoopEvents c n o false f := by
  simp [shiftOutEvents, shiftLoopEvents, shiftBitEvents]

theorem shiftExchangeEvents_eq (c : SpiCfg) (n : Nat) (o x : Half) :
    shiftExchangeEvents c n o x = .drive .sck c.prop :: shiftLoopEvents c n o true x.getLsbD := by
  simp [shiftExchangeEvents, shiftLoopEvents, shiftBitEvents]

section
variable (c : SpiCfg) (o : Half) (smp : Bool) (f : Nat → Bool)

theorem shiftBitText_emits (k : Nat) (u : Bool) :
    List.Forall₂ Emits (shiftBitText c o smp k) (shiftBitEvents c o smp k u) := by
  refine List.rel_append (List.rel_append (by repeat constructor) ?_) ?_
  · cases smp <;> repeat constructor
  · cases k with
    | zero => exact .nil
    | succ k => exact .cons (.out .sck c.prop) .nil

theorem shiftBits_emit (l : List Nat) :
    List.Forall₂ Emits (forBits l (shiftBitText c o smp)) (l.flatMap fun k => shiftBitEvents c o smp k (f k)) :=
  emits_forBits (fun k => shiftBitText_emits c o smp k (f k)) l

theorem shiftText_emits (n : Nat) :
    List.Forall₂ Emits (shiftText c n o smp) (.drive .sck c.prop :: shiftLoopEvents c n o smp f) := by
  rw [shiftText, List.append_assoc]
  exact .cons (.out .sck _) (List.rel_append (shiftBits_emit c o smp f _) (.cons (.out .sck _) .nil))

theorem length_shiftLoopEvents {n : Nat} (hn : 1 ≤ n) :
    (shiftLoopEvents c n o smp f).length = if smp then 4 * n else 3 * n := by
  induction n, hn using Nat.le_induction with
  | base => cases smp <;> rfl
  | succ n hn ih =>
    rw [shiftLoopEvents_succ, List.length_append, ih]
    have hne : n ≠ 0 := by omega
    cases smp <;> simp [shiftBitEvents, hne] <;> omega

/-- `SHIFT` of `n` bits takes `3n + 1` steps without sampling and `4n + 1` with it. -/
theorem length_shiftText {n : Nat} (hn : 1 ≤ n) :
    (shiftText c n o smp).length = (if smp then 4 * n else 3 * n) + 1 := by
  rw [(shiftText_emits c o smp (fun _ => false) n).length_eq, List.length_cons, length_shiftLoopEvents c o smp _ hn]

/-- After `SHIFT` SCK is at the idle level, and MOSI at the last bit sent (R206, R215). -/
theorem pinsAfter_shiftLoopEvents {n : Nat} (hn : 1 ≤ n) (p : Pins) :
    (shiftLoopEvents c n o smp f).foldl pinsAfter p =
      { p with sck := { dir := .output, latch := some c.idle }
               mosi := { dir := .output, latch := some (o.getLsbD 0) } } := by
  induction n, hn using Nat.le_induction generalizing p with
  | base => cases smp <;> rfl
  | succ n hn ih =>
    have hne : n ≠ 0 := by omega
    rw [shiftLoopEvents_succ, List.foldl_append, ih]
    cases smp <;> simp [shiftBitEvents, hne, pinsAfter, Pins.set]

theorem downFrom_nodup (n : Nat) : (downFrom n).Nodup := by
  induction n with
  | zero => exact List.nodup_nil
  | succ n ih => exact List.nodup_cons.2 ⟨fun h => Nat.lt_irrefl n (mem_downFrom.1 h), ih⟩

end

/-! ### What `SHIFT` reads (R121, R206) -/

/-- Bits can be found that give the events of a loop a property, if one can be found in each turn; `exists_bits_eachEvent`
for a loop whose turns differ. -/
theorem exists_bits_eachEvent_turns {q : Pins → List Event → Event → Prop} {turn : Nat → Bool → List Event}
    (hturn : ∀ k p h, ∃ u, EachEvent q p h (turn k u)) {l : List Nat} (hl : l.Nodup) (p : Pins) (h : List Event) :
    ∃ f : Nat → Bool, EachEvent q p h (l.flatMap fun k => turn k (f k)) := by
  induction l generalizing p h with
  | nil => exact ⟨fun _ => false, trivial⟩
  | cons k rest ih =>
    obtain ⟨hk, hrest⟩ := List.nodup_cons.1 hl
    obtain ⟨u, hu⟩ := hturn k p h
    obtain ⟨f, hf⟩ := ih hrest ((turn k u).foldl pinsAfter p) (h ++ turn k u)
    refine ⟨Function.update f k u, ?_⟩
    have hsame : ∀ j ∈ rest, turn j (Function.update f k u j) = turn j (f j) := fun j hj => by
      rw [Function.update_of_ne (ne_of_mem_of_not_mem hj hk)]
    rw [List.flatMap_cons, Function.update_self, List.flatMap_congr hsame]
    exact eachEvent_append.2 ⟨hu, hf⟩

section
variable (env : Oracle) (c : SpiCfg) (n : Nat) (o : Half) (smp : Bool)

/-- `SHIFT` reads no line but MISO, which reads what the bus answers. -/
theorem shiftLoop_readsLine_iff (f : Nat → Bool) (p : Pins) (h : List Event) :
    EachEvent (ReadsLine env) p h (shiftLoopEvents c n o smp f) ↔
      EachEvent (ReadsBus env) p h (shiftLoopEvents c n o smp f) := by
  induction n generalizing p h with
  | zero => exact Iff.rfl
  | succ n ih =>
    rw [shiftLoopEvents_succ, eachEvent_append, eachEvent_append, ih]
    refine and_congr_left' ?_
    cases smp <;> by_cases hn : n = 0 <;> simp only [shiftBitEvents, hn] <;> exact Iff.rfl

/-- The sample of a bit reads what the bus answers to it. -/
theorem exists_shiftBitEvents_readsBus (k : Nat) (p : Pins) (h : List Event) :
    ∃ u, EachEvent (ReadsBus env) p h (shiftBitEvents c o smp k u) := by
  refine ⟨env .miso (h ++ [.drive .mosi (o.getLsbD k), .drive .sck c.sample]), ?_⟩
  cases smp <;> by_cases hk : k = 0 <;> simp [shiftBitEvents, hk, EachEvent, ReadsBus]

/-- On every bus the samples of `SHIFT` read some bits. -/
theorem exists_shiftEvents_readsBus (p : Pins) (h : List Event) :
    ∃ f, EachEvent (ReadsBus env) p h (.drive .sck c.prop :: shiftLoopEvents c n o smp f) := by
  obtain ⟨f, hf⟩ := exists_bits_eachEvent_turns (exists_shiftBitEvents_readsBus env c o smp) (downFrom_nodup n)
    (pinsAfter p (.drive .sck c.prop)) (h ++ [.drive .sck c.prop])
  exact ⟨f, trivial, eachEvent_append.2 ⟨hf, trivial, trivial⟩⟩

end

/-- A half-word with the given low bits. -/
theorem exists_half (n : Nat) (f : Nat → Bool) (hn : n ≤ 16) :
    ∃ x : Half, x >>> n = 0 ∧ ∀ k < n, x.getLsbD k = f k := by
  refine ⟨BitVec.ofFnLE fun k => decide (k < n) && f k, BitVec.eq_of_getLsbD_eq fun k hk => ?_, fun k hk => ?_⟩
  · by_cases hnk : n + k < 16
    · simp [hnk]
    · simp [BitVec.getLsbD_of_ge _ (n + k) (Nat.le_of_not_lt hnk)]
  · simp [hk, show k < 16 by omega]

/-- On every bus the samples of `SHIFT(n, o, true)` read the bits of some `n`-bit value. -/
theorem exists_agrees_shiftExchangeEvents (env : Oracle) (h : List Event) (c : SpiCfg) {n : Nat} (hn : n ≤ 16)
    (o : Half) : ∃ x : Half, x >>> n = 0 ∧ Agrees env h (shiftExchangeEvents c n o x) := by
  obtain ⟨f, hf⟩ := exists_shiftEvents_readsBus env c n o true State.reset.pins h
  obtain ⟨x, hx, hbits⟩ := exists_half n f hn
  refine ⟨x, hx, (agrees_iff State.reset.pins).2 ?_⟩
  rw [shiftExchangeEvents_eq, shiftLoopEvents, List.flatMap_congr fun k hk => by rw [hbits k (mem_downFrom.1 hk)]]
  exact hf

/-! ### What `SHIFT` leaves in `s.r` (R206) -/

section
variable (c : SpiCfg) (o : Half)

/-- Each sample of the bit loop is stored in its bit. -/
theorem after_shiftBits_r (f : Nat → Bool) (l : List Nat) (q : Regs) :
    (q.after (forBits l (shiftBitText c o true)) (l.flatMap fun k => shiftBitEvents c o true k (f k))).r =
      l.foldl (fun r k => setBit r k (f k)) q.r := by
  induction l generalizing q with
  | nil => rfl
  | cons k rest ih =>
    rw [forBits, List.flatMap_cons, List.flatMap_cons, Regs.after_append (emits_before (shiftBitText_emits ..))]
    refine (ih _).trans (congrArg (fun r => rest.foldl (fun r k => setBit r k (f k)) r) ?_)
    cases k with
    | zero => rfl
    | succ k => rfl

theorem getLsbD_of_ushiftRight_eq_zero {x : Half} {n : Nat} (hx : x >>> n = 0) {j : Nat} (hj : n ≤ j) :
    x.getLsbD j = false := by
  obtain ⟨k, rfl⟩ := Nat.exists_eq_add_of_le hj
  rw [← BitVec.getLsbD_ushiftRight, hx]
  exact BitVec.getLsbD_zero

/-- The sampled bits are what the `μDONE` of a read writes to `RESULT`. -/
theorem lowBits_after_shiftText {n : Nat} {x : Half} (hx : x >>> n = 0) (q : Regs) :
    lowBits n (q.after (shiftText c n o true) (.drive .sck c.prop :: shiftLoopEvents c n o true x.getLsbD)).r = x := by
  have hr : (q.after (shiftText c n o true) (.drive .sck c.prop :: shiftLoopEvents c n o true x.getLsbD)).r =
      (downFrom n).foldl (fun r k => setBit r k (x.getLsbD k)) 0 := by
    rw [shiftText, List.append_assoc]
    refine Eq.trans (congrArg Regs.r (Regs.after_append (shiftBits_emit c o true x.getLsbD _) { q with r := 0 } _ _)) ?_
    exact after_shiftBits_r c o _ _ _
  refine BitVec.eq_of_getLsbD_eq fun j hj => ?_
  rw [hr, getLsbD_lowBits n _ hj, getLsbD_foldl_setBit _ _ _ hj]
  by_cases hjn : j < n
  · simp [mem_downFrom, hjn]
  · simp [hjn, getLsbD_of_ushiftRight_eq_zero hx (Nat.le_of_not_lt hjn)]

end

/-! ### The transfers (R207 to R211, R215) -/

/-- A command that is `SHIFT(n, o, false)` ends with its operand sent. -/
theorem shiftOut_finishes {env : Oracle} {s : State} {i : Instr} {n : Nat} {o : Half} (hfree : s.free) (hn : 1 ≤ n) :
    (seqRun env (3 * n + 2) (accept i (shiftText s.spi n o false ++ [plain (.done [])]) s)).finishedAs
      { s.view with
        pins := { s.pins with sck := { dir := .output, latch := some s.spi.idle },
                              mosi := { dir := .output, latch := some (o.getLsbD 0) } }
        hist := s.hist ++ shiftOutEvents s.spi n o } := by
  obtain ⟨f, hf⟩ := exists_shiftEvents_readsBus env s.spi n o false s.pins s.hist
  have hread := And.imp_right (shiftLoop_readsLine_iff env s.spi n o false f _ _).2 hf
  have hfin := finishedAs_accept_pins (env := env) (i := i) hfree (shiftText_emits s.spi o false f n) rfl rfl hread
  rw [length_shiftText _ _ _ hn, List.foldl_cons, pinsAfter_shiftLoopEvents _ _ _ _ hn, ← shiftOutEvents_eq] at hfin
  exact hfin

/-- A command that is `SHIFT(n, o, true)` ends with the sampled bits in `RESULT`. -/
theorem shiftExchange_finishes {env : Oracle} {s : State} {i : Instr} {n : Nat} {o x : Half} (hfree : s.free)
    (hn : 1 ≤ n) (hx : x >>> n = 0) (ha : Agrees env s.hist (shiftExchangeEvents s.spi n o x)) :
    (seqRun env (4 * n + 2)
      (accept i (shiftText s.spi n o true ++ [plain (.done [.result (.shiftLow n)])]) s)).finishedAs
      { s.view with
        value := x
        pins := { s.pins with sck := { dir := .output, latch := some s.spi.idle },
                              mosi := { dir := .output, latch := some (o.getLsbD 0) } }
        hist := s.hist ++ shiftExchangeEvents s.spi n o x } := by
  rw [agrees_iff s.pins, shiftExchangeEvents_eq] at ha
  have hread := And.imp_right (shiftLoop_readsLine_iff env s.spi n o true x.getLsbD _ _).2 ha
  have hlength : 4 * n + 2 = (shiftText s.spi n o true).length + 1 := by rw [length_shiftText _ _ _ hn]; rfl
  refine finishedAs_accept (shiftText_emits s.spi o true x.getLsbD n) rfl hlength hread ?_
  show ({ s.view with
          value := lowBits n (s.regs.after (shiftText s.spi n o true)
            (.drive .sck s.spi.prop :: shiftLoopEvents s.spi n o true x.getLsbD)).r
          busy := false
          pins := (shiftLoopEvents s.spi n o true x.getLsbD).foldl pinsAfter (pinsAfter s.pins (.drive .sck s.spi.prop))
          hist := s.hist ++ .drive .sck s.spi.prop :: shiftLoopEvents s.spi n o true x.getLsbD } : View) = _
  rw [lowBits_after_shiftText s.spi o hx, pinsAfter_shiftLoopEvents _ _ _ _ hn, ← shiftExchangeEvents_eq,
    view_of_free hfree]
  rfl

theorem getLsbD_zero_setWidth (b : Byte) : (b.setWidth 16).getLsbD 0 = b.getLsbD 0 := by simp

/-- Settles O35: both are `SHIFT` without sampling. -/
theorem spiWritesShiftTheirOperand : Obligations.SpiWritesShiftTheirOperand := by
  unfold Obligations.SpiWritesShiftTheirOperand
  intro s hready hc
  obtain ⟨hwidth, _⟩ := Config.valid_bounds hc
  refine ⟨fun b => ⟨_, exec_accepts_of_ready hready rfl rfl, fun env => ?_⟩,
    fun v hv => ⟨_, exec_accepts_of_ready hready (decide_eq_true hv) rfl, fun env => ?_⟩⟩
  · have hfin := shiftOut_finishes (env := env) (i := .spiWriteB b) (o := b.setWidth 16) hready.1 (show 1 ≤ 8 by decide)
    rw [getLsbD_zero_setWidth] at hfin
    exact hfin
  · exact shiftOut_finishes hready.1 hwidth

theorem getLsbD_zero_fill {n : Nat} (hn : 1 ≤ n) (v : Bool) : (fill n v).getLsbD 0 = v := by
  cases v
  · simp [fill]
  · rw [fill, if_pos rfl, BitVec.getLsbD_ofNat, Nat.testBit_two_pow_sub_one]
    simpa [Nat.pos_iff_ne_zero] using Nat.ne_of_gt hn

theorem exists_eq_setWidth_of_ushiftRight {x : Half} (hx : x >>> 8 = 0) : ∃ b : Byte, x = b.setWidth 16 :=
  ⟨x.setWidth 8, by bv_omega⟩

/-- Settles O36: the three are `SHIFT` with sampling, whose samples read some bits. -/
theorem spiReadsReturnSampledBits : Obligations.SpiReadsReturnSampledBits := by
  unfold Obligations.SpiReadsReturnSampledBits
  intro s hready hc
  obtain ⟨hwidth, h16, _⟩ := Config.valid_bounds hc
  have h8 : 1 ≤ 8 := by decide
  refine ⟨⟨_, exec_accepts_of_ready hready rfl rfl, fun env => ?_⟩,
    ⟨_, exec_accepts_of_ready hready rfl rfl, fun env => ?_⟩,
    fun b => ⟨_, exec_accepts_of_ready hready rfl rfl, fun env => ?_⟩⟩
  · obtain ⟨x, hx, ha⟩ := exists_agrees_shiftExchangeEvents env s.hist s.spi (n := 8) (by decide)
      (fill 8 s.cfg.spiReadFill)
    have hfin := shiftExchange_finishes (i := .spiReadB) hready.1 h8 hx ha
    obtain ⟨y, rfl⟩ := exists_eq_setWidth_of_ushiftRight hx
    rw [getLsbD_zero_fill h8] at hfin
    exact ⟨y, ha, hfin⟩
  · obtain ⟨x, hx, ha⟩ := exists_agrees_shiftExchangeEvents env s.hist s.spi h16
      (fill s.cfg.spiWidth s.cfg.spiReadFill)
    have hfin := shiftExchange_finishes (i := .spiReadN) hready.1 hwidth hx ha
    rw [getLsbD_zero_fill hwidth] at hfin
    exact ⟨x, hx, ha, hfin⟩
  · obtain ⟨x, hx, ha⟩ := exists_agrees_shiftExchangeEvents env s.hist s.spi (n := 8) (by decide) (b.setWidth 16)
    have hfin := shiftExchange_finishes (i := .spiXmit b) hready.1 h8 hx ha
    obtain ⟨y, rfl⟩ := exists_eq_setWidth_of_ushiftRight hx
    rw [getLsbD_zero_setWidth] at hfin
    exact ⟨y, ha, hfin⟩

/-! ### The loopback (R216) -/

section
variable {env : Oracle} (hwire : ∀ h v, lastDriven .mosi h = some v → env .miso h = v)
include hwire

/-- With MOSI wired to MISO, the sample of a bit reads the bit on MOSI. -/
theorem shiftBitEvents_loopback (c : SpiCfg) (o : Half) (smp : Bool) (k : Nat) (p : Pins) (h : List Event) :
    EachEvent (ReadsBus env) p h (shiftBitEvents c o smp k (o.getLsbD k)) := by
  have hsample : env .miso (h ++ [.drive .mosi (o.getLsbD k), .drive .sck c.sample]) = o.getLsbD k :=
    hwire _ _ (by simp [lastDriven])
  cases smp <;> by_cases hk : k = 0 <;> simp [shiftBitEvents, hk, EachEvent, ReadsBus] at hsample ⊢ <;> exact hsample

/-- With MOSI wired to MISO, the samples of `SHIFT(n, o, true)` read the bits of `o`. -/
theorem agrees_loopback (h : List Event) (c : SpiCfg) (n : Nat) (o : Half) :
    Agrees env h (shiftExchangeEvents c n o o) := by
  have hloop := (eachEvent_flatMap (inv := fun _ => True) (turn := fun k => shiftBitEvents c o true k (o.getLsbD k))
    (fun k p h _ => ⟨shiftBitEvents_loopback hwire c o true k p h, trivial⟩)
    (p := pinsAfter State.reset.pins (.drive .sck c.prop)) trivial (h ++ [.drive .sck c.prop]) (downFrom n)).1
  rw [agrees_iff State.reset.pins, shiftExchangeEvents_eq]
  exact ⟨trivial, eachEvent_append.2 ⟨hloop, trivial, trivial⟩⟩

end

/-- Settles O37: the bits sampled are the bits sent. -/
theorem spiLoopbackReturnsTheByte : Obligations.SpiLoopbackReturnsTheByte := by
  unfold Obligations.SpiLoopbackReturnsTheByte
  intro s b hready
  refine ⟨_, exec_accepts_of_ready hready rfl rfl, fun env hwire => ?_⟩
  have hfin := shiftExchange_finishes (i := .spiXmit b) hready.1 (show 1 ≤ 8 by decide) (by bv_omega)
    (agrees_loopback hwire s.hist s.spi 8 (b.setWidth 16))
  exact ⟨hfin.value, hfin.busy.trans hready.1.2⟩

/-! ### The clock's edges (R213) -/

/-- Every change of level goes onto one of the two levels. -/
theorem sckEdges_eq_add (v : Bool) (latch : Option Bool) (events : List Event) :
    sckEdges latch events = sckEdgesOnto v latch events + sckEdgesOnto (!v) latch events := by
  induction events generalizing latch with
  | nil => rfl
  | cons e rest ih =>
    cases e with
    | drive l u =>
      cases l with
      | sck =>
        have honto : (if latch = some (!u) then 1 else 0) =
            (if latch = some (!u) ∧ u = v then 1 else 0) + if latch = some (!u) ∧ u = !v then 1 else 0 := by
          cases u <;> cases v <;> simp
        simp only [sckEdges, sckEdgesOnto, ih (some u), honto]
        omega
      | _ => exact ih latch
    | _ => exact ih latch

section
variable {c : SpiCfg} (hc : c.prop = !c.sample) (o : Half) (smp : Bool)
include hc

/-- A bit but the last makes an edge onto the sampling level and one back, so one onto each level. -/
theorem sckEdgesOnto_shiftBitEvents {k : Nat} (hk : k ≠ 0) (u v : Bool) (rest : List Event) :
    sckEdgesOnto v (some c.prop) (shiftBitEvents c o smp k u ++ rest) = 1 + sckEdgesOnto v (some c.prop) rest := by
  cases smp <;> cases v <;> cases hs : c.sample <;> simp [shiftBitEvents, sckEdgesOnto, hk, hc, hs]

/-- The last bit makes an edge onto the sampling level, and one edge goes onto the other level: the idle restore if the
idle level is the propagation level, and the first drive of `SHIFT` otherwise. -/
theorem sckEdgesOnto_last (u v : Bool) :
    (if some c.idle = some (!c.prop) ∧ c.prop = v then 1 else 0) +
      sckEdgesOnto v (some c.prop) (shiftBitEvents c o smp 0 u ++ [.drive .sck c.idle]) = 1 := by
  cases smp <;> cases v <;> cases hs : c.sample <;> cases c.idle <;>
    simp [shiftBitEvents, sckEdgesOnto, hc, hs]

/-- Started at the idle level, `SHIFT` of `n` bits makes `n` edges onto each level. -/
theorem sckEdgesOnto_shift {n : Nat} (hn : 1 ≤ n) (f : Nat → Bool) (v : Bool) :
    sckEdgesOnto v (some c.idle) (.drive .sck c.prop :: shiftLoopEvents c n o smp f) = n := by
  rw [sckEdgesOnto]
  induction n, hn using Nat.le_induction with
  | base => rw [shiftLoopEvents_succ]; exact sckEdgesOnto_last hc o smp (f 0) v
  | succ n hn ih =>
    rw [shiftLoopEvents_succ, sckEdgesOnto_shiftBitEvents hc o smp (Nat.ne_of_gt hn)]
    omega

end

/-- A transfer is `SHIFT` of its bits, and then its `μDONE`. -/
theorem microprogram_transfer {c : Config} {i : Instr} {n : Nat} (h : transferBits c i = some n) (spi : SpiCfg) :
    unitOf i = .spi ∧ ∃ o smp us, microprogram c spi i = shiftText spi n o smp ++ [plain (.done us)] := by
  cases i with
  | spiWriteB b | spiWriteN v | spiReadB | spiReadN | spiXmit b =>
    cases h
    exact ⟨rfl, _, _, _, rfl⟩
  | _ => cases h

theorem transferBits_pos {c : Config} (hc : c.valid = true) {i : Instr} {n : Nat} (h : transferBits c i = some n) :
    1 ≤ n := by
  cases i with
  | spiWriteN v | spiReadN => cases h; exact (Config.valid_bounds hc).1
  | spiWriteB b | spiReadB | spiXmit b => cases h; decide
  | _ => cases h

/-- Settles O39: the events are those of `SHIFT`, whichever bits it sends and samples. -/
theorem spiTransferMakesTwoEdgesPerBit : Obligations.SpiTransferMakesTwoEdgesPerBit := by
  unfold Obligations.SpiTransferMakesTwoEdgesPerBit
  intro s m i n hready hc hmode hlatch hw hbits
  obtain ⟨hunit, o, smp, us, htext⟩ := microprogram_transfer hbits s.spi
  refine ⟨_, exec_accepts_of_ready hready hw hunit, fun env => ?_⟩
  have hn := transferBits_pos hc hbits
  have hprop : s.spi.prop = !s.spi.sample := by rw [hmode, (modeCfg_invariants m).1, Bool.not_not]
  have honto (f : Nat → Bool) (v : Bool) := sckEdgesOnto_shift hprop o smp hn f v
  obtain ⟨f, hf⟩ := exists_shiftEvents_readsBus env s.spi n o smp s.pins s.hist
  have hread := And.imp_right (shiftLoop_readsLine_iff env s.spi n o smp f _ _).2 hf
  have hfin := finishedAs_accept (i := i) (us := us) (shiftText_emits s.spi o smp f n) rfl rfl hread rfl
  rw [hlatch, htext, List.length_append, List.length_singleton]
  refine ⟨_, hfin.busy, hfin.hist.trans (microDone_hist _ _), ?_, honto f _, honto f _⟩
  · rw [sckEdges_eq_add s.spi.sample, honto, honto]; omega

end Sys2Proof.Machine
end

section
/-! PROOFS. The statements of spec/43_uart.md: what each UART command does from its acceptance to its end (R251 to
R254). -/

namespace Sys2Proof.Machine

/-! ### `UART.INIT` (R251) -/

theorem uartInit_emits : List.Forall₂ Emits uartInitText.dropLast [.drive .tx true, .dirIn .rx] := by repeat constructor

/-- Settles O40: the text emits the two events, and the `μDONE` sets the flag. -/
theorem uartInitConfiguresLines : Obligations.UartInitConfiguresLines := by
  unfold Obligations.UartInitConfiguresLines
  intro s hfree
  refine ⟨_, exec_accepts rfl hfree.1 hfree.2 (.inl rfl), fun env => ?_⟩
  refine finishedAs_accept uartInit_emits (us := [.init .uart]) rfl rfl ⟨trivial, trivial, trivial⟩ ?_
  rw [view_of_free hfree]
  rfl

/-! ### `UART.WRITE` (R252) -/

/-- The events of one level of a frame. -/
def levelEvents (v : Bool) : List Event := [.drive .tx v, .delay .bit]

theorem uartWriteEvents_eq (b : Byte) :
    uartWriteEvents b = levelEvents false ++ ((upTo 8).flatMap fun k => levelEvents (b.getLsbD k)) ++
      levelEvents true := rfl

theorem uartLevel_emits (v : Bool) : List.Forall₂ Emits (uartLevel v) (levelEvents v) := by repeat constructor

/-- `UART.WRITE` but for its `μDONE`: the frame. -/
def frameBody (b : Byte) : List MicroStep :=
  uartLevel false ++ forBits (upTo 8) (fun k => uartLevel (b.getLsbD k)) ++ uartLevel true

theorem frameBody_emits (b : Byte) : List.Forall₂ Emits (frameBody b) (uartWriteEvents b) := by
  rw [uartWriteEvents_eq]
  exact List.rel_append (List.rel_append (uartLevel_emits _) (emits_forBits (fun _ => uartLevel_emits _) _))
    (uartLevel_emits _)

/-- A frame reads no line. -/
theorem levels_readsLine (env : Oracle) (levels : List Bool) (p : Pins) (h : List Event) :
    EachEvent (ReadsLine env) p h (levels.flatMap levelEvents) := by
  induction levels generalizing p h with
  | nil => trivial
  | cons v rest ih => exact ⟨trivial, trivial, ih _ _⟩

/-- A frame leaves TX at its last level, and the other lines alone. -/
theorem pinsAfter_levels (levels : List Bool) (v : Bool) (p : Pins) :
    ((levels ++ [v]).flatMap levelEvents).foldl pinsAfter p =
      { p with tx := { dir := .output, latch := some v } } := by
  induction levels generalizing p with
  | nil => rfl
  | cons u rest ih =>
    rw [List.cons_append, List.flatMap_cons, List.foldl_append, ih]
    rfl

theorem pinsAfter_uartWriteEvents (b : Byte) (p : Pins) :
    (uartWriteEvents b).foldl pinsAfter p = { p with tx := { dir := .output, latch := some true } } :=
  pinsAfter_levels ([false] ++ (upTo 8).map b.getLsbD) true p

/-- Settles O41: the text emits the frame and reads no line. -/
theorem uartWriteSendsOneFrame : Obligations.UartWriteSendsOneFrame := by
  unfold Obligations.UartWriteSendsOneFrame
  intro s b hready
  refine ⟨_, exec_accepts_of_ready hready rfl rfl, fun env => ?_⟩
  rw [← pinsAfter_uartWriteEvents b]
  exact finishedAs_accept_pins hready.1 (frameBody_emits b) rfl rfl (levels_readsLine env _ _ _)

/-! ### `STARTDETECT` (R253) -/

theorem agrees_append {env : Oracle} {h x y : List Event} :
    Agrees env h (x ++ y) ↔ Agrees env h x ∧ Agrees env (h ++ x) y := by
  rw [agrees_iff State.reset.pins, eachEvent_append, ← agrees_iff, ← agrees_iff]

/-- The polls of a wait for the level `v`: `k` that read otherwise, and the one that reads it (R118). -/
def pollsUntil (l : WaitedLine) (v : Bool) (k : Nat) : List Event :=
  List.replicate k (.poll l.line (!v)) ++ [.poll l.line v]

theorem length_pollsUntil (l : WaitedLine) (v : Bool) (k : Nat) : (pollsUntil l v k).length = k + 1 := by
  simp [pollsUntil]

theorem pollsUntil_succ (l : WaitedLine) (v : Bool) (k : Nat) :
    pollsUntil l v (k + 1) = .poll l.line (!v) :: pollsUntil l v k := rfl

/-- A wait takes one step for each of its polls. A `s.r <- 0` before it is done again with each poll, to no other effect
than once (R123). -/
theorem seqRun_pollsUntil {env : Oracle} {s : State} {pre : List Assign} (hpre : pre = [] ∨ pre = [.clearShift])
    {l : WaitedLine} {v : Bool} {rest : List MicroStep} (hpc : s.pc = ⟨pre, .wait l v⟩ :: rest) (k : Nat)
    (hread : EachEvent (ReadsLine env) s.pins s.hist (pollsUntil l v k)) :
    seqRun env (k + 1) s = { assignAll pre s with v := v, hist := s.hist ++ pollsUntil l v k, pc := rest } := by
  have hstep := seqStep_wait env hpc
  induction k generalizing s with
  | zero =>
    have hv : readLine env l.line s = v := (readLine_eq_lineLevel env _ s).trans hread.1
    rw [seqRun_succ, seqRun_zero, hstep, hv, if_pos rfl]
    rfl
  | succ k ih =>
    obtain ⟨hfirst, hmore⟩ := hread
    have hv : readLine env l.line s = !v := (readLine_eq_lineLevel env _ s).trans hfirst
    rw [hv, if_neg (by simp)] at hstep
    have hpc' : (seqStep env s).pc = ⟨pre, .wait l v⟩ :: rest := by rw [hstep]; exact hpc
    have hread' : EachEvent (ReadsLine env) (seqStep env s).pins (seqStep env s).hist (pollsUntil l v k) := by
      rw [hstep, assignAll_pins]; exact hmore
    rw [seqRun_succ, ih hpc' hread' (seqStep_wait env hpc'), hstep]
    rcases hpre with rfl | rfl <;> simp [pollsUntil_succ]

theorem startPolls_level (q p : Nat) : startPolls .level q p = pollsUntil .rx false p := rfl

theorem startPolls_edge (q p : Nat) : startPolls .edge q p = pollsUntil .rx true q ++ pollsUntil .rx false p :=
  List.append_assoc ..

/-- RX reads what the bus answers, whatever its direction (R121). -/
theorem pollsUntil_rx_readsLine {env : Oracle} {v : Bool} {k : Nat} {h : List Event}
    (ha : Agrees env h (pollsUntil .rx v k)) (p : Pins) : EachEvent (ReadsLine env) p h (pollsUntil .rx v k) := by
  rw [agrees_iff p] at ha
  induction k generalizing h with
  | zero => exact ha
  | succ k ih => exact ⟨ha.1, ih ha.2⟩

/-- The start bit is detected at the last of the polls, with `s.r` cleared. -/
theorem seqRun_startDetect {env : Oracle} {s : State} {d : StartDetect} {rest : List MicroStep}
    (hpc : s.pc = before [.clearShift] (startDetectText d) ++ rest) (q p : Nat)
    (ha : Agrees env s.hist (startPolls d q p)) :
    seqRun env (startPolls d q p).length s =
      { s with r := 0, v := false, hist := s.hist ++ startPolls d q p, pc := rest } := by
  cases d with
  | level =>
    rw [startPolls_level] at ha ⊢
    rw [length_pollsUntil, seqRun_pollsUntil (.inr rfl) hpc p (pollsUntil_rx_readsLine ha _)]
    rfl
  | edge =>
    rw [startPolls_edge, agrees_append] at ha
    obtain ⟨hhigh, hlow⟩ := ha
    rw [startPolls_edge, List.length_append, length_pollsUntil, length_pollsUntil, seqRun_add,
      seqRun_pollsUntil (.inr rfl) hpc q (pollsUntil_rx_readsLine hhigh _),
      seqRun_pollsUntil (.inl rfl) rfl p (pollsUntil_rx_readsLine hlow _), ← List.append_assoc]
    rfl

/-! ### `UART.READ` (R254) -/

/-- The events of one data bit of `UART.READ`, the sample reading `u`. -/
def uartReadBitEvents (k : Nat) (u : Bool) : List Event := [.sample .rx u] ++ (if k = 7 then [] else [.delay .bit])

theorem uartReadEvents_eq (x : Byte) :
    uartReadEvents x = .delay .bit15 :: (upTo 8).flatMap fun k => uartReadBitEvents k (x.getLsbD k) := rfl

theorem uartReadBit_emits (k : Nat) (u : Bool) : List.Forall₂ Emits (uartReadBit k) (uartReadBitEvents k u) := by
  refine .cons (.sample _ _ _) ?_
  by_cases hk : k = 7
  · rw [if_pos hk, if_neg (not_not.2 hk)]
    exact .nil
  · rw [if_neg hk, if_pos hk]
    exact .cons (.delay _) .nil

/-- `UART.READ` between the start bit's detection and its `μDONE`. -/
def samplingBody : List MicroStep := plain (.delay .bit15) :: forBits (upTo 8) uartReadBit

theorem uartReadText_eq (d : StartDetect) :
    uartReadText d = before [.clearShift] (startDetectText d) ++
      (samplingBody ++ [plain (.done [.result (.shiftLow 8)])]) := by
  simp [uartReadText, samplingBody]

theorem samplingBody_emits (x : Byte) : List.Forall₂ Emits samplingBody (uartReadEvents x) :=
  .cons (.delay _) (emits_forBits (fun k => uartReadBit_emits k (x.getLsbD k)) _)

/-- The samples are on RX, which reads what the bus answers, whatever its direction (R121). -/
theorem uartReadEvents_readsLine {env : Oracle} {h : List Event} {x : Byte} (ha : Agrees env h (uartReadEvents x))
    (p : Pins) : EachEvent (ReadsLine env) p h (uartReadEvents x) :=
  (agrees_iff p).1 ha

/-- On every bus the samples of `UART.READ` read the bits of some byte. -/
theorem exists_agrees_uartReadEvents (env : Oracle) (h : List Event) : ∃ x, Agrees env h (uartReadEvents x) := by
  have hturn (k : Nat) (p : Pins) (h : List Event) : ∃ u, EachEvent (ReadsBus env) p h (uartReadBitEvents k u) :=
    ⟨env .rx h, by by_cases hk : k = 7 <;> simp [uartReadBitEvents, hk, EachEvent, ReadsBus]⟩
  obtain ⟨f, hf⟩ := exists_bits_eachEvent_turns hturn (l := upTo 8) List.nodup_range State.reset.pins
    (h ++ [.delay .bit15])
  obtain ⟨x, hx⟩ := exists_byte f
  refine ⟨x, (agrees_iff State.reset.pins).2 ?_⟩
  rw [uartReadEvents_eq, List.flatMap_congr fun k hk => by rw [hx k (List.mem_range.1 hk)]]
  exact ⟨trivial, hf⟩

/-- The sampled byte is what the `μDONE` writes to `RESULT`, `s.r` having been cleared. -/
theorem lowBits_after_samplingBody {q : Regs} (hq : q.r = 0) (x : Byte) :
    lowBits 8 (q.after samplingBody (uartReadEvents x)).r = x.setWidth 16 := by
  have hr : (q.after samplingBody (uartReadEvents x)).r =
      (upTo 8).foldl (fun r k => setBit r k (x.getLsbD k)) q.r := rfl
  refine BitVec.eq_of_getLsbD_eq fun j hj => ?_
  rw [hr, hq, getLsbD_lowBits 8 _ hj, getLsbD_foldl_setBit _ _ _ hj, BitVec.getLsbD_setWidth]
  by_cases h8 : j < 8
  · simp [upTo, h8, hj]
  · simp [h8, BitVec.getLsbD_of_ge x j (by omega)]

/-- After the start bit's detection, `UART.READ` ends with the sampled byte in `RESULT`; `h` is the history then. -/
theorem sampling_finishes {env : Oracle} {s : State} {u : Bool} {h : List Event} {x : Byte} (hfree : s.free)
    (ha : Agrees env h (uartReadEvents x)) :
    (seqRun env 17 (accept .uartRead (samplingBody ++ [plain (.done [.result (.shiftLow 8)])])
      { s with r := 0, v := u, hist := h })).finishedAs
      { s.view with value := x.setWidth 16, hist := h ++ uartReadEvents x } := by
  refine finishedAs_accept (samplingBody_emits x) rfl rfl (uartReadEvents_readsLine ha _) ?_
  rw [view_of_free hfree, ← lowBits_after_samplingBody (q := { s.regs with r := 0, v := u }) rfl x]
  rfl

/-- Settles O42: the polls detect the start bit, and then the samples read the bits of some byte. -/
theorem uartReadReturnsSampledByte : Obligations.UartReadReturnsSampledByte := by
  unfold Obligations.UartReadReturnsSampledByte
  intro s hready
  refine ⟨_, exec_accepts_of_ready hready rfl rfl, fun env q p hpolls => ?_⟩
  obtain ⟨x, hx⟩ := exists_agrees_uartReadEvents env (s.hist ++ startPolls s.cfg.uartStartDetect q p)
  refine ⟨x, agrees_append.2 ⟨hpolls, hx⟩, ?_⟩
  rw [seqRun_add, microprogram,
    seqRun_startDetect (s := accept .uartRead (uartReadText _) s) (uartReadText_eq s.cfg.uartStartDetect) q p hpolls]
  exact sampling_finishes hready.1 hx

end Sys2Proof.Machine
end

section
/-! PROOFS. The statements of spec/44_composite.md: the bytes of a value (R291, R292, R304), what a composite command
expands into (R293 to R301), and what its accesses do, also once a fault has been recorded in it (R290). -/

namespace Sys2Proof.Machine

/-! ### The bytes of a value (R291, R292, R294) -/

theorem downFrom_eq_reverse (n : Nat) : downFrom n = (upTo n).reverse := by
  induction n with
  | zero => rfl
  | succ n ih => simp [downFrom, ih, upTo, List.range_succ]

/-- The order of `BIG` is that of `LITTLE` reversed (R291). -/
theorem valueBytes_big (k : Nat) (v : Word) : valueBytes .big k v = (valueBytes .little k v).reverse := by
  simp [valueBytes, downFrom_eq_reverse]

/-- The bytes as the rules write them are those the model sends (R291, R292). -/
theorem wireBytes_eq (order : ByteOrder) (v : Value) : wireBytes order v = valueBytes order v.kind.size v.bits := by
  cases order
  case little => rfl
  case big => rw [valueBytes_big]; rfl

/-- Bit i of the joined value is bit i mod 8 of byte i / 8, least-significant byte first (R294). -/
theorem getLsbD_joinLittle {bytes : List Byte} {i : Nat} (hi : i < 32) :
    (joinLittle bytes).getLsbD i = (bytes.getD (i / 8) 0).getLsbD (i % 8) := by
  induction bytes generalizing i with
  | nil => simp [joinLittle]
  | cons b rest ih =>
    simp only [joinLittle, BitVec.getLsbD_or, BitVec.getLsbD_shiftLeft, BitVec.getLsbD_setWidth, hi, decide_true,
      Bool.true_and]
    by_cases h8 : i < 8
    · simp [h8, Nat.div_eq_of_lt h8, Nat.mod_eq_of_lt h8]
    · have hdiv : i / 8 = (i - 8) / 8 + 1 := by omega
      have hmod : i % 8 = (i - 8) % 8 := by omega
      rw [ih (by omega), BitVec.getLsbD_of_ge b i (by omega), hdiv, hmod]
      simp [h8]

/-- The first k bytes of a word, joined, are the word, if no bit of it lies beyond them. -/
theorem joinLittle_valueBytes {k : Nat} {v : Word} (hv : ∀ i, 8 * k ≤ i → v.getLsbD i = false) :
    joinLittle (valueBytes .little k v) = v := by
  refine BitVec.eq_of_getLsbD_eq fun i hi => ?_
  rw [getLsbD_joinLittle hi]
  by_cases hk : i / 8 < k
  · have hbit : 8 * (i / 8) + i % 8 = i := Nat.div_add_mod i 8
    simp [valueBytes, upTo, byteAt, hk, hbit, Nat.mod_lt]
  · rw [hv i (by omega)]
    simp [valueBytes, upTo, hk]

/-- A value has no bit beyond the bytes of its kind (R292). -/
theorem Value.getLsbD_bits_of_ge (v : Value) {i : Nat} (hi : 8 * v.kind.size ≤ i) : v.bits.getLsbD i = false := by
  cases v with
  | u16 v => simp [Value.bits, BitVec.getLsbD_of_ge v i hi]
  | u24 v => simp [Value.bits, BitVec.getLsbD_of_ge v i hi]
  | u32 v => exact BitVec.getLsbD_of_ge v i hi
  | f32 v => exact BitVec.getLsbD_of_ge v i hi

/-- A value's bytes, joined in the order they were sent in, give the value (R304). -/
theorem joinBytes_valueBytes (order : ByteOrder) (v : Value) :
    joinBytes order (valueBytes order v.kind.size v.bits) = v.bits := by
  have hjoin := joinLittle_valueBytes (k := v.kind.size) (v := v.bits) fun _ => v.getLsbD_bits_of_ge
  cases order
  case little => exact hjoin
  case big => simpa [joinBytes, valueBytes_big] using hjoin

/-- Settles O54: by the bits of the joined value; the other order is the reverse by its definition. -/
theorem valueBytesRoundTrip : Obligations.ValueBytesRoundTrip := by
  unfold Obligations.ValueBytesRoundTrip
  exact fun v order => ⟨joinBytes_valueBytes order v, rfl, valueBytes_big _ _⟩

/-! ### What is left of the host's program is all that a due access changes -/

section
variable {s t : State} {op : HostOp}

theorem State.due.cfg_eq (h : s.due op t) : t.cfg = s.cfg := by rw [State.due_state h]
theorem State.due.value_eq (h : s.due op t) : t.value = s.value := by rw [State.due_state h]
theorem State.due.fault_eq (h : s.due op t) : t.fault = s.fault := by rw [State.due_state h]
theorem State.due.spoiled_eq (h : s.due op t) : t.spoiled = s.spoiled := by rw [State.due_state h]
theorem State.due.mem_eq (h : s.due op t) : t.mem = s.mem := by rw [State.due_state h]
theorem State.due.collected_eq (h : s.due op t) : t.collected = s.collected := by rw [State.due_state h]

end

/-! ### The accesses that use a result (R290) -/

section
variable {s t : State} {op : HostOp}

theorem unlessFaulted_of_clean (k : State → Host.Outcome State Fault Refusal) (hf : s.fault = false)
    (hs : s.spoiled = false) (hd : s.due op t) : unlessFaulted t k = k t := by
  simp [unlessFaulted, State.compositeFaulted, hd.fault_eq, hd.spoiled_eq, hf, hs]

theorem unlessFaulted_of_faulted (k : State → Host.Outcome State Fault Refusal)
    (h : s.fault = true ∨ s.spoiled = true) (hd : s.due op t) :
    unlessFaulted t k = .fault .compositeAfterFault := by
  simp [unlessFaulted, State.compositeFaulted, hd.fault_eq, hd.spoiled_eq, h]

end

/-- A composite's end hands over its result when no fault is recorded, now or before in it. -/
theorem step_deliver {s t : State} {d : Delivery} (hr : s.runnable = true) (hf : s.fault = false)
    (hs : s.spoiled = false) (hd : s.due (.deliver d) t) : step s = .next (deliverResult d t) := by
  rw [step_due hr hd, hostStep, unlessFaulted_of_clean _ hf hs hd]

/-- The bytes that a composite read takes out of the kept `RESULT.VALUE`s (R294). -/
theorem collectedBytes_of_kept {s : State} {bytes : List Byte} (h : s.collected = bytes.map fun b => b.setWidth 16) :
    collectedBytes s = bytes := by
  simp [collectedBytes, h, Function.comp_def]

/-- Settles O55: the value handed over is the join of the kept bytes. -/
theorem compositeResultsAreDelivered : Obligations.CompositeResultsAreDelivered := by
  unfold Obligations.CompositeResultsAreDelivered
  intro s t hr hf hs
  refine ⟨fun hd => ?_, fun v hd hkept => ?_, fun hd => ?_, fun hd => ?_⟩
  · rw [step_due hr hd, hostStep, unlessFaulted_of_clean _ hf hs hd, hd.value_eq]
  · have hbytes : collectedBytes t = valueBytes t.cfg.hostByteOrder v.kind.size v.bits := by
      rw [hd.cfg_eq, ← wireBytes_eq]
      exact collectedBytes_of_kept (hd.collected_eq.trans hkept)
    rw [step_deliver hr hf hs hd, deliverResult, receiveResult, hbytes, joinBytes_valueBytes]
    rfl
  · rw [step_deliver hr hf hs hd, ← hd.collected_eq]
    rfl
  · exact step_deliver hr hf hs hd

/-! ### The program that is refused (R301) -/

theorem HostOp.permitted_eq_false {op : HostOp} :
    op.permitted = false ↔ ∃ a cap n, op = .composite (.gets a cap n) ∧ cap < n := by
  cases op with
  | composite c => cases c <;> simp [HostOp.permitted, Composite.permitted]
  | _ => simp [HostOp.permitted]

/-- A program may not run exactly when it holds a `gets` beyond its capacity, in the list or in what is left of the
running composite. -/
theorem programPermitted_eq_false {s : State} : s.programPermitted = false ↔
    (∃ h ∈ s.host, ∃ a cap n, h.op = .composite (.gets a cap n) ∧ cap < n) ∨
      ∃ a cap n, .composite (.gets a cap n) ∈ s.composing ∧ cap < n := by
  simp only [State.programPermitted, Bool.and_eq_false_iff, List.all_eq_false, Bool.not_eq_true,
    HostOp.permitted_eq_false]
  refine or_congr_right ⟨?_, ?_⟩
  · rintro ⟨_, hmem, a, cap, n, rfl, hn⟩
    exact ⟨a, cap, n, hmem, hn⟩
  · rintro ⟨a, cap, n, hmem, hn⟩
    exact ⟨_, hmem, a, cap, n, rfl, hn⟩

theorem hostWrite_ne_refused (reg : Nat) (w : Word) (s : State) (r : Refusal) : hostWrite reg w s ≠ .refused r := by
  unfold hostWrite
  split
  · rcases hostWriteCmd_cases w s with ⟨i, _, he⟩ | ⟨c, _, he⟩
    · rw [he]
      rcases exec_cases i s with ⟨c, _, he⟩ | ⟨_, _, _, _, he⟩ <;> simp [he]
    · simp [he]
  · simp

theorem memRead_ne_refused {a : Nat} {s : State} {k : Byte → Host.Outcome State Fault Refusal} {r : Refusal}
    (hk : ∀ b, k b ≠ .refused r) : memRead a s k ≠ .refused r := by
  rcases memRead_cases a s k with ⟨b, _, _, he⟩ | ⟨_, _, he⟩ | ⟨_, he⟩
  · rw [he]; exact hk b
  · simp [he]
  · simp [he]

theorem unlessFaulted_ne_refused {s : State} {k : State → Host.Outcome State Fault Refusal} {r : Refusal}
    (hk : k s ≠ .refused r) : unlessFaulted s k ≠ .refused r := by
  unfold unlessFaulted
  split
  · simp
  · exact hk

/-- No access of the host is refused: a program is refused before it runs, or not at all. -/
theorem hostStep_ne_refused (op : HostOp) (s : State) (r : Refusal) : hostStep op s ≠ .refused r := by
  cases op with
  | write reg w => exact hostWrite_ne_refused reg w s r
  | read reg => simp [hostStep]
  | wait => simp [hostStep]
  | assertReset => simp [hostStep]
  | composite c => simp [hostStep]
  | sendFrom u a => exact memRead_ne_refused fun b => by simp
  | putsFrom a => exact memRead_ne_refused fun b => by split <;> simp
  | collect => rw [hostStep]; exact unlessFaulted_ne_refused (by simp)
  | store a => exact unlessFaulted_ne_refused (by unfold memWrite; split <;> simp)
  | deliver d => rw [hostStep]; exact unlessFaulted_ne_refused (by simp)

/-- Everything a step of a machine that may run can be: the sequencer's, with at most the host's list changed before it,
or the host's due access. -/
theorem step_runnable_cases {s : State} (hr : s.runnable = true) :
    (∃ host, step s = .next (seqStep s.bus.oracle { s with host := host })) ∨
    ∃ op t, s.due op t ∧ step s = hostStep op t := by
  cases hx : nextTurn s with
  | none => exact .inl ⟨s.host, step_of_no_turn hr hx⟩
  | some x =>
    by_cases hm : sequencerMoves x s = true
    · left
      rcases nextTurn_cases hx with ⟨a, rest, _, _, rfl⟩ | ⟨op, ops, _, _, rfl⟩
      · exact ⟨_, step_of_sequencerMoves hr hx hm⟩
      · exact ⟨s.host, step_of_sequencerMoves hr hx hm⟩
    · have hd := nextTurn_due hx hm
      exact .inr ⟨_, _, hd, step_due hr hd⟩

theorem step_of_not_permitted {s : State} (hv : s.cfg.valid = true) (hp : s.programPermitted = false) :
    step s = .refused .getsOverCapacity := by
  simp [step, stepWith, hv, hp]

theorem step_ne_refused {s : State} (hr : s.runnable = true) (r : Refusal) : step s ≠ .refused r := by
  rcases step_runnable_cases hr with ⟨host, he⟩ | ⟨op, t, _, he⟩
  · simp [he]
  · rw [he]; exact hostStep_ne_refused op t r

theorem step_refused_iff_not_permitted {s : State} (hv : s.cfg.valid = true) :
    step s = .refused .getsOverCapacity ↔ s.programPermitted = false := by
  refine ⟨fun h => ?_, step_of_not_permitted hv⟩
  by_contra hp
  exact step_ne_refused (by simp [State.runnable, hv, hp]) _ h

/-- A state from which there is a next one may run. -/
theorem runnable_of_step_next {s u : State} (h : step s = .next u) : s.runnable = true := by
  obtain ⟨hv, _⟩ := step_cases h
  have hp : s.programPermitted ≠ false := fun hp => by
    rw [step_of_not_permitted hv hp] at h; cases h
  simp [State.runnable, hv, hp]

/-! ### A fault in a composite command (R290) -/

/-- The step that keeps, stores or delivers a result stops once a fault has been recorded in the composite. -/
theorem step_uses_result_of_faulted {s : State} (hr : s.runnable = true) (hfault : s.fault = true ∨ s.spoiled = true)
    (hd : (∃ t, s.due .collect t) ∨ (∃ a t, s.due (.store a) t) ∨ ∃ d t, s.due (.deliver d) t) :
    step s = .fault .compositeAfterFault := by
  rcases hd with ⟨t, hd⟩ | ⟨a, t, hd⟩ | ⟨d, t, hd⟩ <;>
    rw [step_due hr hd, hostStep, unlessFaulted_of_faulted _ hfault hd]

/-- Only the reset input and the beginning of a composite change what a composite remembers of its faults. -/
theorem step_keeps_spoiled {s u : State} (h : step s = .next u) (hreset : ∀ t, ¬ s.due .assertReset t)
    (hbegin : ∀ c t, ¬ s.due (.composite c) t) : u.spoiled = s.spoiled := by
  rcases step_runnable_cases (runnable_of_step_next h) with ⟨host, he⟩ | ⟨op, t, hd, he⟩
  · rw [he] at h; cases h; simp
  · rcases hostStep_spoiled (he ▸ h) with ⟨c, rfl, _⟩ | ⟨rfl, _⟩ | hsame
    · exact absurd hd (hbegin c t)
    · exact absurd hd (hreset t)
    · exact hsame.trans hd.spoiled_eq

/-- Settles O56: no access is refused once the program may run, and `hostStep_spoiled` says what each access does to the
memory of a fault. -/
theorem compositeCommandsStop : Obligations.CompositeCommandsStop := by
  unfold Obligations.CompositeCommandsStop
  intro s hv
  refine ⟨programPermitted_eq_false.symm.trans (step_refused_iff_not_permitted hv).symm, step_uses_result_of_faulted,
    fun hr t hd => ⟨assertReset t, step_due hr hd, rfl, ?_⟩, fun u => step_keeps_spoiled⟩
  simp [hd.spoiled_eq, hd.fault_eq]

/-! ### Reading and writing host memory (R60, R63) -/

section
variable {s : State} {a : Nat}

theorem hostAddressExists_of_lt {c : Config} (h : a < 2 ^ c.hostAddrWidth) : hostAddressExists c a = true := by
  simp [hostAddressExists, h]

theorem hostAddress_of_lt {c : Config} (h : a < 2 ^ c.hostAddrWidth) (j : Nat) :
    hostAddress c a j = (a + j) % 2 ^ c.hostAddrWidth := by
  simp [hostAddress, hostAddressExists_of_lt h]

theorem memRead_of_read (k : Byte → Host.Outcome State Fault Refusal) (ha : a < 2 ^ s.cfg.hostAddrWidth) {b : Byte}
    (h : s.mem.read a = some b) : memRead a s k = k b := by
  simp [memRead, hostAddressExists_of_lt ha, h]

theorem memRead_of_unwritten (k : Byte → Host.Outcome State Fault Refusal) (ha : a < 2 ^ s.cfg.hostAddrWidth)
    (h : s.mem.read a = none) : memRead a s k = .fault (.hostMemoryUnwritten a) := by
  simp [memRead, hostAddressExists_of_lt ha, h]

theorem memRead_of_ge (k : Byte → Host.Outcome State Fault Refusal) (ha : 2 ^ s.cfg.hostAddrWidth ≤ a) :
    memRead a s k = .fault (.hostAddressOutOfSpace a) := by
  simp [memRead, hostAddressExists, ha]

theorem memWrite_of_lt (b : Byte) (ha : a < 2 ^ s.cfg.hostAddrWidth) :
    memWrite a b s = .next { s with mem := s.mem.write a b } := by
  simp [memWrite, hostAddressExists_of_lt ha]

theorem memWrite_of_ge (b : Byte) (ha : 2 ^ s.cfg.hostAddrWidth ≤ a) :
    memWrite a b s = .fault (.hostAddressOutOfSpace a) := by
  simp [memWrite, hostAddressExists, ha]

end

/-! ### Turns of `puts` (R299) -/

/-- At a NUL a turn of `puts` ends. -/
theorem putsTurn_of_nul {s : State} {a : Nat} (ha : a < 2 ^ s.cfg.hostAddrWidth) (h : s.mem.read a = some 0) :
    putsTurn a s = .next s := by
  rw [putsTurn, memRead_of_read _ ha h, if_pos rfl]

/-- At another byte a turn of `puts` sends it and goes on at the next address. -/
theorem putsTurn_of_byte {s : State} {a : Nat} {c : Byte} (ha : a < 2 ^ s.cfg.hostAddrWidth)
    (h : s.mem.read a = some c) (hc : c ≠ 0) : putsTurn a s = .next { s with
      composing := issued (.uartWrite c) ++ [.putsFrom ((a + 1) % 2 ^ s.cfg.hostAddrWidth)] ++ s.composing } := by
  rw [putsTurn, memRead_of_read _ ha h, if_neg hc, hostAddress_of_lt ha]
  rfl

/-- Settles O57: by the byte at the turn's address; the next turn's address exists, as it wraps. -/
theorem putsSendsUntilNul : Obligations.PutsSendsUntilNul := by
  unfold Obligations.PutsSendsUntilNul
  intro s t a hr hd
  rw [step_due hr hd, ← hd.cfg_eq, ← hd.mem_eq]
  refine ⟨fun ha => ⟨putsTurn_of_nul ha, fun c => putsTurn_of_byte ha, fun hall => ?_, memRead_of_unwritten _ ha⟩,
    memRead_of_ge _⟩
  obtain ⟨c, hread, hc⟩ := hall a ha
  exact ⟨_, c, _, putsTurn_of_byte ha hread hc, rfl, Nat.mod_lt _ (by positivity), rfl⟩

/-! ### Storing a received byte (R291, R301) -/

/-- Settles O58: by what a read returns after a write to the same and to another address. -/
theorem storeWritesOneByte : Obligations.StoreWritesOneByte := by
  unfold Obligations.StoreWritesOneByte
  intro s t a hr hf hs hd
  have hstep : step s = memWrite a (s.value.setWidth 8) t := by
    rw [step_due hr hd, hostStep, unlessFaulted_of_clean _ hf hs hd, hd.value_eq]
  rw [hstep]
  refine ⟨fun ha => ⟨s.mem.write a (s.value.setWidth 8), ?_, Memory.read_write_same _ _ _,
    fun a' => Memory.read_write_other _ _⟩, fun ha => memWrite_of_ge _ (hd.cfg_eq ▸ ha)⟩
  rw [memWrite_of_lt _ (hd.cfg_eq ▸ ha), hd.mem_eq, State.due_state hd]

/-! ### The expansions of the composite commands (R293 to R301) -/

/-- The beginning of a composite puts its expansion before what is left of a running one, and keeps nothing of before
(R290). -/
theorem step_composite {s t : State} {c : Composite} {ops : List HostOp} (hr : s.runnable = true)
    (hexpand : expand s.cfg c = ops) (hd : s.due (.composite c) t) :
    step s = .next { t with collected := [], spoiled := false, composing := ops ++ t.composing } := by
  rw [step_due hr hd, ← hexpand, ← hd.cfg_eq]
  rfl

/-- What a multi-byte write hands over: on I2C the acknowledges, else nothing (R293, R295, R297). -/
def writeDelivery : SerialUnit → Delivery
  | .i2c => .acks
  | .spi => .nothing
  | .uart => .nothing

theorem writeOps_value (c : Config) (u : SerialUnit) (v : Value) : writeOps c u (.value v) =
    ((wireBytes c.hostByteOrder v).flatMap fun b => issued (sendByte u b) ++ afterSend u) ++
      [.deliver (writeDelivery u)] := by
  rw [wireBytes_eq]
  cases u <;> rfl

theorem flatMap_addressesFrom (c : Config) (a n : Nat) (f : Nat → List HostOp) :
    (addressesFrom c a n).flatMap f = (upTo n).flatMap fun j => f ((a + j) % 2 ^ c.hostAddrWidth) :=
  List.flatMap_map _ _ _

theorem writeOps_memory {c : Config} {a : Nat} (ha : a < 2 ^ c.hostAddrWidth) (u : SerialUnit) (k : Kind) :
    writeOps c u (.memory k a) =
      ((addressesFrom c a k.size).flatMap fun b => [.wait, .sendFrom u b] ++ afterSend u) ++
        [.deliver (writeDelivery u)] := by
  rw [flatMap_addressesFrom]
  simp only [writeOps, hostAddress_of_lt ha]
  cases u <;> rfl

theorem readOps_value (c : Config) (k : Kind) (command : Nat → Instr) : readOps c k .value command =
    ((upTo k.size).flatMap fun j => issued (command j) ++ [.collect]) ++ [.deliver (.value k)] := rfl

theorem readOps_memory {c : Config} {a : Nat} (ha : a < 2 ^ c.hostAddrWidth) (k : Kind) (command : Nat → Instr) :
    readOps c k (.memory a) command =
      ((upTo k.size).flatMap fun j => issued (command j) ++ [.store ((a + j) % 2 ^ c.hostAddrWidth)]) ++
        [.deliver .nothing] := by
  simp only [readOps, afterReceive, hostAddress_of_lt ha]
  rfl

theorem flatMap_upTo_const (n : Nat) (ops : List HostOp) :
    (upTo n).flatMap (fun _ => ops) = (List.replicate n ops).flatten := by
  simp [List.flatMap_def, upTo]

/-- The last byte of a value apart from those before it. -/
theorem flatMap_upTo_size (k : Kind) (f : Nat → List HostOp) :
    (upTo k.size).flatMap f = (upTo (k.size - 1)).flatMap f ++ f (k.size - 1) := by
  have hsize : k.size = k.size - 1 + 1 := by cases k <;> rfl
  conv_lhs => rw [hsize]
  simp [upTo, List.range_succ]

/-- The commands of an I2C read: every byte but the last is acknowledged, and the last takes `ackLast` (R294). -/
theorem flatMap_i2cRead (k : Kind) (ackLast : Bool) (f : Nat → Instr → List HostOp) :
    ((upTo k.size).flatMap fun j => f j (.i2cRead (if j < k.size - 1 then true else ackLast))) =
      ((upTo (k.size - 1)).flatMap fun j => f j (.i2cRead true)) ++ f (k.size - 1) (.i2cRead ackLast) := by
  rw [flatMap_upTo_size, if_neg (Nat.lt_irrefl _)]
  refine congrArg (· ++ _) (List.flatMap_congr fun j hj => ?_)
  rw [if_pos (mem_upTo.1 hj)]

theorem expand_i2cRead_value (c : Config) (k : Kind) (ackLast : Bool) : expand c (.i2cRead k ackLast .value) =
    (List.replicate (k.size - 1) (issued (.i2cRead true) ++ [.collect])).flatten ++ issued (.i2cRead ackLast) ++
      [.collect, .deliver (.value k)] := by
  rw [expand, readOps_value, flatMap_i2cRead k ackLast fun _ i => issued i ++ [HostOp.collect], flatMap_upTo_const]
  simp

theorem expand_i2cRead_memory {c : Config} {a : Nat} (ha : a < 2 ^ c.hostAddrWidth) (k : Kind) (ackLast : Bool) :
    expand c (.i2cRead k ackLast (.memory a)) =
      ((addressesFrom c a (k.size - 1)).flatMap fun b => issued (.i2cRead true) ++ [.store b]) ++
        issued (.i2cRead ackLast) ++ [.store ((a + (k.size - 1)) % 2 ^ c.hostAddrWidth), .deliver .nothing] := by
  rw [expand, readOps_memory ha,
    flatMap_i2cRead k ackLast fun j i => issued i ++ [HostOp.store ((a + j) % 2 ^ c.hostAddrWidth)], flatMap_addressesFrom]
  simp

/-- A read whose command is the same for every byte. -/
theorem readOps_const_value (c : Config) (k : Kind) (i : Instr) : readOps c k .value (fun _ => i) =
    (List.replicate k.size (issued i ++ [.collect])).flatten ++ [.deliver (.value k)] := by
  rw [readOps_value, flatMap_upTo_const]

theorem readOps_const_memory {c : Config} {a : Nat} (ha : a < 2 ^ c.hostAddrWidth) (k : Kind) (i : Instr) :
    readOps c k (.memory a) (fun _ => i) =
      ((addressesFrom c a k.size).flatMap fun b => issued i ++ [.store b]) ++ [.deliver .nothing] := by
  rw [readOps_memory ha, flatMap_addressesFrom]

theorem expand_gets {c : Config} {a : Nat} (ha : a < 2 ^ c.hostAddrWidth) (cap n : Nat) : expand c (.gets a cap n) =
    ((addressesFrom c a n).flatMap fun b => issued .uartRead ++ [.store b]) ++ [.deliver .nothing] := by
  rw [flatMap_addressesFrom]
  simp only [expand, hostAddress_of_lt ha]
  rfl

/-- A byte of host memory is sent with the unit's command (R291). -/
theorem step_sendFrom {s t : State} {u : SerialUnit} {a : Nat} {b : Byte} (hr : s.runnable = true)
    (ha : a < 2 ^ s.cfg.hostAddrWidth) (hread : s.mem.read a = some b) (hd : s.due (.sendFrom u a) t) :
    step s = .next { t with composing := issued (sendByte u b) ++ t.composing } := by
  rw [← hd.cfg_eq] at ha
  rw [← hd.mem_eq] at hread
  rw [step_due hr hd, hostStep, sendFromMemory, memRead_of_read _ ha hread]
  rfl

/-- Settles O60: the beginning of a composite puts its expansion, which the lemmas above give for each form of operand. -/
theorem compositeCommandsExpand : Obligations.CompositeCommandsExpand := by
  unfold Obligations.CompositeCommandsExpand
  intro s t hr begins
  have hbegins {c : Composite} {ops : List HostOp} (hexpand : expand s.cfg c = ops) : begins c ops :=
    step_composite hr hexpand
  refine ⟨fun v => ⟨?_, ?_, ?_⟩, fun k ackLast => ⟨?_, ?_, ?_⟩,
    fun a ha => ⟨fun k => ⟨?_, ?_, ?_, ?_, ?_, fun ackLast => ?_⟩, ?_, ?_, fun cap n _ => ?_, fun b hread => ⟨?_, ?_, ?_⟩,
      fun u hread hd => ?_⟩, fun u a ha hd => ?_⟩
  · exact hbegins (writeOps_value _ .i2c v)
  · exact hbegins (writeOps_value _ .spi v)
  · exact hbegins (writeOps_value _ .uart v)
  · exact hbegins (expand_i2cRead_value _ k ackLast)
  · exact hbegins (readOps_const_value _ k .spiReadB)
  · exact hbegins (readOps_const_value _ k .uartRead)
  · exact hbegins (writeOps_memory ha .i2c k)
  · exact hbegins (writeOps_memory ha .spi k)
  · exact hbegins (writeOps_memory ha .uart k)
  · exact hbegins (readOps_const_memory ha k .spiReadB)
  · exact hbegins (readOps_const_memory ha k .uartRead)
  · exact hbegins (expand_i2cRead_memory ha k ackLast)
  · exact hbegins rfl
  · exact hbegins rfl
  · exact hbegins (expand_gets ha cap n)
  · exact step_sendFrom (u := .i2c) hr ha hread
  · exact step_sendFrom (u := .spi) hr ha hread
  · exact step_sendFrom (u := .uart) hr ha hread
  · rw [← hd.cfg_eq] at ha
    rw [← hd.mem_eq] at hread
    exact (step_due hr hd).trans (memRead_of_unwritten _ ha hread)
  · rw [← hd.cfg_eq] at ha
    exact (step_due hr hd).trans (memRead_of_ge _ ha)

end Sys2Proof.Machine
end

section
/-! PROOFS. The statements of spec/60_exceptions.md: a fault raised while a command runs (R328). -/

namespace Sys2Proof.Machine

/-! ### Raising a fault commutes with the sequencer (R328) -/

section
variable (c : FaultCode) (s : State)

theorem assign_raiseFault (x : Assign) : assign (raiseFault c s) x = raiseFault c (assign s x) := by
  rw [raiseFault_eq, raiseFault_eq]
  cases x <;> rfl

theorem assignAll_raiseFault (as : List Assign) :
    assignAll as (raiseFault c s) = raiseFault c (assignAll as s) :=
  List.foldl_hom (raiseFault c) fun t x => assign_raiseFault c t x

theorem doneUpdate_raiseFault (x : DoneUpdate) :
    doneUpdate (raiseFault c s) x = raiseFault c (doneUpdate s x) := by
  rw [raiseFault_eq, raiseFault_eq]
  cases x with
  | result src => cases src <;> rfl
  | ack => rfl
  | init u => cases u <;> rfl

/-- A `μDONE` writes its results as if no fault had been raised. -/
theorem microDone_raiseFault (us : List DoneUpdate) : microDone us (raiseFault c s) = raiseFault c (microDone us s) := by
  have hupdates : us.foldl doneUpdate (raiseFault c s) = raiseFault c (us.foldl doneUpdate s) :=
    List.foldl_hom (raiseFault c) fun t x => doneUpdate_raiseFault c t x
  rw [microDone, hupdates, raiseFault_eq, raiseFault_eq]
  rfl

/-- The value read depends on neither fault bit. -/
theorem readLine_raiseFault (env : Oracle) (l : Line) : readLine env l (raiseFault c s) = readLine env l s :=
  readLine_congr env l (raiseFault_pins c s) (raiseFault_hist c s)

theorem perform_raiseFault (env : Oracle) (op : MicroOp) (rest : List MicroStep) :
    perform env op rest (raiseFault c s) = raiseFault c (perform env op rest s) := by
  cases op with
  | sample l dest =>
    rw [raiseFault_eq, raiseFault_eq]
    cases dest <;> rfl
  | wait l v =>
    rw [perform_wait, perform_wait, readLine_raiseFault]
    split
    · rw [raiseFault_eq, raiseFault_eq]; rfl
    · rw [raiseFault_eq, raiseFault_eq]; rfl
  | done us => exact microDone_raiseFault c s us
  | _ => rw [raiseFault_eq, raiseFault_eq]; rfl

theorem seqStep_raiseFault (env : Oracle) : seqStep env (raiseFault c s) = raiseFault c (seqStep env s) := by
  cases hpc : s.pc with
  | nil => rw [seqStep_idle env hpc, seqStep_idle env ((raiseFault_pc c s).trans hpc)]
  | cons m rest =>
    rw [seqStep_cons env hpc, seqStep_cons env ((raiseFault_pc c s).trans hpc), assignAll_raiseFault,
      perform_raiseFault]

end

/-- Settles O13: by induction on the number of steps, each of which commutes with raising the fault. -/
theorem faultDoesNotStopRunningCommand : Obligations.FaultDoesNotStopRunningCommand := by
  unfold Obligations.FaultDoesNotStopRunningCommand
  intro env n c s
  induction n generalizing s with
  | zero => rfl
  | succ n ih => rw [seqRun_succ, seqRun_succ, seqStep_raiseFault, ih]

end Sys2Proof.Machine
end

section
/-! PROOFS. The statements of spec/70_reset_and_hazards.md: the reset input (R360), and the number of micro-operations
and the delay total of each command (R375). -/

namespace Sys2Proof

/-- A valid configuration's `T_STEP` is no greater than its `T_STEP_MAX` (R7). -/
theorem Config.tStep_le_tStepMax {c : Config} (h : c.valid = true) : c.tStep ≤ c.tStepMax := by
  simp only [Config.valid, Config.inDomain, Bool.and_eq_true, decide_eq_true_eq] at h
  obtain ⟨_, _, hstep⟩ := h
  exact hstep

end Sys2Proof

namespace Sys2Proof.Machine

/-! ### The reset input (R360) -/

/-- What a claim observes right after the reset input is what it observes at reset, whatever the configuration. -/
theorem view_assertReset (s : State) : (assertReset s).view = State.reset.view := rfl

/-- Settles O17: the step takes the due access, which is `assertReset`. -/
theorem resetInputResetsTheBlock : Obligations.ResetInputResetsTheBlock := by
  unfold Obligations.ResetInputResetsTheBlock
  intro s u hr hd
  exact ⟨assertReset u, step_due hr hd, view_assertReset u, assertReset_pc u, assertReset_cmd u⟩

/-! ### Delay totals of histories (R124, R375) -/

section
variable (c : Config)

@[simp] theorem delayTotal_nil : delayTotal c [] = 0 := rfl

@[simp] theorem delayTotal_cons (e : Event) (h : List Event) :
    delayTotal c (e :: h) = eventDelay c e + delayTotal c h := by simp [delayTotal]

@[simp] theorem delayTotal_append (h h' : List Event) : delayTotal c (h ++ h') = delayTotal c h + delayTotal c h' := by
  simp [delayTotal]

/-- A loop whose every turn is delayed by `d` is delayed by `d` a turn. -/
theorem delayTotal_flatMap {α : Type} {turn : α → List Event} {d : Rat} (h : ∀ x, delayTotal c (turn x) = d)
    (l : List α) : delayTotal c (l.flatMap turn) = l.length * d := by
  induction l with
  | nil => simp
  | cons x rest ih =>
    rw [List.flatMap_cons, delayTotal_append, h, ih, List.length_cons]
    push_cast
    ring

theorem delayTotal_startEvents : delayTotal c startEvents = 4 * c.tI2c := by
  simp only [startEvents, delayTotal_cons, delayTotal_nil, eventDelay, dur]
  ring

theorem delayTotal_stopEvents : delayTotal c stopEvents = 3 * c.tI2c := by
  simp only [stopEvents, delayTotal_cons, delayTotal_nil, eventDelay, dur]
  ring

theorem delayTotal_restartEvents : delayTotal c restartEvents = 3 * c.tI2c := by
  simp only [restartEvents, delayTotal_cons, delayTotal_nil, eventDelay, dur]
  ring

theorem delayTotal_writeBitEvents (u : Bool) : delayTotal c (writeBitEvents u) = 2 * c.tI2c := by
  cases u <;> simp [writeBitEvents, eventDelay, dur] <;> ring

theorem delayTotal_writeSlotEvents (a : Bool) : delayTotal c (writeSlotEvents a) = c.tI2c := by
  simp [writeSlotEvents, eventDelay, dur]

/-- Eight bits of two delays each, and the one of the acknowledge slot. -/
theorem delayTotal_i2cWriteEvents (b : Byte) (a : Bool) : delayTotal c (i2cWriteEvents b a) = 17 * c.tI2c := by
  rw [i2cWriteEvents_eq, delayTotal_append, delayTotal_flatMap c (fun _ => delayTotal_writeBitEvents c _),
    delayTotal_writeSlotEvents, show (downFrom 8).length = 8 from rfl]
  ring

theorem delayTotal_readBitEvents (u : Bool) : delayTotal c (readBitEvents u) = 2 * c.tI2c := by
  simp [readBitEvents, eventDelay, dur]
  ring

theorem delayTotal_readSlotEvents (ack : Bool) : delayTotal c (readSlotEvents ack) = 2 * c.tI2c := by
  cases ack <;> simp [readSlotEvents, eventDelay, dur] <;> ring

/-- Eight bits of two delays each, and the two of the acknowledge slot. -/
theorem delayTotal_i2cReadEvents (ack : Bool) (x : Byte) : delayTotal c (i2cReadEvents ack x) = 18 * c.tI2c := by
  rw [i2cReadEvents_eq, delayTotal_append, delayTotal_flatMap c (fun _ => delayTotal_readBitEvents c _),
    delayTotal_readSlotEvents, show (downFrom 8).length = 8 from rfl]
  ring

/-- A bit of `SHIFT` holds no delay (R214). -/
theorem delayTotal_shiftBitEvents (spi : SpiCfg) (o : Half) (smp : Bool) (k : Nat) (u : Bool) :
    delayTotal c (shiftBitEvents spi o smp k u) = 0 := by
  unfold shiftBitEvents
  by_cases hk : k = 0 <;> cases smp <;> simp [hk, eventDelay]

theorem delayTotal_shiftLoopEvents (spi : SpiCfg) (n : Nat) (o : Half) (smp : Bool) (f : Nat → Bool) :
    delayTotal c (shiftLoopEvents spi n o smp f) = 0 := by
  rw [shiftLoopEvents, delayTotal_append, delayTotal_flatMap c (fun _ => delayTotal_shiftBitEvents c ..)]
  simp [eventDelay]

theorem delayTotal_levelEvents (v : Bool) : delayTotal c (levelEvents v) = c.tBit := by
  simp [levelEvents, eventDelay, dur]

/-- A frame is ten levels, each held for a bit period. -/
theorem delayTotal_uartWriteEvents (b : Byte) : delayTotal c (uartWriteEvents b) = 10 * c.tBit := by
  rw [uartWriteEvents_eq, delayTotal_append, delayTotal_append,
    delayTotal_flatMap c (fun _ => delayTotal_levelEvents c _), delayTotal_levelEvents, delayTotal_levelEvents,
    show (upTo 8).length = 8 from rfl]
  ring

theorem delayTotal_uartReadBitEvents (k : Nat) (u : Bool) :
    delayTotal c (uartReadBitEvents k u) = if k = 7 then 0 else c.tBit := by
  unfold uartReadBitEvents
  split <;> simp [eventDelay, dur]

/-- One and a half bit periods to the first sample, and one from each sample to the next. -/
theorem delayTotal_uartReadEvents (x : Byte) : delayTotal c (uartReadEvents x) = 17 / 2 * c.tBit := by
  simp only [uartReadEvents_eq, upTo, List.range_succ, List.range_zero, List.nil_append, List.cons_append,
    List.flatMap_cons, List.flatMap_nil, delayTotal_cons, delayTotal_append, delayTotal_nil,
    delayTotal_uartReadBitEvents, eventDelay, dur]
  norm_num
  ring

/-- The start bit's detection holds no delay (R253). -/
theorem delayTotal_startPolls (d : StartDetect) : delayTotal c (startPolls d 0 0) = 0 := by
  cases d <;> simp [startPolls, eventDelay]

/-! ### Delay totals of texts (R375) -/

theorem textDelay_cons (m : MicroStep) (text : List MicroStep) :
    textDelay c (m :: text) = textDelay c [m] + textDelay c text := by simp [textDelay]

theorem textDelay_append (x y : List MicroStep) : textDelay c (x ++ y) = textDelay c x + textDelay c y := by
  simp [textDelay]

theorem Emits.textDelay_eq {m : MicroStep} {e : Event} (h : Emits m e) : textDelay c [m] = eventDelay c e := by
  cases h <;> simp [textDelay, eventDelay]

/-- A text is delayed as the events it emits are, its `μDONE` not at all. -/
theorem textDelay_of_emits {text body : List MicroStep} {events : List Event} {us : List DoneUpdate}
    (h : List.Forall₂ Emits body events) (htext : text = body ++ [plain (.done us)]) :
    textDelay c text = delayTotal c events := by
  have hbody : textDelay c body = delayTotal c events := by
    clear htext
    induction h with
    | nil => rfl
    | cons he _ ih => rw [textDelay_cons, he.textDelay_eq, delayTotal_cons, ih]
  rw [htext, textDelay_append, hbody]
  simp [textDelay]

/-- `UART.READ` but for its `μDONE` emits the polls of the start bit's detection and the events after it. -/
theorem uartReadBody_emits (d : StartDetect) (x : Byte) :
    List.Forall₂ Emits (before [.clearShift] (startDetectText d) ++ samplingBody)
      (startPolls d 0 0 ++ uartReadEvents x) := by
  refine List.rel_append (emits_before ?_) (samplingBody_emits x)
  cases d <;> repeat constructor

theorem textDelay_uartReadText (d : StartDetect) : textDelay c (uartReadText d) = 17 / 2 * c.tBit := by
  rw [textDelay_of_emits c (uartReadBody_emits d 0) ((uartReadText_eq d).trans (List.append_assoc ..).symm),
    delayTotal_append, delayTotal_startPolls, delayTotal_uartReadEvents, zero_add]

theorem textDelay_shiftText (spi : SpiCfg) (n : Nat) (o : Half) (smp : Bool) (us : List DoneUpdate) :
    textDelay c (shiftText spi n o smp ++ [plain (.done us)]) = 0 := by
  rw [textDelay_of_emits c (shiftText_emits spi o smp (fun _ => false) n) rfl, delayTotal_cons,
    delayTotal_shiftLoopEvents]
  exact add_zero 0

/-- The commands of the SPI unit (R214) and the three `INIT`s have no delay. -/
theorem textDelay_of_spi_or_init {i : Instr} (h : unitOf i = .spi ∨ isInit i = true) (spi : SpiCfg) :
    textDelay c (microprogram c spi i) = 0 := by
  cases i with
  | spiWriteB b | spiWriteN v | spiReadB | spiReadN | spiXmit b => exact textDelay_shiftText ..
  | i2cInit => simp [microprogram, i2cInitText, textDelay]
  | uartInit => simp [microprogram, uartInitText, textDelay]
  | spiInit => simp [microprogram, spiInitText, textDelay]
  | spiSetMode m => simp [microprogram, spiSetModeText, textDelay]
  | spiGetMode => simp [microprogram, spiGetModeText, textDelay]
  | _ => simp [unitOf, isInit] at h

end

/-! ### The number of micro-operations (R375) -/

/-- `SPI.WRITEN` takes three steps a bit, and `SHIFT`'s first edge and the `μDONE`. -/
theorem length_spiWriteNText (spi : SpiCfg) {n : Nat} (hn : 1 ≤ n) (v : Half) :
    (spiWriteNText spi n v).length = 3 * n + 2 := by
  rw [spiWriteNText, List.length_append, length_shiftText _ _ _ hn]
  rfl

/-- `SPI.READN` takes a fourth step a bit, its sample. -/
theorem length_spiReadNText (spi : SpiCfg) {n : Nat} (hn : 1 ≤ n) (filler : Bool) :
    (spiReadNText spi n filler).length = 4 * n + 2 := by
  rw [spiReadNText, List.length_append, length_shiftText _ _ _ hn]
  rfl

/-- `UART.READ` takes one step a poll, and 17 after the start bit is seen. -/
theorem length_uartReadText (d : StartDetect) : (uartReadText d).length = (startDetectText d).length + 17 := by
  cases d <;> rfl

/-! ### The bounds of a run's time (R375) -/

theorem leastTime_le_greatestTime {c : Config} (hc : c.valid = true) (n : Nat) (h : List Event) :
    leastTime c n h ≤ greatestTime c n h := by
  have hstep : c.tStep ≤ c.tStepMax := Config.tStep_le_tStepMax hc
  unfold leastTime greatestTime
  gcongr

/-- Settles O59: a text of fixed length is counted, and each delay total is that of the events the text emits. -/
theorem stepAndDelayTotals : Obligations.StepAndDelayTotals := by
  unfold Obligations.StepAndDelayTotals
  intro c spi b v ack m
  refine ⟨rfl, rfl, rfl, rfl, rfl, rfl, rfl, rfl, rfl, rfl, fun hn => length_spiWriteNText spi hn v, rfl, rfl,
    fun hn => length_spiReadNText spi hn _, rfl, rfl, fun hd => ?level, fun hd => ?edge, ?start, ?stop, ?restart,
    ?i2cWrite, ?i2cRead, ?uartWrite, textDelay_uartReadText c _, fun i h => textDelay_of_spi_or_init c h spi,
    delayTotal_i2cWriteEvents c b, delayTotal_i2cReadEvents c ack b, delayTotal_uartWriteEvents c b,
    delayTotal_uartReadEvents c b, leastTime_le_greatestTime⟩
  case level => rw [microprogram, length_uartReadText, hd]; rfl
  case edge => rw [microprogram, length_uartReadText, hd]; rfl
  case start => exact (textDelay_of_emits c start_emits rfl).trans (delayTotal_startEvents c)
  case stop => exact (textDelay_of_emits c stop_emits rfl).trans (delayTotal_stopEvents c)
  case restart => exact (textDelay_of_emits c restart_emits rfl).trans (delayTotal_restartEvents c)
  case i2cWrite =>
    exact (textDelay_of_emits c (writeBody_emits b false) (i2cWriteText_eq b)).trans (delayTotal_i2cWriteEvents c b _)
  case i2cRead =>
    exact (textDelay_of_emits c (readBody_emits ack b) (i2cReadText_eq ack)).trans (delayTotal_i2cReadEvents c ack b)
  case uartWrite => exact (textDelay_of_emits c (frameBody_emits b) rfl).trans (delayTotal_uartWriteEvents c b)

end Sys2Proof.Machine
end
